-- ==== Sys2Proof/Word.lean ====
section
/-! DEFINITION. The widths of the NetBlock's data: bytes of RAM, 32-bit registers and 16-bit ports
(spec/00_scope.md R8: REG_W and ADDR_W are 32, PORT_W is 16; R10: a byte is 8 bits). -/

namespace Sys2Proof

/-- One byte of RAM (R10). -/
abbrev Byte := BitVec 8

/-- One block register, device register value, RAM address operand or command word (R8 REG_W, ADDR_W; R20). -/
abbrev Word := BitVec 32

/-- One port number of the port-I/O space (R8 PORT_W, R59). -/
abbrev Port := BitVec 16

end Sys2Proof
end

