-- ==== Sys2Proof/Syntax.lean ====
section
/-! DEFINITION. The eleven commands of the NetBlock (spec/30_encoding.md R83), one constructor per row
of spec/opcode_table.json. Operands that come from ARG0 and ARG1 (R82) are not part of the command
word and are read from the state when the command runs. -/

namespace Sys2Proof

/-- A command: what one 32-bit word written to CMD asks for (R80, R83). -/
inductive Instr where
  /-- OP 0x01, spec/41_checksum.md R125 -/
  | csumCompute
  /-- OP 0x02, spec/41_checksum.md R126 -/
  | csumVerify
  /-- OP 0x10, spec/40_register_port.md R107 -/
  | regRead
  /-- OP 0x11, spec/40_register_port.md R108 -/
  | regWrite
  /-- OP 0x12 with EN = w[8], spec/40_register_port.md R109 -/
  | regFlag (enable : Bool)
  /-- OP 0x20 with HDR = w[15:12], FIELD = w[23:16], CHUNK = w[27:24], spec/42_header_codec.md R152 -/
  | fieldGet (hdr : BitVec 4) (field : BitVec 8) (chunk : BitVec 4)
  /-- OP 0x21 with the same selector, spec/42_header_codec.md R153 -/
  | fieldSet (hdr : BitVec 4) (field : BitVec 8) (chunk : BitVec 4)
  /-- OP 0x30, spec/43_dispatch.md R169 -/
  | classify
  /-- OP 0x31, spec/43_dispatch.md R172 -/
  | arpReply
  /-- OP 0x32, spec/43_dispatch.md R175 -/
  | icmpEchoReply
  /-- OP 0x33, spec/43_dispatch.md R178 -/
  | dispatch
  deriving DecidableEq, Repr

/-- How a header field is stored (spec/42_header_codec.md R140, R144, R151). -/
inductive FieldKind where
  | bytes
  | highNibble
  | lowNibble
  deriving DecidableEq, Repr

/-- Where a header field lies: its byte offset from the header base and its width in bytes
(spec/42_header_codec.md R142 to R148). A nibble field lies in one byte. -/
structure FieldLayout where
  offset : Nat
  width : Nat
  kind : FieldKind
  deriving DecidableEq, Repr

end Sys2Proof
end

