-- ==== Sys2Proof/Machine/Layout.lean ====
section
/-! DEFINITION. The header layouts of spec/42_header_codec.md R142 to R148 and the selectors of R149
and R150. A table's row number is its FIELD number. -/

namespace Sys2Proof.Machine

/-- A field of whole bytes. -/
def byteField (offset width : Nat) : FieldLayout := ⟨offset, width, .bytes⟩

/-- R142: Ethernet-II. DST, SRC, ETHERTYPE. -/
def ethernetFields : List FieldLayout := [byteField 0 6, byteField 6 6, byteField 12 2]

/-- R143: ARP. HTYPE, PTYPE, HLEN, PLEN, OPER, SHA, SPA, THA, TPA. -/
def arpFields : List FieldLayout :=
  [byteField 0 2, byteField 2 2, byteField 4 1, byteField 5 1, byteField 6 2,
   byteField 8 6, byteField 14 4, byteField 18 6, byteField 24 4]

/-- R144: IPv4. VER_IHL, VERSION, IHL, SERVICES, TOTAL_LEN, ID, FLAGS_FRAG, TTL, PROTOCOL, CHECKSUM, SRC, DST. -/
def ipv4Fields : List FieldLayout :=
  [byteField 0 1, ⟨0, 1, .highNibble⟩, ⟨0, 1, .lowNibble⟩, byteField 1 1, byteField 2 2, byteField 4 2,
   byteField 6 2, byteField 8 1, byteField 9 1, byteField 10 2, byteField 12 4, byteField 16 4]

/-- R145: ICMP. TYPE, CODE, CHECKSUM, BODY. -/
def icmpFields : List FieldLayout := [byteField 0 1, byteField 1 1, byteField 2 2, byteField 4 4]

/-- R146: TCP. SRC_PORT, DST_PORT, SEQ, ACK, FLAGS, WINDOW, CHECKSUM, URGENT. -/
def tcpFields : List FieldLayout :=
  [byteField 0 2, byteField 2 2, byteField 4 4, byteField 8 4, byteField 12 2, byteField 14 2,
   byteField 16 2, byteField 18 2]

/-- R147: UDP. SRC_PORT, DST_PORT, LENGTH, CHECKSUM. -/
def udpFields : List FieldLayout := [byteField 0 2, byteField 2 2, byteField 4 2, byteField 6 2]

/-- R148: IPv6. VER_CLASS_FLOW, PAYLOAD_LEN, NEXT_HDR, HOP_LIMIT, SRC, DST. -/
def ipv6Fields : List FieldLayout :=
  [byteField 0 4, byteField 4 2, byteField 6 1, byteField 7 1, byteField 8 16, byteField 24 16]

/-- R148: ICMPv6. TYPE, CODE, CHECKSUM, BODY. -/
def icmpv6Fields : List FieldLayout := [byteField 0 1, byteField 1 1, byteField 2 2, byteField 4 4]

/-- The fields of a header kind, in the order of their FIELD numbers; none for HDR 8 to 15 (R149). -/
def headerFields (hdr : BitVec 4) : List FieldLayout :=
  match hdr.toNat with
  | 0 => ethernetFields
  | 1 => arpFields
  | 2 => ipv4Fields
  | 3 => icmpFields
  | 4 => tcpFields
  | 5 => udpFields
  | 6 => ipv6Fields
  | 7 => icmpv6Fields
  | _ => []

/-- `Layout(HDR, FIELD)`: none for a pair that R149 calls invalid. -/
def layout (hdr : BitVec 4) (field : BitVec 8) : Option FieldLayout :=
  (headerFields hdr)[field.toNat]?

/-- The number of 4-byte chunks of a field (R150): one for a nibble field. -/
def chunkCount (l : FieldLayout) : Nat :=
  match l.kind with
  | .bytes => (l.width + 3) / 4
  | .highNibble => 1
  | .lowNibble => 1

/-- R149 and R150: the pair (HDR, FIELD) is in the tables and CHUNK is below the field's chunk count. -/
def validSelector (hdr : BitVec 4) (field : BitVec 8) (chunk : BitVec 4) : Bool :=
  match layout hdr field with
  | none => false
  | some l => chunk.toNat < chunkCount l

end Sys2Proof.Machine
end

