-- ==== Sys2Proof/Machine/Events.lean ====
section
/-! DEFINITION. The data the block exchanges with its surroundings: error names, device and port
accesses, log events, the block's event sequence, and the actions of the host and the platform. -/

namespace Sys2Proof.Machine

/-- The errors a command can end with (spec/60_exceptions.md R200, codes 1 to 7).
Success, code 0, is the absence of one of these. -/
inductive Err where
  | illegalCmd
  | busFault
  | notConfigured
  | regAddr
  | portRange
  | frameShort
  | malformed
  deriving DecidableEq, Repr

/-- The two mapping modes of the Register Port (spec/10_state.md R39): MODE = 0 and MODE = 1. -/
inductive MapMode where
  | memoryMapped
  | portMapped
  deriving DecidableEq, Repr

/-- One access of the block to device MMIO space or to port-I/O space (spec/00_scope.md R13): the
address and the value moved. -/
inductive BusAccess where
  | mmioRead (a : Word) (v : Word)
  | mmioWrite (a : Word) (v : Word)
  | portRead (p : Port) (v : Word)
  | portWrite (p : Port) (v : Word)
  deriving DecidableEq, Repr

/-- The direction of a logged register access (spec/60_exceptions.md R216). -/
inductive Dir where
  | read
  | write
  deriving DecidableEq, Repr

/-- The kinds of header a log event can carry (spec/60_exceptions.md R216). -/
inductive HdrKind where
  | eth
  | arp
  | ipv4
  | icmp
  | tcp
  | udp
  | ipv6
  deriving DecidableEq, Repr

/-- The three kinds of log event (spec/60_exceptions.md R216). -/
inductive LogEvent where
  | regAccess (reg : Word) (dir : Dir) (value : Word)
  | hdr (kind : HdrKind) (addr : Word) (bytes : List Byte)
  | hexDump (addr : Word) (bytes : List Byte)
  deriving DecidableEq, Repr

/-- One event of the block (spec/20_memory.md R60): a single-byte RAM read with the byte it returned, a
single-byte RAM write, a device or port access, a log event, or a transmit request. -/
inductive Event where
  | ramRead (a : Nat) (b : Byte)
  | ramWrite (a : Nat) (b : Byte)
  | bus (x : BusAccess)
  | log (e : LogEvent)
  | postTx (a : Word) (n : BitVec 16)
  deriving DecidableEq, Repr

/-- One action of an agent other than the block, or the block's own turn. A run is driven by a list
of these: the list says in which order the agents of spec/20_memory.md R49 move. -/
inductive Input where
  /-- a host store of the low `width` bytes of `value` at host address `addr` -/
  | store (addr width value : Nat)
  /-- a host load of `width` bytes at host address `addr` -/
  | load (addr width : Nat)
  /-- the host's `poll` (spec/30_encoding.md R88): it waits until BUSY = 0 and reads STATUS -/
  | poll
  /-- the block moves: it makes all that is left of its command -/
  | blockTurn
  /-- the block makes one event of its command, or completes the command when no event is left
  (spec/20_memory.md R60, R62) -/
  | blockEvent
  /-- the device behind the Register Port moves: its later answers are new draws -/
  | deviceTurn
  /-- the platform asserts reset (spec/70_reset_and_hazards.md R230) -/
  | reset
  deriving DecidableEq, Repr

/-- A run of `size` RAM bytes from `base` that the platform admits (spec/20_memory.md R51). -/
structure RamRange where
  base : Nat
  size : Nat
  deriving DecidableEq, Repr

end Sys2Proof.Machine
end

