-- ==== Sys2Proof/Config.lean ====
section
/-! DEFINITION. What the spec leaves open: the draws of the device oracles, of unspecified values, and
the text of a log event. Each is a constant with no body, so nothing in Lean can learn its value.
The open parameters `BLK_BASE` and `MemOK` are plain data of `Machine.State` (fields `blkBase`, `ram`). -/

namespace Sys2Proof

/-- `DevMMIO` (spec/00_scope.md R8, spec/40_register_port.md R105): the device's answer to a 32-bit
read of the cell at an address, given a draw number and every device access so far. -/
opaque Config.devMMIO : Nat → List Machine.BusAccess → Word → Word

/-- `DevPort` (spec/00_scope.md R8, spec/40_register_port.md R105): the same for a port read. -/
opaque Config.devPort : Nat → List Machine.BusAccess → Port → Word

/-- An unspecified 32-bit value: what the host reads from an unwritten configuration register
(spec/10_state.md R46), from a result register while BUSY = 1 (R45), and what a race leaves in a
result register (spec/20_memory.md R63). The arguments are the draw number and which value is drawn. -/
opaque Config.freeWord : Nat → Nat → Word

/-- An unspecified RAM byte: what a race (spec/20_memory.md R63) or a reset during a command
(spec/70_reset_and_hazards.md R231) leaves. The arguments are the draw number and the address. -/
opaque Config.freeByte : Nat → Nat → Byte

/-- The unspecified point between two events at which a reset stops a command
(spec/70_reset_and_hazards.md R231), for a draw number. -/
opaque Config.stopPoint : Nat → Nat

/-- `LogRender` (spec/00_scope.md R8, spec/60_exceptions.md R216): the text of a log event. -/
opaque Config.logRender : Machine.LogEvent → String

end Sys2Proof
end

