-- ==== Sys2Proof/Machine/Bytes.lean ====
section
/-! DEFINITION. Byte order (spec/00_scope.md R10): big-endian for header fields, little-endian for
checksum words and for a checksum embedded at an even offset (spec/20_memory.md R56). -/

namespace Sys2Proof.Machine

/-- `BE(b)`: the first byte is the most significant (R10). -/
def beNat : List Byte → Nat
  | [] => 0
  | b :: rest => b.toNat <<< (8 * rest.length) + beNat rest

/-- `LE(b)`: the first byte is the least significant (R10). -/
def leNat : List Byte → Nat
  | [] => 0
  | b :: rest => b.toNat + leNat rest <<< 8

/-- `bytesBE_n(v)` (R10). -/
def bytesBE : Nat → Nat → List Byte
  | 0, _ => []
  | n + 1, v => BitVec.ofNat 8 (v >>> (8 * n)) :: bytesBE n v

/-- `bytesLE_n(v)` (R10). -/
def bytesLE : Nat → Nat → List Byte
  | 0, _ => []
  | n + 1, v => BitVec.ofNat 8 v :: bytesLE n (v >>> 8)

/-- `bswap16(v)` (R10). -/
def bswap16 (v : BitVec 16) : BitVec 16 := v.extractLsb' 0 8 ++ v.extractLsb' 8 8

end Sys2Proof.Machine
end

