-- ==== Sys2Proof/Machine/Memory.lean ====
section
/-! DEFINITION. RAM (spec/20_memory.md R51): byte addresses and bytes as a list in one canonical form,
and the primitives of spec/00_scope.md R12 over it. -/

namespace Sys2Proof.Machine

/-- RAM as the bytes that differ from `Memory.unlisted`, by rising address. -/
abbrev Memory := List Host.Cell

/-- What a RAM byte that nothing has written reads as: the spec gives RAM no power-on contents.
DESIGN CHOICE, unsafe (log entry 2). -/
def Memory.unlisted : Byte := 0

/-- The canonical form: addresses strictly rise and no listed byte is the unlisted one. -/
abbrev Memory.wf (m : Memory) : Prop :=
  (m.map Prod.fst).Pairwise (· < ·) ∧ ∀ c ∈ m, c.2 ≠ Memory.unlisted

/-- The byte `M[a]`. -/
def Memory.read : Memory → Nat → Byte
  | [], _ => Memory.unlisted
  | (k, v) :: rest, a => if k = a then v else Memory.read rest a

/-- `M[a] <- b`, keeping the canonical form. -/
def Memory.write : Memory → Nat → Byte → Memory
  | [], a, b => if b = Memory.unlisted then [] else [(a, b)]
  | (k, v) :: rest, a, b =>
    if a < k then
      if b = Memory.unlisted then (k, v) :: rest else (a, b) :: (k, v) :: rest
    else if a = k then
      if b = Memory.unlisted then rest else (a, b) :: rest
    else (k, v) :: Memory.write rest a b

/-- `MemRead(a, n)` (R12): the bytes `M[a]` to `M[a+n-1]`. -/
def Memory.bytes (m : Memory) (a n : Nat) : List Byte := (List.range n).map fun i => m.read (a + i)

/-- `ReadBE(a, n)` (R12). -/
def Memory.readBE (m : Memory) (a n : Nat) : Nat := beNat (m.bytes a n)

/-- `ReadLE(a, n)` (R12). -/
def Memory.readLE (m : Memory) (a n : Nat) : Nat := leNat (m.bytes a n)

/-- `MemWrite(a, n, b)` (R12): single-byte writes in ascending address order. -/
def Memory.writeBytes : Memory → Nat → List Byte → Memory
  | m, _, [] => m
  | m, a, b :: rest => Memory.writeBytes (m.write a b) (a + 1) rest

end Sys2Proof.Machine
end

