-- ==== Sys2Proof/Machine/State.lean ====
section
/-! DEFINITION. The state of the NetBlock and of what stands around it, as plain data, the reasons a
step can stop, and the state after reset (spec/10_state.md R20 to R46). -/

namespace Sys2Proof.Machine

/-- Everything the spec gives the machine, and the plain data through which its surroundings act on it. -/
structure State where
  /-- STATUS.ERR: the error of the last command, none for code 0 (R24, R25). -/
  err : Option Err
  /-- STATUS.TX_REQ (R24, R27). -/
  txReq : Bool
  /-- STATUS.OVERRUN (R24, R28). -/
  overrun : Bool
  /-- STATUS.STICKY_ERR (R24, R28). -/
  stickyErr : Bool
  /-- The command in progress (R43): the latched word while STATUS.BUSY = 1, none while BUSY = 0. -/
  cmd : Option Word
  /-- The progress of the command in progress (R43): what its accesses so far have returned, in order
  (0 for an access that returns nothing). Empty while no access has been made. -/
  progress : List Word
  /-- ARG0 (R32). -/
  arg0 : Word
  /-- ARG1 (R33). -/
  arg1 : Word
  /-- RESULT (R34). -/
  result : Word
  /-- CLASS (R35). -/
  classReg : Word
  /-- HDROFF (R36). -/
  hdroff : Word
  /-- TX_ADDR (R37). -/
  txAddr : Word
  /-- TX_LEN[15:0]; TX_LEN[31:16] is 0 (R37). -/
  txLen : BitVec 16
  /-- HOST_IP (R31). -/
  hostIp : Word
  /-- HOST_MAC_HI[15:0]; HOST_MAC_HI[31:16] is 0 (R30). -/
  hostMacHi : BitVec 16
  /-- HOST_MAC_LO (R30). -/
  hostMacLo : Word
  /-- RP_BASE (R38). -/
  rpBase : Word
  /-- RP_MODE[0]; RP_MODE[31:1] is 0 (R39). -/
  rpMode : MapMode
  /-- `ip_set` (R29, R31). -/
  ipSet : Bool
  /-- `mac_hi_set` (R29, R30). -/
  macHiSet : Bool
  /-- `mac_lo_set` (R29, R30). -/
  macLoSet : Bool
  /-- `base_set` (R29, R38, R41). -/
  baseSet : Bool
  /-- `mode_set` (R29, R39, R41). -/
  modeSet : Bool
  /-- The block's events since reset, oldest first: the log stream and the device and port access
  sequence of R43 and the RAM accesses, in one order (spec/20_memory.md R60). -/
  trace : List Event
  /-- The events before the last reset: they have happened, and the device saw them
  (spec/70_reset_and_hazards.md R230, R231). -/
  earlier : List Event
  /-- RAM (spec/20_memory.md R51). -/
  mem : Memory
  /-- `MemOK` (spec/00_scope.md R8, OPEN): the admitted RAM bytes are those of these ranges. No step changes it. -/
  ram : List RamRange
  /-- `BLK_BASE` (spec/00_scope.md R8, OPEN): the host address of the window. No step changes it. -/
  blkBase : Nat
  /-- The model's own: the actions of host and platform still to come (spec/20_memory.md R49). -/
  inputs : List Input
  /-- The model's own: the values the host's loads and polls have returned, oldest first. -/
  hostReads : List Nat
  /-- The model's own: RAM bytes the host touches against its duty while the command in progress uses
  them, by an access already made or, as the block foresees, by one still to come (spec/20_memory.md R63). -/
  raced : List Nat
  /-- The model's own: answers the device will give to its next memory-mapped reads (R8 `DevMMIO`);
  when none is listed, `Config.devMMIO` answers. -/
  mmioAnswers : List Word
  /-- The model's own: the same for port reads (R8 `DevPort`, `Config.devPort`). -/
  portAnswers : List Word
  /-- The model's own: the number of the next draw of an unspecified value. -/
  draws : Nat
  deriving DecidableEq, Repr

/-- Why a step stops with a fault. Only the host agent can be stuck; no command ever is. -/
inductive Fault where
  /-- Raised by a host access to the window of a width other than 32 bits or at an offset that is not
  a multiple of 4, once no command is in progress and no other agent has anything left to do: the spec
  gives the host no step (spec/10_state.md R21), and the block has none left (spec/60_exceptions.md
  R218). Safe. -/
  | hostAccessNotAdmitted (addr width : Nat)
  /-- Raised by a host access outside the window and outside admitted RAM, once no command is in
  progress and no other agent has anything left to do: what stands there is not the NetBlock's and no
  rule describes it (spec/20_memory.md R50, R70). Safe. -/
  | hostAddressUnmapped (addr width : Nat)
  deriving DecidableEq, Repr

/-- Why a step is refused. -/
inductive Refusal where
  /-- Raised by an arm of `exec` whose instruction has no meaning yet; no arm of this model answers it. Safe. -/
  | notModelled (mnemonic : String)
  deriving DecidableEq, Repr

/-- The machine right after reset (R46, spec/70_reset_and_hazards.md R230). R46 leaves HOST_IP,
HOST_MAC_HI[15:0], HOST_MAC_LO, RP_BASE and RP_MODE[0] unspecified: the fields hold 0 here (DESIGN
CHOICE, log entry 1), which no command and no host read can see before the register is written.
The platform parameters `ram` and `blkBase` are OPEN in the spec (DESIGN CHOICE, log entry 3). -/
def State.reset : State where
  err := none
  txReq := false
  overrun := false
  stickyErr := false
  cmd := none
  progress := []
  arg0 := 0
  arg1 := 0
  result := 0
  classReg := 0
  hdroff := 0
  txAddr := 0
  txLen := 0
  hostIp := 0
  hostMacHi := 0
  hostMacLo := 0
  rpBase := 0
  rpMode := .memoryMapped
  ipSet := false
  macHiSet := false
  macLoSet := false
  baseSet := false
  modeSet := false
  trace := []
  earlier := []
  mem := []
  ram := [⟨0, 0x80000000⟩]
  blkBase := 0xF0000000
  inputs := []
  hostReads := []
  raced := []
  mmioAnswers := []
  portAnswers := []
  draws := 0

end Sys2Proof.Machine
end

