-- ==== Sys2Proof/Machine/Flags.lean ====
section
/-! DEFINITION. STATUS and the values its fields are computed from (spec/10_state.md R24 to R29), and
the codes of spec/60_exceptions.md R200. -/

namespace Sys2Proof.Machine

/-- The code of an error, 0 for success (R200). -/
def errCode : Option Err → BitVec 4
  | none => 0
  | some .illegalCmd => 1
  | some .busFault => 2
  | some .notConfigured => 3
  | some .regAddr => 4
  | some .portRange => 5
  | some .frameShort => 6
  | some .malformed => 7

/-- The MODE bit of a mapping mode (R39). -/
def modeBit : MapMode → BitVec 1
  | .memoryMapped => 0
  | .portMapped => 1

/-- The mapping mode that a MODE bit selects (R39). -/
def modeOfBit (b : Bool) : MapMode := if b then .portMapped else .memoryMapped

/-- STATUS.BUSY: a command is in progress (R26, R40). -/
def State.busy (s : State) : Bool := s.cmd.isSome

/-- STATUS.HOST_IP_SET (R29). -/
def State.hostIpSet (s : State) : Bool := s.ipSet

/-- STATUS.HOST_MAC_SET (R29). -/
def State.hostMacSet (s : State) : Bool := s.macHiSet && s.macLoSet

/-- STATUS.RP_SET (R29). -/
def State.rpSet (s : State) : Bool := s.baseSet && s.modeSet

/-- STATUS as the host reads it; bits 31:11 are 0 (R24). -/
def State.status (s : State) : Word :=
  (0#21 ++ BitVec.ofBool s.rpSet ++ BitVec.ofBool s.hostMacSet ++ BitVec.ofBool s.hostIpSet ++
    BitVec.ofBool s.stickyErr ++ BitVec.ofBool s.overrun ++ BitVec.ofBool s.txReq ++
    BitVec.ofBool s.busy ++ errCode s.err : BitVec 32)

/-- R34: CSUM_VERIFY's validity as a RESULT value. -/
def flagWord (b : Bool) : Word := if b then 1 else 0

end Sys2Proof.Machine
end

