-- ==== Sys2Proof/Machine/Ops.lean ====
section
/-! DEFINITION. The shared operations: accepting a command, ending it with or without an error,
admitted RAM, the streams of the block's events, the device's answers, and unspecified values. -/

namespace Sys2Proof.Machine

/-! Acceptance and completion. -/

/-- spec/10_state.md R23: the block accepts the command word `w`. -/
def State.accept (s : State) (w : Word) : State :=
  { s with cmd := some w, progress := [], err := none, txReq := false, raced := [] }

/-- spec/60_exceptions.md R203, R205: the command in progress ends with the error `e` and has no other
effect. This is all an exception is on this block: no trap is taken and nothing is saved (R206, R207). -/
def State.raise (s : State) (e : Err) : State :=
  { s with cmd := none, progress := [], err := some e, stickyErr := true, raced := [] }

/-- spec/60_exceptions.md R204, R205: the command in progress ends without error. -/
def State.complete (s : State) : State := { s with cmd := none, progress := [], err := none, raced := [] }

/-- A state in which the surroundings have had time to change: later draws are new ones. -/
def State.tick (s : State) : State := { s with draws := s.draws + 1 }

/-! Admitted RAM. -/

/-- `MemOK(a)` (spec/20_memory.md R51): a 32-bit address in one of the admitted ranges. -/
def State.memOK (s : State) (a : Nat) : Bool :=
  decide (a < 2 ^ 32) && s.ram.any fun r => decide (r.base ≤ a) && decide (a < r.base + r.size)

/-- `InBounds(a, n)` (spec/20_memory.md R52): no wrap past 2^32, and every byte is admitted. An empty
range is in bounds. -/
def State.inBounds (s : State) (a n : Nat) : Bool :=
  (decide (n = 0) || decide (a + n ≤ 2 ^ 32)) && (List.range n).all fun i => s.memOK (a + i)

/-! The streams of the block's events. -/

/-- The device or port access of an event. -/
def Event.bus? : Event → Option BusAccess
  | .ramRead _ _ => none
  | .ramWrite _ _ => none
  | .bus x => some x
  | .log _ => none
  | .postTx _ _ => none

/-- The log event of an event. -/
def Event.log? : Event → Option LogEvent
  | .ramRead _ _ => none
  | .ramWrite _ _ => none
  | .bus _ => none
  | .log e => some e
  | .postTx _ _ => none

/-- The log stream since reset (spec/10_state.md R43, R46). -/
def State.logStream (s : State) : List LogEvent := s.trace.filterMap Event.log?

/-- All the log sink has been given (spec/20_memory.md R49, spec/60_exceptions.md R217). -/
def State.sinkEvents (s : State) : List LogEvent := (s.earlier ++ s.trace).filterMap Event.log?

/-- The text of the log (spec/60_exceptions.md R216): what the sink makes of it is `LogRender`. -/
def State.logText (s : State) : List String := s.sinkEvents.map Config.logRender

/-- Every device and port access so far (spec/10_state.md R43): what the device's answers can depend on. -/
def State.busHistory (s : State) : List BusAccess := (s.earlier ++ s.trace).filterMap Event.bus?

/-! Answers and unspecified values. -/

/-- The value the device answers to a read of the cell at `a` (spec/40_register_port.md R105). -/
def State.mmioAnswer (s : State) (a : Word) : Word :=
  match s.mmioAnswers with
  | v :: _ => v
  | [] => Config.devMMIO s.draws s.busHistory a

/-- The value the device answers to a read of port `p` (spec/40_register_port.md R105). -/
def State.portAnswer (s : State) (p : Port) : Word :=
  match s.portAnswers with
  | v :: _ => v
  | [] => Config.devPort s.draws s.busHistory p

/-- The byte a block read of `a` returns: the RAM byte as it stands, or, at every read anew, an unspecified
value if the host races on that byte (spec/20_memory.md R51, R63, R68). -/
def State.ramByte (s : State) (a : Nat) : Byte :=
  if a ∈ s.raced then Config.freeByte s.draws a else s.mem.read a

/-- The `k`-th unspecified 32-bit value of the current draw. Every host action advances the draw
number, so each read draws anew (spec/10_state.md R45, R46). -/
def State.freeWord (s : State) (k : Nat) : Word := Config.freeWord s.draws k

/-- The memory in which each of the bytes `as` holds an unspecified value. -/
def freeBytes (draw : Nat) (m : Memory) (as : List Nat) : Memory :=
  as.foldl (fun m a => m.write a (Config.freeByte draw a)) m

end Sys2Proof.Machine
end

