-- ==== Sys2Proof/Machine/Operands.lean ====
section
/-! DEFINITION. Operands (spec/30_encoding.md R82) and the checks every command makes before its first
effect, in the order of spec/60_exceptions.md R202. -/

namespace Sys2Proof.Machine

/-- `addr` = ARG0, also the frame address f and the header base h (R82). -/
def State.addr (s : State) : Nat := s.arg0.toNat

/-- `len` = ARG1[15:0], also the frame length n (R82). -/
def State.len (s : State) : Nat := (s.arg1.extractLsb' 0 16).toNat

/-- ARG1[31:16], which must be 0 for a command whose ARG1 is a length (R82). -/
def State.lenHigh (s : State) : BitVec 16 := s.arg1.extractLsb' 16 16

/-- `reg` = ARG0 (R82). -/
def State.reg (s : State) : Word := s.arg0

/-- `value` = ARG1 (R82). -/
def State.value (s : State) : Word := s.arg1

/-- `mask` = ARG1 (R82). -/
def State.mask (s : State) : Word := s.arg1

/-- The host MAC as the 48-bit value {HOST_MAC_HI[15:0], HOST_MAC_LO} (spec/10_state.md R30). -/
def State.hostMac (s : State) : BitVec 48 := s.hostMacHi ++ s.hostMacLo

/-- `bytesBE_6(HOST_MAC)` (spec/42_header_codec.md R154). -/
def State.hostMacBytes (s : State) : List Byte := bytesBE 6 s.hostMac.toNat

/-- `bytesBE_4(HOST_IP)` (spec/42_header_codec.md R154). -/
def State.hostIpBytes (s : State) : List Byte := bytesBE 4 s.hostIp.toNat

/-- The checks of the checksum family (spec/41_checksum.md R125): ARG1[31:16] = 0, then the range. -/
def State.rangeCheck (s : State) : Except Err Unit :=
  if s.lenHigh ≠ 0 then .error .illegalCmd
  else if s.inBounds s.addr s.len then .ok ()
  else .error .busFault

/-- `FrameCheck(f, n)` (spec/43_dispatch.md R160) with the `ConfigCheck` of R161: which of
HOST_IP_SET and HOST_MAC_SET the command requires. -/
def State.frameCheck (s : State) (needIp needMac : Bool) : Except Err Unit :=
  if s.lenHigh ≠ 0 then .error .illegalCmd
  else if (needIp && !s.hostIpSet) || (needMac && !s.hostMacSet) then .error .notConfigured
  else if s.inBounds s.addr s.len then .ok ()
  else .error .busFault

/-- The configuration precondition (spec/40_register_port.md R101), then `RegAddrCheck` (R102). -/
def State.regCheck (s : State) : Except Err Unit :=
  if !s.rpSet then .error .notConfigured
  else
    match s.rpMode with
    | .memoryMapped =>
      if (s.rpBase.toNat + s.reg.toNat) % 4 ≠ 0 ∨ s.rpBase.toNat + s.reg.toNat + 4 > 2 ^ 32 then .error .regAddr
      else .ok ()
    | .portMapped => if s.rpBase.toNat > 0xFFF8 then .error .portRange else .ok ()

/-- The first byte of the chunk `chunk` of a field, for the header base `h` (spec/42_header_codec.md
R150, R151): h + o + 4 * CHUNK, and h + o for a nibble field, without wrap. -/
def chunkAddr (l : FieldLayout) (h : Nat) (chunk : BitVec 4) : Nat :=
  match l.kind with
  | .bytes => h + l.offset + 4 * chunk.toNat
  | .highNibble => h + l.offset
  | .lowNibble => h + l.offset

/-- The width in bytes of the chunk `chunk` of a field (R150): min(4, w - 4 * CHUNK), one byte for a nibble field. -/
def chunkWidth (l : FieldLayout) (chunk : BitVec 4) : Nat :=
  match l.kind with
  | .bytes => min 4 (l.width - 4 * chunk.toNat)
  | .highNibble => 1
  | .lowNibble => 1

/-- The checks of the codec family (R152): a valid selector, which every decoded word has, then the
range of the chunk. The answer is the field's layout. -/
def State.fieldCheck (s : State) (hdr : BitVec 4) (field : BitVec 8) (chunk : BitVec 4) : Except Err FieldLayout :=
  match layout hdr field with
  | none => .error .illegalCmd
  | some l =>
    if !validSelector hdr field chunk then .error .illegalCmd
    else if s.inBounds (chunkAddr l s.addr chunk) (chunkWidth l chunk) then .ok l
    else .error .busFault

end Sys2Proof.Machine
end

