-- ==== Sys2Proof/Machine/Classes.lean ====
section
/-! DEFINITION. What a frame is classified as, and the CLASS and HDROFF words that say so
(spec/10_state.md R35, R36, spec/43_dispatch.md R162, R169). -/

namespace Sys2Proof.Machine

/-- The frame classes (spec/10_state.md R35). -/
inductive FrameClass where
  | unknown
  | arp
  | ipv4Icmp
  | ipv4Tcp
  | ipv4Udp
  | ipv4Other
  | ipv6Udp
  | ipv6Other
  deriving DecidableEq, Repr

/-- The geometry of an IPv4/ICMP frame (spec/43_dispatch.md R173): the header-length nibble, the offset of the
ICMP header in the frame, and the length of the ICMP segment. -/
structure IcmpGeometry where
  ihl : Nat
  l4 : Nat
  icmpLen : Nat
  deriving DecidableEq, Repr

/-- The reply a frame asks for (spec/43_dispatch.md R178). An echo reply carries the geometry that
`Classify` has checked. -/
inductive Reply where
  | none
  | arp
  | icmpEcho (g : IcmpGeometry)
  deriving DecidableEq, Repr

/-- What `Classify` returns (spec/43_dispatch.md R162): class, action, L3OFF and L4OFF. -/
structure FrameInfo where
  cls : FrameClass
  reply : Reply
  l3 : Nat
  l4 : Nat
  deriving DecidableEq, Repr

/-- The class codes of CLASS[3:0] (spec/10_state.md R35). -/
def classCode : FrameClass → BitVec 4
  | .unknown => 0
  | .arp => 1
  | .ipv4Icmp => 2
  | .ipv4Tcp => 3
  | .ipv4Udp => 4
  | .ipv4Other => 5
  | .ipv6Udp => 6
  | .ipv6Other => 7

/-- The action codes of CLASS[5:4] (spec/10_state.md R35). -/
def actionCode : Reply → BitVec 2
  | .none => 0
  | .arp => 1
  | .icmpEcho _ => 2

/-- CLASS as spec/43_dispatch.md R169 writes it. -/
def classWord (info : FrameInfo) : Word := (0#26 ++ actionCode info.reply ++ classCode info.cls : BitVec 32)

/-- HDROFF as spec/43_dispatch.md R169 writes it. -/
def hdroffWord (info : FrameInfo) : Word := (BitVec.ofNat 16 info.l4 ++ BitVec.ofNat 16 info.l3 : BitVec 32)

end Sys2Proof.Machine
end

