-- ==== Sys2Proof/Machine/Program.lean ====
section
/-! DEFINITION. A command as the sequence of its accesses (spec/00_scope.md R12 to R15, spec/20_memory.md
R60): what the pseudocode of a command rule says, one access at a time, each depending on what the
earlier ones returned. A command makes its accesses in this order and no others, whether it runs
event by event, to its end, or up to a reset. -/

namespace Sys2Proof.Machine

/-- One access of the block: a single-byte RAM read or write (spec/00_scope.md R12, spec/20_memory.md R54), one
device or port access (R13), a log event (R14), or the recording of a transmit request
(spec/43_dispatch.md R176). -/
inductive Access where
  | read (a : Nat)
  | write (a : Nat) (b : Byte)
  | devRead32 (a : Word)
  | devWrite32 (a v : Word)
  | portRead32 (p : Port)
  | portWrite32 (p : Port) (v : Word)
  | log (e : LogEvent)
  | postTx (a : Word) (n : BitVec 16)
  deriving DecidableEq, Repr

/-- What a command that ends without error leaves in the result registers (spec/10_state.md R48): nothing, a
value for RESULT, CLASS and HDROFF (with a transmit request if it has posted one), or a transmit
request alone. -/
inductive Result where
  | nothing
  | value (v : Word)
  | frame (info : FrameInfo) (posted : Bool)
  | reply
  deriving DecidableEq, Repr

/-- The rest of a command: it completes, it raises an error (spec/00_scope.md R14), or it makes an access
and goes on with what the access returns (0 for an access that returns nothing). -/
inductive Prog where
  | done (r : Result)
  | raise (e : Err)
  | act (x : Access) (k : Word → Prog)

/-! The statements of the pseudocode, each followed by the rest of the command. -/

/-- Checks that come before every access. -/
def Prog.check {α : Type} (c : Except Err α) (k : α → Prog) : Prog :=
  match c with
  | .error e => .raise e
  | .ok a => k a

/-- `MemRead(a, n)` (spec/00_scope.md R12): single-byte reads in ascending address order. -/
def Prog.memRead (a : Nat) : Nat → (List Byte → Prog) → Prog
  | 0, k => k []
  | n + 1, k => .act (.read a) fun w => Prog.memRead (a + 1) n fun bs => k (w.setWidth 8 :: bs)

/-- `ReadBE(a, n)` (spec/00_scope.md R12). -/
def Prog.readBE (a n : Nat) (k : Nat → Prog) : Prog := .memRead a n fun bs => k (beNat bs)

/-- `MemWrite(a, n, bs)` (spec/00_scope.md R12): single-byte writes in ascending address order. -/
def Prog.memWrite : Nat → List Byte → Prog → Prog
  | _, [], p => p
  | a, b :: bs, p => .act (.write a b) fun _ => Prog.memWrite (a + 1) bs p

/-- `WriteBE(a, n, v)` (spec/00_scope.md R12). -/
def Prog.writeBE (a n v : Nat) (p : Prog) : Prog := .memWrite a (bytesBE n v) p

/-- `Log(ev)` (spec/00_scope.md R14). -/
def Prog.log (e : LogEvent) (p : Prog) : Prog := .act (.log e) fun _ => p

/-- `PostTx(a, n)` (spec/43_dispatch.md R176). -/
def Prog.postTx (a : Word) (n : BitVec 16) (p : Prog) : Prog := .act (.postTx a n) fun _ => p

/-! Running a command. -/

/-- What an access returns. -/
def State.answer (s : State) : Access → Word
  | .read a => (s.ramByte a).setWidth 32
  | .write _ _ => 0
  | .devRead32 a => s.mmioAnswer a
  | .devWrite32 _ _ => 0
  | .portRead32 p => s.portAnswer p
  | .portWrite32 _ _ => 0
  | .log _ => 0
  | .postTx _ _ => 0

/-- The event of an access that returned `v` (spec/20_memory.md R60). -/
def Access.event (x : Access) (v : Word) : Event :=
  match x with
  | .read a => .ramRead a (v.setWidth 8)
  | .write a b => .ramWrite a b
  | .devRead32 a => .bus (.mmioRead a v)
  | .devWrite32 a w => .bus (.mmioWrite a w)
  | .portRead32 p => .bus (.portRead p v)
  | .portWrite32 p w => .bus (.portWrite p w)
  | .log e => .log e
  | .postTx a n => .postTx a n

/-- What an access changes beside the event sequence. A read changes nothing (spec/20_memory.md R51); one of a
raced byte has used up a draw. -/
def State.effect (s : State) : Access → State
  | .read a => if a ∈ s.raced then { s with draws := s.draws + 1 } else s
  | .write a b => { s with mem := s.mem.write a b }
  | .devRead32 _ => { s with mmioAnswers := s.mmioAnswers.tail }
  | .devWrite32 _ _ => s
  | .portRead32 _ => { s with portAnswers := s.portAnswers.tail }
  | .portWrite32 _ _ => s
  | .log _ => s
  | .postTx a n => { s with txAddr := a, txLen := n, txReq := true }

/-- The block makes one access, and so one event. -/
def State.perform (s : State) (x : Access) : State :=
  { s.effect x with trace := s.trace ++ [x.event (s.answer x)] }

/-- A command run to its end: its result or its error, and the state after its last event. -/
def Prog.runAll : Prog → State → Except Err Result × State
  | .done r, s => (.ok r, s)
  | .raise e, s => (.error e, s)
  | .act x k, s => (k (s.answer x)).runAll (s.perform x)

/-- A command run for its next `n` events, or to its end if fewer are left. -/
def Prog.runFor : Nat → Prog → State → State
  | 0, _, s => s
  | _ + 1, .done _, s => s
  | _ + 1, .raise _, s => s
  | n + 1, .act x k, s => Prog.runFor n (k (s.answer x)) (s.perform x)

/-- What is left of a command whose accesses so far have returned the given values. -/
def Prog.resume : List Word → Prog → Prog
  | [], p => p
  | _ :: _, .done r => .done r
  | _ :: _, .raise e => .raise e
  | w :: ws, .act _ k => Prog.resume ws (k w)

/-! Completion. -/

/-- CLASS and HDROFF get the classification (spec/43_dispatch.md R169, R178). -/
def State.setClass (s : State) (info : FrameInfo) : State :=
  { s with classReg := classWord info, hdroff := hdroffWord info }

/-- The result registers get the command's result. -/
def State.deliver (s : State) : Result → State
  | .nothing => s
  | .value v => { s with result := v }
  | .frame info _ => s.setClass info
  | .reply => s

/-- RESULT holds an unspecified value. -/
def State.drawResult (s : State) : State := { s with result := s.freeWord 1 }

/-- CLASS and HDROFF hold unspecified values; CLASS[31:6] is 0 (spec/10_state.md R35). -/
def State.drawClass (s : State) : State :=
  { s with classReg := s.freeWord 2 &&& 0x3F, hdroff := s.freeWord 3 }

/-- TX_ADDR and TX_LEN hold unspecified values; TX_LEN[31:16] is 0 (spec/10_state.md R37). -/
def State.drawTx (s : State) : State :=
  { s with txAddr := s.freeWord 4, txLen := (s.freeWord 5).extractLsb' 0 16 }

/-- After a race the result registers the command writes are unspecified (spec/20_memory.md R63). -/
def State.drawResults (s : State) : Result → State
  | .nothing => s
  | .value _ => s.drawResult
  | .frame _ posted => if posted then s.drawClass.drawTx else s.drawClass
  | .reply => s.drawTx

/-- After a race every byte involved holds an unspecified value, drawn anew (spec/20_memory.md R63). -/
def State.drawRaced (s : State) : State :=
  { s with mem := freeBytes s.draws s.mem s.raced, draws := s.draws + s.raced.length }

/-- The end of a command (spec/60_exceptions.md R203 to R205), with what a race leaves (spec/20_memory.md R63). -/
def State.conclude (s : State) : Except Err Result → State
  | .error e => s.drawRaced.raise e
  | .ok r => (if s.raced = [] then s.deliver r else s.drawResults r).drawRaced.complete

/-- The command whose pseudocode is `p` runs to its end from where it stands. -/
def State.execute (s : State) (p : Prog) : Host.Outcome State Fault Refusal :=
  .next (((p.resume s.progress).runAll s).2.conclude ((p.resume s.progress).runAll s).1)

end Sys2Proof.Machine
end

