-- ==== Sys2Proof/Machine/Checksum.lean ====
section
/-! DEFINITION. The Internet checksum (spec/41_checksum.md R120 to R123, used by every command that
computes one, R124) and the commands CSUM_COMPUTE and CSUM_VERIFY. -/

namespace Sys2Proof.Machine

/-- `WordSum(b)` (R120): little-endian 16-bit words from the range start; a trailing byte counts as
the low byte of a last word. The sum is exact. -/
def wordSum : List Byte → Nat
  | [] => 0
  | [b] => b.toNat
  | lo :: hi :: rest => (lo.toNat ||| hi.toNat <<< 8) + wordSum rest

/-- One pass of the fold loop's body (R121). -/
def carryStep (sum : Nat) : Nat := (sum &&& 0xFFFF) + (sum >>> 16)

/-- The fold loop (R121) with a bound on its passes. -/
def foldLoop : Nat → Nat → Nat
  | 0, sum => sum
  | fuel + 1, sum => if sum >>> 16 = 0 then sum else foldLoop fuel (carryStep sum)

/-- `Fold(S)` (R121). A pass makes the sum smaller, so `S` passes are enough. -/
def fold (sum : Nat) : Nat := foldLoop sum sum

/-- `Checksum(b)` (R123). -/
def checksum (b : List Byte) : Nat := 0xFFFF - fold (wordSum b)

/-- `Valid(b)` (R123). -/
def valid (b : List Byte) : Bool := fold (wordSum b) == 0xFFFF

/-- CSUM_COMPUTE (R125). -/
def State.csumCompute (s : State) : Prog :=
  .check s.rangeCheck fun _ =>
  .memRead s.addr s.len fun b =>
  .done (.value (BitVec.ofNat 32 (checksum b)))

/-- CSUM_VERIFY (R126): a range that is not valid is not an error. -/
def State.csumVerify (s : State) : Prog :=
  .check s.rangeCheck fun _ =>
  .memRead s.addr s.len fun b =>
  .done (.value (flagWord (valid b)))

/-- CSUM_COMPUTE. -/
def execCsumCompute (s : State) : Host.Outcome State Fault Refusal := s.execute s.csumCompute

/-- CSUM_VERIFY. -/
def execCsumVerify (s : State) : Host.Outcome State Fault Refusal := s.execute s.csumVerify

end Sys2Proof.Machine
end

