-- ==== Sys2Proof/Machine/Frames.lean ====
section
/-! DEFINITION. Frame classification and in-place reply synthesis (spec/43_dispatch.md R160 to R184):
CLASSIFY, ARP_REPLY, ICMP_ECHO_REPLY and DISPATCH. Header offsets are those of
spec/42_header_codec.md R142 to R148 and R156, constants those of R155. -/

namespace Sys2Proof.Machine

/-! Classification. Each function reads what its rule names, in that order, and goes on with `k`. -/

/-- The IPv4 header-length nibble of the byte that holds it (R164). -/
def ihlNibble (byte : Nat) : Nat := byte % 16

/-- `IcmpLayout(f, n)` (R173). On an error the command goes on with `onErr`. -/
def Prog.icmpLayout (f n : Nat) (onErr : Err → Prog) (k : IcmpGeometry → Prog) : Prog :=
  if n < 34 then onErr .frameShort
  else
    .readBE (f + 14) 1 fun b =>
    if ihlNibble b < 5 then onErr .malformed
    else if 14 + 4 * ihlNibble b + 8 > n then onErr .frameShort
    else
      .readBE (f + 16) 2 fun tl =>
      if tl < 4 * ihlNibble b + 8 then onErr .malformed
      else if 14 + tl > n then onErr .frameShort
      else k ⟨ihlNibble b, 14 + 4 * ihlNibble b, tl - 4 * ihlNibble b⟩

/-- `ClassifyArp` (R163). HTYPE, PTYPE, HLEN and PLEN are not checked. -/
def Prog.classifyArp (hostIp : List Byte) (f n : Nat) (k : FrameInfo → Prog) : Prog :=
  if n < 42 then .raise .frameShort
  else
    .readBE (f + 20) 2 fun oper =>
    .memRead (f + 38) 4 fun tpa =>
    if oper = 0x0001 ∧ tpa = hostIp then k ⟨.arp, .arp, 14, 0⟩ else k ⟨.arp, .none, 14, 0⟩

/-- `ClassifyIcmp` (R165). The ICMP code is not checked. -/
def Prog.classifyIcmp (hostIp : List Byte) (f n l4 : Nat) (k : FrameInfo → Prog) : Prog :=
  if l4 + 8 > n then .raise .frameShort
  else
    .readBE (f + l4) 1 fun type =>
    .memRead (f + 30) 4 fun dst =>
    if type = 0x08 ∧ dst = hostIp then
      .icmpLayout f n .raise fun g => k ⟨.ipv4Icmp, .icmpEcho g, 14, l4⟩
    else k ⟨.ipv4Icmp, .none, 14, l4⟩

/-- `ClassifyIpv4` (R164, R166). The VERSION nibble is not checked. -/
def Prog.classifyIpv4 (hostIp : List Byte) (f n : Nat) (k : FrameInfo → Prog) : Prog :=
  if n < 34 then .raise .frameShort
  else
    .readBE (f + 14) 1 fun b =>
    if ihlNibble b < 5 then .raise .malformed
    else if 14 + 4 * ihlNibble b > n then .raise .frameShort
    else
      .readBE (f + 23) 1 fun proto =>
      if proto = 0x01 then .classifyIcmp hostIp f n (14 + 4 * ihlNibble b) k
      else if proto = 0x06 then
        if 14 + 4 * ihlNibble b + 20 > n then .raise .frameShort else k ⟨.ipv4Tcp, .none, 14, 14 + 4 * ihlNibble b⟩
      else if proto = 0x11 then
        if 14 + 4 * ihlNibble b + 8 > n then .raise .frameShort else k ⟨.ipv4Udp, .none, 14, 14 + 4 * ihlNibble b⟩
      else k ⟨.ipv4Other, .none, 14, 14 + 4 * ihlNibble b⟩

/-- `ClassifyIpv6` (R167). -/
def Prog.classifyIpv6 (f n : Nat) (k : FrameInfo → Prog) : Prog :=
  if n < 54 then .raise .frameShort
  else
    .readBE (f + 20) 1 fun nh =>
    if nh = 0x11 then
      if n < 62 then .raise .frameShort else k ⟨.ipv6Udp, .none, 14, 54⟩
    else k ⟨.ipv6Other, .none, 14, 0⟩

/-- `Classify(f, n)` (R162), with R168 for any other ethertype. It only reads RAM. -/
def Prog.classify (hostIp : List Byte) (f n : Nat) (k : FrameInfo → Prog) : Prog :=
  if n < 14 then .raise .frameShort
  else
    .readBE (f + 12) 2 fun et =>
    if et = 0x0806 then .classifyArp hostIp f n k
    else if et = 0x0800 then .classifyIpv4 hostIp f n k
    else if et = 0x86DD then .classifyIpv6 f n k
    else k ⟨.unknown, .none, 0, 0⟩

/-! Log events. -/

/-- `Hdr(kind, a, w)` with its bytes at emission time (R177). -/
def Prog.hdr (kind : HdrKind) (a w : Nat) (p : Prog) : Prog :=
  .memRead a w fun bs => .log (.hdr kind (BitVec.ofNat 32 a) bs) p

/-- `HexDump(a, n)` with its bytes at emission time (R177). -/
def Prog.hexDump (a n : Nat) (p : Prog) : Prog :=
  .memRead a n fun bs => .log (.hexDump (BitVec.ofNat 32 a) bs) p

/-- `EmitLogs` (R177). For an IPv4 class 4 * ihl is L4OFF - 14 (R164). -/
def Prog.emitLogs (info : FrameInfo) (f n : Nat) (p : Prog) : Prog :=
  match info.cls with
  | .unknown => .hexDump f n p
  | .arp => .hdr .eth f 14 <| .hdr .arp (f + 14) 28 p
  | .ipv4Icmp =>
    .hdr .eth f 14 <| .hdr .ipv4 (f + 14) (info.l4 - 14) <| .hdr .icmp (f + info.l4) 8 p
  | .ipv4Tcp =>
    .hdr .eth f 14 <| .hdr .ipv4 (f + 14) (info.l4 - 14) <| .hdr .tcp (f + info.l4) 20 p
  | .ipv4Udp =>
    .hdr .eth f 14 <| .hdr .ipv4 (f + 14) (info.l4 - 14) <| .hdr .udp (f + info.l4) 8 p
  | .ipv4Other => .hdr .eth f 14 <| .hdr .ipv4 (f + 14) (info.l4 - 14) p
  | .ipv6Udp => .hdr .eth f 14 <| .hdr .ipv6 (f + 14) 40 <| .hdr .udp (f + 54) 8 p
  | .ipv6Other => .hdr .eth f 14 <| .hdr .ipv6 (f + 14) 40 p

/-! Reply synthesis. -/

/-- `Swap(a, b, w)` (R170): read both ranges, then write both. -/
def Prog.swap (a b w : Nat) (p : Prog) : Prog :=
  .memRead a w fun ta =>
  .memRead b w fun tb =>
  .memWrite a tb <|
  .memWrite b ta p

/-- `ArpReplyBody(f)` (R171): Ethernet swap, OPER, SHA/THA swap, SPA/TPA swap, SHA, SPA, PostTx. -/
def State.arpReplyBody (s : State) (r : Result) : Prog :=
  .swap s.addr (s.addr + 6) 6 <|
  .writeBE (s.addr + 20) 2 0x0002 <|
  .swap (s.addr + 22) (s.addr + 32) 6 <|
  .swap (s.addr + 28) (s.addr + 38) 4 <|
  .memWrite (s.addr + 22) s.hostMacBytes <|
  .memWrite (s.addr + 28) s.hostIpBytes <|
  .postTx s.arg0 42 <|
  .done r

/-- Zero the 2-byte checksum field at `field`, compute the checksum of `n` bytes from `a`, and store it
as its little-endian bytes (R174; spec/41_checksum.md R127, even offset). -/
def Prog.rechecksum (field a n : Nat) (p : Prog) : Prog :=
  .writeBE field 2 0x0000 <|
  .memRead a n fun b =>
  .memWrite field (bytesLE 2 (checksum b)) p

/-- `IcmpEchoBody` (R174): Ethernet swap, IPv4 address swap, ICMP TYPE, the ICMP checksum over the ICMP
segment, the IPv4 checksum over the IPv4 header, PostTx of the full frame length. -/
def State.icmpEchoBody (s : State) (r : Result) (g : IcmpGeometry) : Prog :=
  .swap s.addr (s.addr + 6) 6 <|
  .swap (s.addr + 26) (s.addr + 30) 4 <|
  .writeBE (s.addr + g.l4) 1 0x00 <|
  .rechecksum (s.addr + g.l4 + 2) (s.addr + g.l4) g.icmpLen <|
  .rechecksum (s.addr + 24) (s.addr + 14) (4 * g.ihl) <|
  .postTx s.arg0 (s.arg1.extractLsb' 0 16) <|
  .done r

/-! The commands. -/

/-- CLASSIFY (R169). -/
def State.classifyCommand (s : State) : Prog :=
  .check (s.frameCheck true false) fun _ =>
  .classify s.hostIpBytes s.addr s.len fun info =>
  .done (.frame info false)

/-- ARP_REPLY (R172): ethertype, OPER and TPA are not checked. -/
def State.arpReplyCommand (s : State) : Prog :=
  .check (s.frameCheck true true) fun _ =>
  if s.len < 42 then .raise .frameShort
  else s.arpReplyBody .reply

/-- ICMP_ECHO_REPLY (R175): ethertype, PROTOCOL, TYPE and destination are not checked; it reads no host
identity. -/
def State.icmpEchoReplyCommand (s : State) : Prog :=
  .check (s.frameCheck false false) fun _ =>
  .icmpLayout s.addr s.len .raise fun g =>
  s.icmpEchoBody .reply g

/-- The reply case of DISPATCH (R178). Its IcmpLayout "cannot raise": should a race make it fail all the
same, the geometry that Classify has checked stands (DESIGN CHOICE, log entry 17). -/
def State.dispatchReply (s : State) (info : FrameInfo) : Prog :=
  match info.reply with
  | .none => .done (.frame info false)
  | .arp => s.arpReplyBody (.frame info true)
  | .icmpEcho g =>
    .icmpLayout s.addr s.len (fun _ => s.icmpEchoBody (.frame info true) g) fun g' =>
    s.icmpEchoBody (.frame info true) g'

/-- DISPATCH (R178), its events in the order of R179: classification reads, log events, the reply's reads
and writes, PostTx. -/
def State.dispatchCommand (s : State) : Prog :=
  .check (s.frameCheck true true) fun _ =>
  .classify s.hostIpBytes s.addr s.len fun info =>
  .emitLogs info s.addr s.len <|
  s.dispatchReply info

/-- CLASSIFY. -/
def execClassify (s : State) : Host.Outcome State Fault Refusal := s.execute s.classifyCommand

/-- ARP_REPLY. -/
def execArpReply (s : State) : Host.Outcome State Fault Refusal := s.execute s.arpReplyCommand

/-- ICMP_ECHO_REPLY. -/
def execIcmpEchoReply (s : State) : Host.Outcome State Fault Refusal := s.execute s.icmpEchoReplyCommand

/-- DISPATCH. -/
def execDispatch (s : State) : Host.Outcome State Fault Refusal := s.execute s.dispatchCommand

end Sys2Proof.Machine
end

