-- ==== Sys2Proof/Machine/HeaderCodec.lean ====
section
/-! DEFINITION. The header codec (spec/42_header_codec.md R140 to R153): FIELD_GET and FIELD_SET. -/

namespace Sys2Proof.Machine

/-- The value of a chunk made of the bytes read (R152): their big-endian value, or one nibble of the one
byte (R151). -/
def fieldValue (kind : FieldKind) (bs : List Byte) : Nat :=
  match kind with
  | .bytes => beNat bs
  | .highNibble => beNat bs / 16
  | .lowNibble => beNat bs % 16

/-- The byte that FIELD_SET of a nibble writes (R153): the nibble replaced, the other kept as read (R151). -/
def nibbleByte (high : Bool) (byte value : Nat) : Nat :=
  if high then 16 * (value % 16) + byte % 16 else 16 * (byte / 16) + value % 16

/-- FIELD_GET (R152). -/
def State.fieldGet (s : State) (hdr : BitVec 4) (field : BitVec 8) (chunk : BitVec 4) : Prog :=
  .check (s.fieldCheck hdr field chunk) fun l =>
  .memRead (chunkAddr l s.addr chunk) (chunkWidth l chunk) fun bs =>
  .done (.value (BitVec.ofNat 32 (fieldValue l.kind bs)))

/-- FIELD_SET (R153). Only a nibble field is read first. It updates no checksum (spec/41_checksum.md R131). -/
def State.fieldSet (s : State) (hdr : BitVec 4) (field : BitVec 8) (chunk : BitVec 4) : Prog :=
  .check (s.fieldCheck hdr field chunk) fun l =>
  match l.kind with
  | .bytes =>
    .writeBE (chunkAddr l s.addr chunk) (chunkWidth l chunk) (s.value.toNat % 2 ^ (8 * chunkWidth l chunk)) <|
    .done .nothing
  | .highNibble =>
    .readBE (chunkAddr l s.addr chunk) 1 fun byte =>
    .writeBE (chunkAddr l s.addr chunk) 1 (nibbleByte true byte s.value.toNat) <|
    .done .nothing
  | .lowNibble =>
    .readBE (chunkAddr l s.addr chunk) 1 fun byte =>
    .writeBE (chunkAddr l s.addr chunk) 1 (nibbleByte false byte s.value.toNat) <|
    .done .nothing

/-- FIELD_GET. -/
def execFieldGet (hdr : BitVec 4) (field : BitVec 8) (chunk : BitVec 4) (s : State) :
    Host.Outcome State Fault Refusal :=
  s.execute (s.fieldGet hdr field chunk)

/-- FIELD_SET. -/
def execFieldSet (hdr : BitVec 4) (field : BitVec 8) (chunk : BitVec 4) (s : State) :
    Host.Outcome State Fault Refusal :=
  s.execute (s.fieldSet hdr field chunk)

end Sys2Proof.Machine
end

