-- ==== Sys2Proof/Machine/RegisterPort.lean ====
section
/-! DEFINITION. The Register Port (spec/40_register_port.md R100 to R111): REG_READ, REG_WRITE, REG_FLAG. -/

namespace Sys2Proof.Machine

/-- The cell RP_BASE + reg of mode 0; `regCheck` has made sure that it does not wrap (R102). -/
def State.cell (s : State) : Word := s.rpBase + s.reg

/-- The address port of mode 1: RP_BASE[15:0] (R103). -/
def State.addressPort (s : State) : Port := s.rpBase.extractLsb' 0 16

/-- The data port of mode 1, "4 bytes later" (R103). -/
def State.dataPort (s : State) : Port := s.addressPort + 4

/-- `RegRead(reg)` (R103): the bus accesses, then the log event (R104), and what follows with the value
that the device answered (R105). -/
def State.regRead (s : State) (k : Word → Prog) : Prog :=
  match s.rpMode with
  | .memoryMapped =>
    .act (.devRead32 s.cell) fun v =>
    .log (.regAccess s.reg .read v) (k v)
  | .portMapped =>
    .act (.portWrite32 s.addressPort s.reg) fun _ =>
    .act (.portRead32 s.dataPort) fun v =>
    .log (.regAccess s.reg .read v) (k v)

/-- `RegWrite(reg, v)` (R103): the bus accesses, then the log event (R104), and what follows. -/
def State.regWrite (s : State) (v : Word) (p : Prog) : Prog :=
  match s.rpMode with
  | .memoryMapped =>
    .act (.devWrite32 s.cell v) fun _ =>
    .log (.regAccess s.reg .write v) p
  | .portMapped =>
    .act (.portWrite32 s.addressPort s.reg) fun _ =>
    .act (.portWrite32 s.dataPort v) fun _ =>
    .log (.regAccess s.reg .write v) p

/-- R109: `v | mask` when enable is 1, `v & ~mask` when it is 0. -/
def flagValue (enable : Bool) (v mask : Word) : Word := if enable then v ||| mask else v &&& ~~~mask

/-- REG_READ (R107). -/
def State.regReadCommand (s : State) : Prog :=
  .check s.regCheck fun _ =>
  s.regRead fun v =>
  .done (.value v)

/-- REG_WRITE (R108). -/
def State.regWriteCommand (s : State) : Prog :=
  .check s.regCheck fun _ =>
  s.regWrite s.value <|
  .done .nothing

/-- REG_FLAG (R109): two register accesses, the written value a function of the value read (R110). -/
def State.regFlagCommand (s : State) (enable : Bool) : Prog :=
  .check s.regCheck fun _ =>
  s.regRead fun v =>
  s.regWrite (flagValue enable v s.mask) <|
  .done (.value (flagValue enable v s.mask))

/-- REG_READ. -/
def execRegRead (s : State) : Host.Outcome State Fault Refusal := s.execute s.regReadCommand

/-- REG_WRITE. -/
def execRegWrite (s : State) : Host.Outcome State Fault Refusal := s.execute s.regWriteCommand

/-- REG_FLAG. -/
def execRegFlag (enable : Bool) (s : State) : Host.Outcome State Fault Refusal :=
  s.execute (s.regFlagCommand enable)

end Sys2Proof.Machine
end

