-- ==== Sys2Proof/Machine/Dispatch.lean ====
section
/-! DEFINITION. What each command does: one arm per constructor of `Instr`, one call of its meaning. -/

namespace Sys2Proof.Machine

def exec (i : Instr) (s : State) : Host.Outcome State Fault Refusal :=
  match i with
  | .csumCompute => Sys2Proof.Machine.execCsumCompute s
  | .csumVerify => Sys2Proof.Machine.execCsumVerify s
  | .regRead => Sys2Proof.Machine.execRegRead s
  | .regWrite => Sys2Proof.Machine.execRegWrite s
  | .regFlag enable => Sys2Proof.Machine.execRegFlag enable s
  | .fieldGet hdr field chunk => Sys2Proof.Machine.execFieldGet hdr field chunk s
  | .fieldSet hdr field chunk => Sys2Proof.Machine.execFieldSet hdr field chunk s
  | .classify => Sys2Proof.Machine.execClassify s
  | .arpReply => Sys2Proof.Machine.execArpReply s
  | .icmpEchoReply => Sys2Proof.Machine.execIcmpEchoReply s
  | .dispatch => Sys2Proof.Machine.execDispatch s

end Sys2Proof.Machine
end

