-- ==== Sys2Proof/WellFormed.lean ====
section
/-! DEFINITION. Which commands a word can encode: every command but a FIELD command whose selector
spec/42_header_codec.md R149 or R150 calls invalid. -/

namespace Sys2Proof

/-- spec/30_encoding.md R85: a FIELD command is legal only with a valid selector. -/
def Instr.wellFormed : Instr → Bool
  | .csumCompute => true
  | .csumVerify => true
  | .regRead => true
  | .regWrite => true
  | .regFlag _ => true
  | .fieldGet hdr field chunk => Machine.validSelector hdr field chunk
  | .fieldSet hdr field chunk => Machine.validSelector hdr field chunk
  | .classify => true
  | .arpReply => true
  | .icmpEchoReply => true
  | .dispatch => true

end Sys2Proof
end

