-- ==== Sys2Proof/Decode.lean ====
section
/-! DEFINITION. The decoder of spec/30_encoding.md R81 to R86, total on every 32-bit word, and the
encoder written from the same table of fields. A command is one 32-bit word (R87), so there is no
length to decode. -/

namespace Sys2Proof

/-- Why a word is illegal (R85). The machine reports every one of these as ILLEGAL_CMD. -/
inductive DecodeError where
  /-- RSV0 or RSV1 is not 0 (R84) -/
  | reservedBits
  /-- OP is not in the table of R83 (R86) -/
  | reservedOp
  /-- EN is set for a command other than REG_FLAG (R84) -/
  | unusedEnable
  /-- HDR, FIELD or CHUNK is not 0 for a command other than FIELD_GET and FIELD_SET (R84) -/
  | unusedSelector
  /-- the selector of a FIELD command is invalid (R85) -/
  | badSelector
  deriving DecidableEq, Repr

/-- R81: bits 7:0. -/
def opField (w : Word) : BitVec 8 := w.extractLsb' 0 8
/-- R81: bit 8. -/
def enField (w : Word) : BitVec 1 := w.extractLsb' 8 1
/-- R81: bits 11:9. -/
def rsv0Field (w : Word) : BitVec 3 := w.extractLsb' 9 3
/-- R81: bits 15:12. -/
def hdrField (w : Word) : BitVec 4 := w.extractLsb' 12 4
/-- R81: bits 23:16. -/
def fieldField (w : Word) : BitVec 8 := w.extractLsb' 16 8
/-- R81: bits 27:24. -/
def chunkField (w : Word) : BitVec 4 := w.extractLsb' 24 4
/-- R81: bits 31:28. -/
def rsv1Field (w : Word) : BitVec 4 := w.extractLsb' 28 4

/-- R84: a command that uses neither EN nor a selector has 0 in both. -/
def plainCommand (w : Word) (i : Instr) : Except DecodeError Instr :=
  if enField w ≠ 0 then .error .unusedEnable
  else if hdrField w ≠ 0 ∨ fieldField w ≠ 0 ∨ chunkField w ≠ 0 then .error .unusedSelector
  else .ok i

/-- R84: REG_FLAG uses EN and no selector. -/
def flagCommand (w : Word) : Except DecodeError Instr :=
  if hdrField w ≠ 0 ∨ fieldField w ≠ 0 ∨ chunkField w ≠ 0 then .error .unusedSelector
  else .ok (.regFlag (enField w == 1))

/-- R84, R85: a FIELD command uses a valid selector and no EN. -/
def fieldCommand (w : Word) (mk : BitVec 4 → BitVec 8 → BitVec 4 → Instr) : Except DecodeError Instr :=
  if enField w ≠ 0 then .error .unusedEnable
  else if Machine.validSelector (hdrField w) (fieldField w) (chunkField w) then
    .ok (mk (hdrField w) (fieldField w) (chunkField w))
  else .error .badSelector

/-- R85: every word is one command or is illegal, with the reason. The OP values are those of R83. -/
def decode (w : Word) : Except DecodeError Instr :=
  if rsv0Field w ≠ 0 ∨ rsv1Field w ≠ 0 then .error .reservedBits
  else
    match (opField w).toNat with
    | 0x01 => plainCommand w .csumCompute
    | 0x02 => plainCommand w .csumVerify
    | 0x10 => plainCommand w .regRead
    | 0x11 => plainCommand w .regWrite
    | 0x12 => flagCommand w
    | 0x20 => fieldCommand w .fieldGet
    | 0x21 => fieldCommand w .fieldSet
    | 0x30 => plainCommand w .classify
    | 0x31 => plainCommand w .arpReply
    | 0x32 => plainCommand w .icmpEchoReply
    | 0x33 => plainCommand w .dispatch
    | _ => .error .reservedOp

/-- The word with the given fields and 0 in RSV0 and RSV1 (R81): each field shifted to its place, as
spec/42_header_codec.md R152 writes it. -/
def commandWord (op : BitVec 8) (en : BitVec 1) (hdr : BitVec 4) (field : BitVec 8) (chunk : BitVec 4) : Word :=
  chunk.setWidth 32 <<< 24 ||| field.setWidth 32 <<< 16 ||| hdr.setWidth 32 <<< 12 ||| en.setWidth 32 <<< 8 |||
    op.setWidth 32

/-- The OP value of a command (R83). -/
def opcode : Instr → BitVec 8
  | .csumCompute => 0x01
  | .csumVerify => 0x02
  | .regRead => 0x10
  | .regWrite => 0x11
  | .regFlag _ => 0x12
  | .fieldGet _ _ _ => 0x20
  | .fieldSet _ _ _ => 0x21
  | .classify => 0x30
  | .arpReply => 0x31
  | .icmpEchoReply => 0x32
  | .dispatch => 0x33

/-- The word of a command, from R81 and R83. -/
def encode (i : Instr) : Word :=
  match i with
  | .csumCompute => commandWord (opcode i) 0 0 0 0
  | .csumVerify => commandWord (opcode i) 0 0 0 0
  | .regRead => commandWord (opcode i) 0 0 0 0
  | .regWrite => commandWord (opcode i) 0 0 0 0
  | .regFlag enable => commandWord (opcode i) (BitVec.ofBool enable) 0 0 0
  | .fieldGet hdr field chunk => commandWord (opcode i) 0 hdr field chunk
  | .fieldSet hdr field chunk => commandWord (opcode i) 0 hdr field chunk
  | .classify => commandWord (opcode i) 0 0 0 0
  | .arpReply => commandWord (opcode i) 0 0 0 0
  | .icmpEchoReply => commandWord (opcode i) 0 0 0 0
  | .dispatch => commandWord (opcode i) 0 0 0 0

/-- The command in the low `nbits` bits of `w`, as spec/opcode_table.json numbers them; every row has 32. -/
def decodeTableWord (nbits w : Nat) : Option Instr :=
  match decode (BitVec.ofNat 32 (w % 2 ^ nbits)) with
  | .ok i => some i
  | .error _ => none

end Sys2Proof
end

