-- ==== Sys2Proof/Machine/Window.lean ====
section
/-! DEFINITION. The register window as the host sees it (spec/10_state.md R20 to R45): the register
map, the value a host read returns, and the effect of a host write. -/

namespace Sys2Proof.Machine

/-- The registers of the window (R22). -/
inductive WinReg where
  | cmd
  | status
  | arg0
  | arg1
  | result
  | classReg
  | hdroff
  | txAddr
  | txLen
  | hostIp
  | hostMacHi
  | hostMacLo
  | rpBase
  | rpMode
  | rpBar
  | reserved
  deriving DecidableEq, Repr

/-- The register at a byte offset from BLK_BASE (R22); every other 4-aligned offset is reserved (R42). -/
def regAt (offset : Nat) : WinReg :=
  match offset with
  | 0x00 => .cmd
  | 0x04 => .status
  | 0x08 => .arg0
  | 0x0C => .arg1
  | 0x10 => .result
  | 0x14 => .classReg
  | 0x18 => .hdroff
  | 0x1C => .txAddr
  | 0x20 => .txLen
  | 0x24 => .hostIp
  | 0x28 => .hostMacHi
  | 0x2C => .hostMacLo
  | 0x30 => .rpBase
  | 0x34 => .rpMode
  | 0x38 => .rpBar
  | _ => .reserved

/-- The byte offset of a register (R22); the first reserved word for `reserved`. -/
def offsetOf : WinReg → Nat
  | .cmd => 0x00
  | .status => 0x04
  | .arg0 => 0x08
  | .arg1 => 0x0C
  | .result => 0x10
  | .classReg => 0x14
  | .hdroff => 0x18
  | .txAddr => 0x1C
  | .txLen => 0x20
  | .hostIp => 0x24
  | .hostMacHi => 0x28
  | .hostMacLo => 0x2C
  | .rpBase => 0x30
  | .rpMode => 0x34
  | .rpBar => 0x38
  | .reserved => 0x3C

/-- The registers a host write can change (R44). -/
def WinReg.writable : WinReg → Bool
  | .cmd => true
  | .arg0 => true
  | .arg1 => true
  | .hostIp => true
  | .hostMacHi => true
  | .hostMacLo => true
  | .rpBase => true
  | .rpMode => true
  | .rpBar => true
  | .status => false
  | .result => false
  | .classReg => false
  | .hdroff => false
  | .txAddr => false
  | .txLen => false
  | .reserved => false

/-- Some byte of a host access lies in the window (R20, R21). -/
def State.touchesWindow (s : State) (addr width : Nat) : Bool :=
  decide (s.blkBase < addr + width) && decide (addr < s.blkBase + 256)

/-- The host's access is 32 bits wide and at a 4-aligned offset of the window (R21). -/
def State.admittedWindow (s : State) (addr width : Nat) : Bool :=
  decide (width = 4) && decide (s.blkBase ≤ addr) && decide (addr < s.blkBase + 256) &&
    decide ((addr - s.blkBase) % 4 = 0)

/-- A result register while BUSY = 1 reads as any value (R45). -/
def State.whenIdle (s : State) (v : Word) : Word := if s.busy then s.freeWord 0 else v

/-- A configuration register nothing has written since reset reads as any value of its implemented
bits `mask` (R46). -/
def State.whenSet (s : State) (isSet : Bool) (mask v : Word) : Word := if isSet then v else s.freeWord 0 &&& mask

/-- The value of a host read (R22, R24, R30, R31, R37 to R42, R45, R46). -/
def State.windowValue (s : State) : WinReg → Word
  | .cmd => 0
  | .status => s.status
  | .arg0 => s.arg0
  | .arg1 => s.arg1
  | .result => s.whenIdle s.result
  | .classReg => s.whenIdle s.classReg
  | .hdroff => s.whenIdle s.hdroff
  | .txAddr => s.whenIdle s.txAddr
  | .txLen => s.whenIdle (s.txLen.setWidth 32)
  | .hostIp => s.whenSet s.ipSet 0xFFFFFFFF s.hostIp
  | .hostMacHi => s.whenSet s.macHiSet 0x0000FFFF (s.hostMacHi.setWidth 32)
  | .hostMacLo => s.whenSet s.macLoSet 0xFFFFFFFF s.hostMacLo
  | .rpBase => s.whenSet s.baseSet 0xFFFFFFFF s.rpBase
  | .rpMode => s.whenSet s.modeSet 0x00000001 ((modeBit s.rpMode).setWidth 32)
  | .rpBar => 0
  | .reserved => 0

/-- The effect of a host write on an idle block (R22, R23, R30 to R33, R38, R39, R41, R42). -/
def State.idleWrite (s : State) (r : WinReg) (v : Word) : State :=
  match r with
  | .cmd => s.accept v
  | .arg0 => { s with arg0 := v }
  | .arg1 => { s with arg1 := v }
  | .hostIp => { s with hostIp := v, ipSet := true }
  | .hostMacHi => { s with hostMacHi := v.extractLsb' 0 16, macHiSet := true }
  | .hostMacLo => { s with hostMacLo := v, macLoSet := true }
  | .rpBase => { s with rpBase := v, baseSet := true }
  | .rpMode => { s with rpMode := modeOfBit (v.getLsbD 0), modeSet := true }
  | .rpBar =>
    { s with rpMode := modeOfBit (v.getLsbD 0), rpBase := v &&& 0xFFFFFFFE, baseSet := true, modeSet := true }
  | .status => s
  | .result => s
  | .classReg => s
  | .hdroff => s
  | .txAddr => s
  | .txLen => s
  | .reserved => s

/-- The effect of a host write (R44): while BUSY = 1 a write to a writable register is dropped and sets
OVERRUN; a write to any other offset is ignored. -/
def State.windowWrite (s : State) (r : WinReg) (v : Word) : State :=
  if s.busy && r.writable then { s with overrun := true } else s.idleWrite r v

end Sys2Proof.Machine
end

