-- ==== Sys2Proof/Machine/Races.lean ====
section
/-! DEFINITION. Races between host and block (spec/20_memory.md R63, spec/70_reset_and_hazards.md R236): the
bytes that the host must leave alone while a command is in progress, the host's accesses to RAM, and the
races that are still to come. -/

namespace Sys2Proof.Machine

/-- The command in progress, if the latched word is legal (spec/30_encoding.md R85). -/
def State.current (s : State) : Option Instr :=
  match s.cmd with
  | none => none
  | some w =>
    match decode w with
    | .ok i => some i
    | .error _ => none

/-- The address and width of the field a FIELD command names: all of its bytes, whichever chunk is asked
for (spec/70_reset_and_hazards.md R236, spec/42_header_codec.md R140). -/
def fieldRange (hdr : BitVec 4) (field : BitVec 8) (s : State) : Nat × Nat :=
  match layout hdr field with
  | none => (0, 0)
  | some l => (s.addr + l.offset, l.width)

/-- The RAM range a command uses, which the host must leave alone (spec/70_reset_and_hazards.md R236). -/
def operandRange (i : Instr) (s : State) : Nat × Nat :=
  match i with
  | .csumCompute => (s.addr, s.len)
  | .csumVerify => (s.addr, s.len)
  | .regRead => (0, 0)
  | .regWrite => (0, 0)
  | .regFlag _ => (0, 0)
  | .fieldGet hdr field _ => fieldRange hdr field s
  | .fieldSet hdr field _ => fieldRange hdr field s
  | .classify => (s.addr, s.len)
  | .arpReply => (s.addr, s.len)
  | .icmpEchoReply => (s.addr, s.len)
  | .dispatch => (s.addr, s.len)

/-- The byte at `a` is in the RAM range that the command uses. -/
def usesByte (i : Instr) (s : State) (a : Nat) : Bool :=
  decide ((operandRange i s).1 ≤ a) && decide (a < (operandRange i s).1 + (operandRange i s).2)

/-- The commands that can write RAM (spec/42_header_codec.md R153, spec/43_dispatch.md R172, R175, R178). -/
def writesRam : Instr → Bool
  | .csumCompute => false
  | .csumVerify => false
  | .regRead => false
  | .regWrite => false
  | .regFlag _ => false
  | .fieldGet _ _ _ => false
  | .fieldSet _ _ _ => true
  | .classify => false
  | .arpReply => true
  | .icmpEchoReply => true
  | .dispatch => true

/-- The command in progress uses the byte at `a`. -/
def State.inFlight (s : State) (a : Nat) : Bool :=
  match s.current with
  | none => false
  | some i => usesByte i s a

/-- The command in progress may write the byte at `a`: for a command that can write RAM, any byte it
uses (DESIGN CHOICE, log entry 8). -/
def State.inFlightWritten (s : State) (a : Nat) : Bool :=
  match s.current with
  | none => false
  | some i => writesRam i && usesByte i s a

/-! The host's accesses to RAM. -/

/-- The addresses of an access, in ascending order. -/
def span (addr width : Nat) : List Nat := (List.range width).map (addr + ·)

/-- The bytes `as` are raced: those of them that are not yet are noted. -/
def State.race (s : State) (as : List Nat) : State :=
  { s with raced := s.raced ++ as.filter fun a => decide (a ∉ s.raced) }

/-- A host store to RAM (spec/20_memory.md R64, R69): little-endian. A byte that a
command in progress uses is raced (R63). -/
def State.hostWrite (s : State) (addr width value : Nat) : State :=
  ({ s with mem := s.mem.writeBytes addr (bytesLE width value) } : State).race ((span addr width).filter s.inFlight)

/-- The byte a host load finds (spec/20_memory.md R63, R64): unspecified in a race. -/
def State.hostByte (s : State) (a : Nat) : Byte :=
  if a ∈ s.raced ∨ s.inFlightWritten a then Config.freeByte s.draws a else s.mem.read a

/-- The host has loaded from RAM: a byte that the command in progress may write is raced
(spec/20_memory.md R63). -/
def State.hostRead (s : State) (addr width : Nat) : State :=
  ({ s with hostReads := s.hostReads ++ [leNat ((span addr width).map s.hostByte)] } : State).race
    ((span addr width).filter s.inFlightWritten)

/-! A block read that comes before the host's access of the same byte is a block read of a raced byte too
(R63). So the block looks ahead at the inputs still to come: they say which bytes the host will race on. -/

/-- The bytes raced on by the time the command whose rest is `p` completes, if the agents move as the
inputs say and the block reads bytes not raced yet as they stand. A reset stops the command; a host that is
stuck makes no further access; at `poll` and `blockTurn`, and when no input is left, the command completes. -/
def State.racesAhead (s : State) (p : Prog) : List Input → List Nat
  | [] => s.raced
  | .store addr width value :: rest =>
    if s.touchesWindow addr width then
      if s.admittedWindow addr width then s.tick.racesAhead p rest else s.raced
    else if s.inBounds addr width then (s.hostWrite addr width value).tick.racesAhead p rest
    else s.raced
  | .load addr width :: rest =>
    if s.touchesWindow addr width then
      if s.admittedWindow addr width then s.tick.racesAhead p rest else s.raced
    else if s.inBounds addr width then (s.hostRead addr width).tick.racesAhead p rest
    else s.raced
  | .poll :: _ => s.raced
  | .blockTurn :: _ => s.raced
  | .blockEvent :: rest =>
    match p with
    | .done _ => s.raced
    | .raise _ => s.raced
    | .act x k => (s.perform x).racesAhead (k (s.answer x)) rest
  | .deviceTurn :: rest => s.tick.racesAhead p rest
  | .reset :: _ => s.raced

/-- The bytes the host will race on are noted before the block's next event, and, as a block read of such
a byte is unspecified and can prolong the command, those it then races on too, and so on `n` times. -/
def State.foresee : Nat → Prog → State → State
  | 0, _, s => s
  | n + 1, p, s => State.foresee n p { s with raced := s.racesAhead p (.blockEvent :: s.inputs) }

end Sys2Proof.Machine
end

