-- ==== Sys2Proof/Machine/Block.lean ====
section
/-! DEFINITION. The block's turn: it takes the latched command word and makes the events of the command,
one (spec/20_memory.md R60) or all that are left (R63), or does nothing when idle. Here too is what a
reset leaves (spec/70_reset_and_hazards.md R230, R231). -/

namespace Sys2Proof.Machine

/-- The pseudocode of a command. -/
def program (i : Instr) (s : State) : Prog :=
  match i with
  | .csumCompute => s.csumCompute
  | .csumVerify => s.csumVerify
  | .regRead => s.regReadCommand
  | .regWrite => s.regWriteCommand
  | .regFlag enable => s.regFlagCommand enable
  | .fieldGet hdr field chunk => s.fieldGet hdr field chunk
  | .fieldSet hdr field chunk => s.fieldSet hdr field chunk
  | .classify => s.classifyCommand
  | .arpReply => s.arpReplyCommand
  | .icmpEchoReply => s.icmpEchoReplyCommand
  | .dispatch => s.dispatchCommand

/-! The block moves. -/

/-- The command in progress is run to its end. An illegal word completes with ILLEGAL_CMD
(spec/30_encoding.md R85). An idle block does nothing (spec/60_exceptions.md R218). -/
def State.blockStep (s : State) : Host.Outcome State Fault Refusal :=
  match s.cmd with
  | none => .next s.tick
  | some w =>
    match decode w with
    | .error _ => .next (s.raise .illegalCmd)
    | .ok i => exec i s

/-- The block makes the next access of the command whose rest is given, or completes it
(spec/20_memory.md R60, spec/60_exceptions.md R205). -/
def State.nextEvent (s : State) : Prog → State
  | .done r => s.conclude (.ok r)
  | .raise e => s.conclude (.error e)
  | .act x _ => { s.perform x with progress := s.progress ++ [s.answer x] }

/-- One event of the block. Bytes that the host will race on before the command completes are raced
already: a block read of them is unspecified (spec/20_memory.md R63; DESIGN CHOICE, log entry 7). Each round
that finds a new one finds a host access more, so there are at most as many rounds as inputs. -/
def State.blockEvent (s : State) : Host.Outcome State Fault Refusal :=
  match s.cmd with
  | none => .next s.tick
  | some w =>
    match decode w with
    | .error _ => .next (s.raise .illegalCmd)
    | .ok i =>
      .next ((State.foresee s.inputs.length ((program i s).resume s.progress) s).nextEvent
        ((program i s).resume s.progress))

/-! Reset. -/

/-- What is left of the command in progress; nothing when there is none or its word is illegal. -/
def State.rest (s : State) : Prog :=
  match s.current with
  | none => .done .nothing
  | some i => (program i s).resume s.progress

/-- The events the command in progress would still make if it ran to its end. -/
def State.pendingEvents (s : State) : List Event := (s.rest.runAll s).2.trace.drop s.trace.length

/-- The events the command in progress has made: each answer in its progress stands for one of the last
events of the block. -/
def State.pastEvents (s : State) : List Event := s.trace.drop (s.trace.length - s.progress.length)

/-- The bytes written by a list of events. -/
def writtenBytes : List Event → List Nat
  | [] => []
  | .ramRead _ _ :: rest => writtenBytes rest
  | .ramWrite a _ :: rest => a :: writtenBytes rest
  | .bus _ :: rest => writtenBytes rest
  | .log _ :: rest => writtenBytes rest
  | .postTx _ _ :: rest => writtenBytes rest

/-- The write ranges of the command in progress (spec/70_reset_and_hazards.md R231): the bytes it has
written and those it would have written had it run to its end (log entry 10). -/
def State.writeRange (s : State) : List Nat := writtenBytes (s.pastEvents ++ s.pendingEvents)

/-- A command stopped by a reset at an unspecified point between two of its events
(spec/70_reset_and_hazards.md R231): the events before that point have happened. -/
def State.stopped (s : State) : State :=
  s.rest.runFor (Config.stopPoint s.draws % (s.pendingEvents.length + 1)) s

/-- A command stopped by a reset: the bytes in its write ranges, and those of a race, then hold
unspecified values (spec/70_reset_and_hazards.md R231, spec/20_memory.md R63). These are draws of their
own, after every read that the stopped command has made (DESIGN CHOICE, log entry 10). -/
def State.interrupted (s : State) : State :=
  { s.stopped with mem := freeBytes s.stopped.draws s.stopped.mem (s.writeRange ++ s.raced) }

/-- The platform's reset (spec/70_reset_and_hazards.md R230): the registers and the log stream are as
after reset; RAM, the device and what the sink has been given stay. -/
def State.afterReset (s : State) : State :=
  { State.reset with
    earlier := s.earlier ++ s.trace
    mem := s.mem
    ram := s.ram
    blkBase := s.blkBase
    inputs := s.inputs
    hostReads := s.hostReads
    mmioAnswers := s.mmioAnswers
    portAnswers := s.portAnswers
    draws := s.draws + 1 }

/-- Reset, with a command in progress (R231) or without one (R230). -/
def State.platformReset (s : State) : State :=
  if s.busy then s.interrupted.afterReset else s.afterReset

end Sys2Proof.Machine
end

