-- ==== Sys2Proof/Machine/Agents.lean ====
section
/-! DEFINITION. The host agent (spec/20_memory.md R49): its loads and stores to the register window
and to RAM, and its polling; and which agent moves at each input. -/

namespace Sys2Proof.Machine

/-- The inputs that are the host's. -/
def Input.isHost : Input → Bool
  | .store _ _ _ => true
  | .load _ _ => true
  | .poll => true
  | .blockTurn => false
  | .blockEvent => false
  | .deviceTurn => false
  | .reset => false

/-- The first input of another agent than the host, and the inputs without it. -/
def otherAgent : List Input → Option (Input × List Input)
  | [] => none
  | i :: rest =>
    if i.isHost then
      match otherAgent rest with
      | none => none
      | some (j, left) => some (j, i :: left)
    else some (i, rest)

/-- A host access for which the spec gives the host no step: the host alone is stuck (spec/10_state.md R21).
The inputs of the other agents come first, and a command in progress runs on and completes (fairness,
spec/70_reset_and_hazards.md R243); when the host's access is all that is left, the machine stops with
the fault `f` (DESIGN CHOICE, log entry 9). -/
def State.hostStuck (s : State) (i : Input) (f : Fault) : Host.Outcome State Fault Refusal :=
  match otherAgent s.inputs with
  | some (j, rest) => .next { s with inputs := j :: i :: rest }
  | none => if s.busy then ({ s with inputs := i :: s.inputs } : State).blockStep else .fault f

/-- A host store (spec/10_state.md R21, R44; spec/20_memory.md R50). -/
def State.hostStore (s : State) (addr width value : Nat) : Host.Outcome State Fault Refusal :=
  if s.touchesWindow addr width then
    if s.admittedWindow addr width then
      .next (s.windowWrite (regAt (addr - s.blkBase)) (BitVec.ofNat 32 value)).tick
    else s.hostStuck (.store addr width value) (.hostAccessNotAdmitted addr width)
  else if s.inBounds addr width then .next (s.hostWrite addr width value).tick
  else s.hostStuck (.store addr width value) (.hostAddressUnmapped addr width)

/-- A host load (spec/10_state.md R21, R45; spec/20_memory.md R50). -/
def State.hostLoad (s : State) (addr width : Nat) : Host.Outcome State Fault Refusal :=
  if s.touchesWindow addr width then
    if s.admittedWindow addr width then
      .next ({ s with hostReads := s.hostReads ++ [(s.windowValue (regAt (addr - s.blkBase))).toNat] } : State).tick
    else s.hostStuck (.load addr width) (.hostAccessNotAdmitted addr width)
  else if s.inBounds addr width then .next (s.hostRead addr width).tick
  else s.hostStuck (.load addr width) (.hostAddressUnmapped addr width)

/-- One input, in a state from whose list it has been taken. `poll` gives the block its turn until
BUSY = 0 and then reads STATUS (spec/30_encoding.md R88). The device's step changes nothing but what
it will answer (spec/20_memory.md R49, spec/40_register_port.md R105). -/
def State.inputStep (s : State) (i : Input) : Host.Outcome State Fault Refusal :=
  match i with
  | .store addr width value => s.hostStore addr width value
  | .load addr width => s.hostLoad addr width
  | .poll =>
    if s.busy then ({ s with inputs := .poll :: s.inputs } : State).blockStep
    else .next ({ s with hostReads := s.hostReads ++ [s.status.toNat] } : State).tick
  | .blockTurn => s.blockStep
  | .blockEvent => s.blockEvent
  | .deviceTurn => .next s.tick
  | .reset => .next s.platformReset

/-- One step of the machine: the next input of host or platform, or the block's turn when none is left. -/
def State.stepAgents (s : State) : Host.Outcome State Fault Refusal :=
  match s.inputs with
  | [] => s.blockStep
  | i :: rest => ({ s with inputs := rest } : State).inputStep i

end Sys2Proof.Machine
end

