-- ==== Sys2Proof/Machine/HostProgram.lean ====
section
/-! DEFINITION. Host programs (spec/30_encoding.md R88) and the pseudo-instructions with their exact
expansions (R89), as inputs of the machine. -/

namespace Sys2Proof.Machine

/-- A line of a host program (R88). -/
inductive HostLine where
  | wr (r : WinReg) (v : Word)
  | rd (r : WinReg)
  | cmd (w : Word)
  | poll
  deriving DecidableEq, Repr

/-- The host action of a line, for a window at `base` (R88). -/
def HostLine.input (base : Nat) : HostLine → Input
  | .wr r v => .store (base + offsetOf r) 4 v.toNat
  | .rd r => .load (base + offsetOf r) 4
  | .cmd w => .store (base + offsetOf .cmd) 4 w.toNat
  | .poll => .poll

/-- The pseudo-instructions (R89). -/
inductive Pseudo where
  | csumCompute (a n : Word)
  | csumVerify (a n : Word)
  | regRead (r : Word)
  | regWrite (r v : Word)
  | regSet (r m : Word)
  | regClear (r m : Word)
  | fieldGet (a : Word) (h : BitVec 4) (f : BitVec 8) (c : BitVec 4)
  | fieldSet (a : Word) (h : BitVec 4) (f : BitVec 8) (c : BitVec 4) (v : Word)
  | classify (a n : Word)
  | arpReply (a n : Word)
  | icmpEchoReply (a n : Word)
  | dispatch (a n : Word)
  | rpBar (b : Word)
  | hostIp (i : Word)
  | hostMac (m : BitVec 48)
  deriving DecidableEq, Repr

/-- A command with two operands. -/
def command2 (x y w : Word) : List HostLine := [.wr .arg0 x, .wr .arg1 y, .cmd w, .poll]

/-- A command with one operand. -/
def command1 (x w : Word) : List HostLine := [.wr .arg0 x, .cmd w, .poll]

/-- The word of a FIELD command: (C<<24)|(F<<16)|(H<<12)|op (R89). -/
def selectorWord (h : BitVec 4) (f : BitVec 8) (c : BitVec 4) (op : Word) : Word :=
  c.setWidth 32 <<< 24 ||| f.setWidth 32 <<< 16 ||| h.setWidth 32 <<< 12 ||| op

/-- The exact expansion of a pseudo-instruction (R89). -/
def Pseudo.expand : Pseudo → List HostLine
  | .csumCompute a n => command2 a n 0x00000001
  | .csumVerify a n => command2 a n 0x00000002
  | .regRead r => command1 r 0x00000010
  | .regWrite r v => command2 r v 0x00000011
  | .regSet r m => command2 r m 0x00000112
  | .regClear r m => command2 r m 0x00000012
  | .fieldGet a h f c => command1 a (selectorWord h f c 0x20)
  | .fieldSet a h f c v => command2 a v (selectorWord h f c 0x21)
  | .classify a n => command2 a n 0x00000030
  | .arpReply a n => command2 a n 0x00000031
  | .icmpEchoReply a n => command2 a n 0x00000032
  | .dispatch a n => command2 a n 0x00000033
  | .rpBar b => [.wr .rpBar b]
  | .hostIp i => [.wr .hostIp i]
  | .hostMac m => [.wr .hostMacHi ((m.extractLsb' 32 16).setWidth 32), .wr .hostMacLo (m.extractLsb' 0 32)]

/-- The state with a host program still to run. -/
def State.load (s : State) (lines : List HostLine) : State :=
  { s with inputs := s.inputs ++ lines.map (HostLine.input s.blkBase) }

end Sys2Proof.Machine
end

