-- ==== Sys2Proof/Machine/Step.lean ====
section
/-! DEFINITION. One step of the machine, and how a command word is put where the next step takes it. -/

namespace Sys2Proof.Machine

/-- One step: the next input of host or platform, or the block's turn. -/
def step (s : State) : Host.Outcome State Fault Refusal := s.stepAgents

/-- `s` with the command word `w` accepted (spec/10_state.md R23) and the block to move next, so that
the next step runs that command. The NetBlock has no program counter and fetches nothing (R40):
a command comes only from a host write to CMD, for which this stands. -/
def State.withFetchWord (s : State) (nbits w : Nat) : State :=
  { s.accept (BitVec.ofNat 32 (w % 2 ^ nbits)) with inputs := .blockTurn :: s.inputs }

end Sys2Proof.Machine
end

