-- ==== Sys2Proof/Safety.lean ====
section
/-! DEFINITION. The terms in which claims are made: a sound state, a safe run, how a command ends, the
events it makes, and what a reply leaves of the frame. -/

namespace Sys2Proof.Machine

/-- What every step keeps.
RAM is in canonical form and lists only admitted addresses (spec/20_memory.md R51, R55);
CLASS[31:6] is 0 (spec/10_state.md R35);
ERR holds 0 while a command is in progress, and TX_REQ is 0 until it makes an access (R25, R27);
an ERR other than 0 has left STICKY_ERR set (R28);
only a command in progress has a progress (R43) and raced bytes, all of them admitted
(spec/20_memory.md R63), and so are the bytes it has written (R51). -/
structure State.Inv (s : State) : Prop where
  memWf : s.mem.wf
  memAdmitted : ∀ c ∈ s.mem, s.memOK c.1 = true
  classBits : s.classReg.toNat < 64
  busyErr : s.busy = true → s.err = none
  busyTx : s.busy = true → s.progress = [] → s.txReq = false
  errSticky : s.err ≠ none → s.stickyErr = true
  progressBusy : s.progress ≠ [] → s.busy = true
  racedBusy : s.raced ≠ [] → s.busy = true
  racedAdmitted : ∀ a ∈ s.raced, s.memOK a = true
  writtenAdmitted : ∀ a ∈ writtenBytes s.pastEvents, s.memOK a = true

/-- A run of `k` steps from `s` meets no fault and no refusal: the host keeps to the accesses that the
spec gives a step (spec/10_state.md R21). -/
def SafeRun (k : Nat) (s : State) : Prop := ∃ t, Sys2Proof.core.run k s = .next t

/-- The command in progress has made no access yet and the host has kept its duty (spec/20_memory.md R63):
so it is right after acceptance (spec/10_state.md R23), however long the block then waits. -/
abbrev State.Fresh (s : State) : Prop := s.progress = [] ∧ s.raced = []

/-- Among the inputs before the command `i` is run to its end or reset, the host stores to no byte that the
command uses and loads none that it may write (spec/20_memory.md R63, spec/70_reset_and_hazards.md R236). -/
def State.KeepsDuty (s : State) (i : Instr) : List Input → Prop
  | [] => True
  | .store addr width _ :: rest =>
    (∀ b, addr ≤ b → b < addr + width → usesByte i s b = false) ∧ s.KeepsDuty i rest
  | .load addr width :: rest =>
    (∀ b, addr ≤ b → b < addr + width → (writesRam i && usesByte i s b) = false) ∧ s.KeepsDuty i rest
  | .poll :: _ => True
  | .blockTurn :: _ => True
  | .blockEvent :: rest => s.KeepsDuty i rest
  | .deviceTurn :: rest => s.KeepsDuty i rest
  | .reset :: _ => True

/-- `s` with its command ended without error and nothing else changed (spec/60_exceptions.md R204, R205). -/
def State.ended (s : State) : State := { s with cmd := none, progress := [], err := none, raced := [] }

/-- `s` with its command ended by the error `e` and nothing else changed (spec/60_exceptions.md R203). -/
def State.failed (s : State) (e : Err) : State :=
  { s with cmd := none, progress := [], err := some e, stickyErr := true, raced := [] }

/-! The events of a command. -/

/-- `s` after events that have left nothing but themselves. -/
def State.saw (s : State) (evs : List Event) : State := { s with trace := s.trace ++ evs }

/-- The events of `MemRead(a, n)` (spec/00_scope.md R12): single-byte reads in ascending address order. -/
def ramReads (m : Memory) : Nat → Nat → List Event
  | _, 0 => []
  | a, n + 1 => .ramRead a (m.read a) :: ramReads m (a + 1) n

/-- The events of `MemWrite(a, n, bs)` (spec/00_scope.md R12). -/
def ramWrites : Nat → List Byte → List Event
  | _, [] => []
  | a, b :: bs => .ramWrite a b :: ramWrites (a + 1) bs

/-- The reads of some ranges of the frame, each given by its offset and length, in order. -/
def State.frameReads (s : State) (ranges : List (Nat × Nat)) : List Event :=
  ranges.flatMap fun r => ramReads s.mem (s.addr + r.1) r.2

/-- An event that reads RAM. -/
def Event.isRamRead : Event → Bool
  | .ramRead _ _ => true
  | .ramWrite _ _ => false
  | .bus _ => false
  | .log _ => false
  | .postTx _ _ => false

/-- An event that writes RAM. -/
def Event.isRamWrite : Event → Bool
  | .ramRead _ _ => false
  | .ramWrite _ _ => true
  | .bus _ => false
  | .log _ => false
  | .postTx _ _ => false

/-- Some events without the RAM reads among them: what the world can tell happened (spec/20_memory.md R51). -/
def effects (evs : List Event) : List Event := evs.filter fun e => !e.isRamRead

/-- Every one of some events is a read of a byte of `[a, a + n)` that returned what `m` holds there. -/
def ReadsIn (m : Memory) (a n : Nat) (evs : List Event) : Prop :=
  ∀ e ∈ evs, ∃ k, a ≤ k ∧ k < a + n ∧ e = .ramRead k (m.read k)

/-- The command `i` ends with the error `e`, after reads of its frame and no other effect
(spec/60_exceptions.md R203). -/
def State.Refused (s : State) (i : Instr) (e : Err) : Prop :=
  ∃ evs, ReadsIn s.mem s.addr s.len evs ∧ exec i s = .next ((s.failed e).saw evs)

/-- `s` after a command that ended without error and changed nothing but RAM and the event sequence. -/
def State.EndedWritingRam (s t : State) : Prop := t = { s.ended with mem := t.mem, trace := t.trace }

/-- `s` after a command that ended without error, posted the transmit request `(a, n)`
(spec/43_dispatch.md R176), and changed nothing else but RAM and the event sequence. -/
def State.EndedPosting (s t : State) (a : Word) (n : BitVec 16) : Prop :=
  t = { s.ended with txAddr := a, txLen := n, txReq := true, mem := t.mem, trace := t.trace }

/-- The bytes of an ARP reply made of the frame at `f` (spec/43_dispatch.md R171): `m` before, `m'` after. -/
def ArpReplyBytes (m m' : Memory) (f : Nat) (mac ip : List Byte) : Prop :=
  m'.bytes f 6 = m.bytes (f + 6) 6 ∧
  m'.bytes (f + 6) 6 = m.bytes f 6 ∧
  m'.bytes (f + 12) 8 = m.bytes (f + 12) 8 ∧
  m'.bytes (f + 20) 2 = [0x00, 0x02] ∧
  m'.bytes (f + 22) 6 = mac ∧
  m'.bytes (f + 28) 4 = ip ∧
  m'.bytes (f + 32) 6 = m.bytes (f + 22) 6 ∧
  m'.bytes (f + 38) 4 = m.bytes (f + 28) 4 ∧
  ∀ a, a < f ∨ f + 42 ≤ a → m'.read a = m.read a

/-- The bytes of an echo reply made of the frame at `f` (spec/43_dispatch.md R174, R181, R182), for an
IPv4 header of `hl` bytes and an ICMP segment of `len` bytes: `m` before, `m'` after. -/
def EchoReplyBytes (m m' : Memory) (f hl len : Nat) : Prop :=
  m'.bytes f 6 = m.bytes (f + 6) 6 ∧
  m'.bytes (f + 6) 6 = m.bytes f 6 ∧
  m'.bytes (f + 26) 4 = m.bytes (f + 30) 4 ∧
  m'.bytes (f + 30) 4 = m.bytes (f + 26) 4 ∧
  m'.read (f + 14 + hl) = 0x00 ∧
  valid (m'.bytes (f + 14 + hl) len) = true ∧
  valid (m'.bytes (f + 14) hl) = true ∧
  ∀ a, a < f ∨ (f + 12 ≤ a ∧ a < f + 24) ∨ (f + 34 ≤ a ∧ a < f + 14 + hl) ∨ a = f + 14 + hl + 1 ∨
      f + 14 + hl + 4 ≤ a → m'.read a = m.read a

/-- The frame checks hold (spec/43_dispatch.md R160): ARG1[31:16] is 0 and the frame is in bounds. -/
def State.FrameOK (s : State) : Prop := s.lenHigh = 0 ∧ s.inBounds s.addr s.len = true

/-- The Ethernet header of the frame is there and its ethertype is `et` (spec/43_dispatch.md R162). -/
def State.Ethertype (s : State) (et : Nat) : Prop := 14 ≤ s.len ∧ s.mem.readBE (s.addr + 12) 2 = et

/-- The frame is an IPv4 frame whose header lies in the frame, with header-length nibble `ihl`
(spec/43_dispatch.md R164). -/
def State.Ipv4Header (s : State) (ihl : Nat) : Prop :=
  s.Ethertype 0x0800 ∧ 34 ≤ s.len ∧ (s.mem.read (s.addr + 14)).toNat % 16 = ihl ∧ 5 ≤ ihl ∧ 14 + 4 * ihl ≤ s.len

/-- The frame is an ICMP echo request to this host (spec/43_dispatch.md R165). -/
def State.EchoRequest (s : State) (ihl : Nat) : Prop :=
  s.Ipv4Header ihl ∧ s.mem.read (s.addr + 23) = 0x01 ∧ 14 + 4 * ihl + 8 ≤ s.len ∧
    s.mem.read (s.addr + 14 + 4 * ihl) = 0x08 ∧ s.mem.bytes (s.addr + 30) 4 = s.hostIpBytes

/-- The ICMP segment of `len` bytes lies in the IPv4 packet and in the frame (spec/43_dispatch.md R173). -/
def State.EchoGeometry (s : State) (ihl len : Nat) : Prop :=
  34 ≤ s.len ∧ (s.mem.read (s.addr + 14)).toNat % 16 = ihl ∧ 5 ≤ ihl ∧ 8 ≤ len ∧
    s.mem.readBE (s.addr + 16) 2 = 4 * ihl + len ∧ 14 + 4 * ihl + len ≤ s.len

/-- The frame is an ARP request for this host (spec/43_dispatch.md R163). -/
def State.ArpRequest (s : State) : Prop :=
  s.Ethertype 0x0806 ∧ 42 ≤ s.len ∧ s.mem.bytes (s.addr + 20) 2 = [0x00, 0x01] ∧
    s.mem.bytes (s.addr + 38) 4 = s.hostIpBytes

end Sys2Proof.Machine
end

