-- ==== Sys2Proof/Certificates/Slice0/Obligations.lean ====
section
/-! DEFINITION. The statements for the provers: what the spec's rules say of the machine. -/

open Sys2Proof
open Sys2Proof.Machine

/-! Encoding (spec/30_encoding.md, spec/42_header_codec.md R149). -/

/-- R81 to R85: decoding the word of any well-formed command gives the command back, with every
operand at every value its encoding admits. -/
def Obligations.DecodeOfEncodeIsTheCommand : Prop :=
  ∀ i : Instr, i.wellFormed = true → decode (encode i) = .ok i

/-- R85: a legal word is the encoding of the one command it decodes to, and that command is well formed. -/
def Obligations.LegalWordsAreEncodings : Prop :=
  ∀ (w : Word) (i : Instr), decode w = .ok i → i.wellFormed = true ∧ encode i = w

/-- R84, R85, R86: exactly the words with a non-zero reserved field, a reserved OP, a field the command
does not use, or an invalid selector are illegal; such a word in progress completes at once with
ILLEGAL_CMD and has no other effect. -/
def Obligations.IllegalWordsEndWithIllegalCmd : Prop :=
  ∀ w : Word,
    ((∃ e, decode w = .error e) ↔
      (w.extractLsb' 9 3 ≠ 0 ∨ w.extractLsb' 28 4 ≠ 0 ∨
        (w.extractLsb' 0 8).toNat ∉ [0x01, 0x02, 0x10, 0x11, 0x12, 0x20, 0x21, 0x30, 0x31, 0x32, 0x33] ∨
        ((w.extractLsb' 0 8).toNat ≠ 0x12 ∧ w.extractLsb' 8 1 ≠ 0) ∨
        ((w.extractLsb' 0 8).toNat ∈ [0x20, 0x21] ∧
          validSelector (w.extractLsb' 12 4) (w.extractLsb' 16 8) (w.extractLsb' 24 4) = false) ∨
        ((w.extractLsb' 0 8).toNat ∉ [0x20, 0x21] ∧
          (w.extractLsb' 12 4 ≠ 0 ∨ w.extractLsb' 16 8 ≠ 0 ∨ w.extractLsb' 24 4 ≠ 0)))) ∧
    ∀ s : State, s.inputs = [] → s.cmd = some w → (∃ e, decode w = .error e) →
      step s = .next (s.failed .illegalCmd)

/-- R140, R142 to R150: the fields of each header, by FIELD number. The whole-byte fields have the tabled
widths and follow one another with no padding from offset 0 to the header's size; the two nibble fields
are the halves of the IPv4 header's byte 0; no other pair (HDR, FIELD) has a layout. A selector is valid
exactly when its field has a layout and its chunk is below the field's chunk count: one for a field of at
most 4 bytes or a nibble, two for a MAC field and four for an IPv6 address. -/
def Obligations.ValidSelectorsAreTheTabledOnes : Prop :=
  (∀ row ∈ ([(0, [0, 1, 2], [6, 6, 2], 14),
      (1, [0, 1, 2, 3, 4, 5, 6, 7, 8], [2, 2, 1, 1, 2, 6, 4, 6, 4], 28),
      (2, [0, 3, 4, 5, 6, 7, 8, 9, 10, 11], [1, 1, 2, 2, 2, 1, 1, 2, 4, 4], 20),
      (3, [0, 1, 2, 3], [1, 1, 2, 4], 8),
      (4, [0, 1, 2, 3, 4, 5, 6, 7], [2, 2, 4, 4, 2, 2, 2, 2], 20),
      (5, [0, 1, 2, 3], [2, 2, 2, 2], 8),
      (6, [0, 1, 2, 3, 4, 5], [4, 2, 1, 1, 16, 16], 40),
      (7, [0, 1, 2, 3], [1, 1, 2, 4], 8)] : List (BitVec 4 × List (BitVec 8) × List Nat × Nat)),
    let (hdr, fields, widths, size) := row
    fields.length = widths.length ∧ widths.sum = size ∧
    ∀ k < fields.length,
      layout hdr (fields.getD k 0) = some ⟨(widths.take k).sum, widths.getD k 0, .bytes⟩) ∧
  layout 2 1 = some ⟨0, 1, .highNibble⟩ ∧ layout 2 2 = some ⟨0, 1, .lowNibble⟩ ∧
  ∀ (hdr : BitVec 4) (field : BitVec 8) (chunk : BitVec 4),
    ((layout hdr field).isSome = true ↔
      (hdr = 0 ∧ field.toNat ≤ 2) ∨ (hdr = 1 ∧ field.toNat ≤ 8) ∨ (hdr = 2 ∧ field.toNat ≤ 11) ∨
        (hdr = 3 ∧ field.toNat ≤ 3) ∨ (hdr = 4 ∧ field.toNat ≤ 7) ∨ (hdr = 5 ∧ field.toNat ≤ 3) ∨
        (hdr = 6 ∧ field.toNat ≤ 5) ∨ (hdr = 7 ∧ field.toNat ≤ 3)) ∧
    (validSelector hdr field chunk = true ↔
      (layout hdr field).isSome = true ∧
      chunk.toNat <
        (if (hdr = 0 ∧ field.toNat ≤ 1) ∨ (hdr = 1 ∧ (field = 5 ∨ field = 7)) then 2
         else if hdr = 6 ∧ 4 ≤ field.toNat then 4 else 1))

/-- R90: the example command words. -/
def Obligations.ExampleWordsDecodeAsStated : Prop :=
  decode 0x00000001 = .ok .csumCompute ∧
  decode 0x00000112 = .ok (.regFlag true) ∧
  decode 0x00000012 = .ok (.regFlag false) ∧
  decode 0x000B2020 = .ok (.fieldGet 2 11 0) ∧
  (∃ e, decode 0x01012021 = .error e) ∧
  (∃ e, decode 0x00000000 = .error e) ∧
  (∃ e, decode 0x00000101 = .error e)

/-- A step runs the decoded command: when the latched word decodes to `i`, the block's step is `exec i`,
which makes what is left of the command's events and completes it. The block moves so when no input is
left, at its turn in the input list, and while the host polls: that order of agents is the model's (log
entry 16). -/
def Obligations.StepRunsTheDecodedCommand : Prop :=
  ∀ (s : State) (w : Word) (i : Instr), s.cmd = some w → decode w = .ok i →
    (s.inputs = [] → step s = exec i s) ∧
    (∀ rest, s.inputs = .blockTurn :: rest → step s = exec i { s with inputs := rest }) ∧
    (∀ rest, s.inputs = .poll :: rest → step s = exec i s)

/-- R43, R60, R63: a command can also be run one event at a time. Each such step makes one event, the next
one, with BUSY still 1, or makes no event and completes the command, as the whole of what was left would
have. While the host keeps its duty no byte is raced anew, and where none is, the step leaves the rest of
the command to make what it would have made: so a run of the whole command in one step has the same
outcome. A host that breaks its duty makes the block reads before its access unspecified too: an event that
reads a byte on which the host's next action races returns a drawn value. That the byte is noted as raced
before that event is the model's form of it (log entry 7), and that a host load races on all a
RAM-writing command uses is the model's choice (log entry 8). -/
def Obligations.CommandsRunOneEventAtATime : Prop :=
  ∀ (s : State) (w : Word) (i : Instr) (rest : List Input), s.cmd = some w → decode w = .ok i →
    s.inputs = .blockEvent :: rest →
    ∃ t, step s = .next t ∧ t.inputs = rest ∧
      ((t.cmd = some w ∧ (∃ e, t.trace = s.trace ++ [e]) ∧
          (t.raced = s.raced → exec i t = exec i { s with inputs := rest }) ∧
          (s.KeepsDuty i rest → t.raced = s.raced)) ∨
        (t.busy = false ∧ t.trace = s.trace ∧ exec i { s with inputs := rest } = .next t)) ∧
      ∀ a width later b c, (∃ v, rest = .store a width v :: later) ∨ (rest = .load a width :: later ∧ writesRam i = true) →
        s.touchesWindow a width = false → s.inBounds a width = true → a ≤ b → b < a + width → usesByte i s b = true →
        t.trace = s.trace ++ [.ramRead b c] → c = Config.freeByte s.draws b

/-! The register window and STATUS (spec/10_state.md). -/

/-- R23: a host write to CMD while BUSY = 0 latches the word as the command in progress (so that
BUSY = 1), with none of its events made, and clears ERR and TX_REQ; nothing else of the machine changes. -/
def Obligations.CmdWriteAcceptsTheCommand : Prop :=
  ∀ (s : State) (w : Word) (rest : List Input), s.busy = false →
    s.inputs = .store s.blkBase 4 w.toNat :: rest →
    step s = .next { s with
      cmd := some w, progress := [], raced := [], err := none, txReq := false, inputs := rest, draws := s.draws + 1 }

/-- R44: while BUSY = 1 a host write to a writable register is dropped and sets OVERRUN; a write to a
read-only or reserved offset does nothing at all. -/
def Obligations.WritesWhileBusyAreDropped : Prop :=
  ∀ (s : State) (k v : Nat) (rest : List Input), s.busy = true → k < 64 →
    s.inputs = .store (s.blkBase + 4 * k) 4 v :: rest →
    step s = .next { s with
      overrun := s.overrun || decide (4 * k ∈ [0x00, 0x08, 0x0C, 0x24, 0x28, 0x2C, 0x30, 0x34, 0x38])
      inputs := rest
      draws := s.draws + 1 }

/-- R22, R42: a host write to a read-only or reserved offset changes no register, and a reserved or
write-only offset reads as 0, whether or not BUSY is set. -/
def Obligations.ReadOnlyAndReservedOffsets : Prop :=
  ∀ (s : State) (k : Nat) (rest : List Input), k < 64 →
    (∀ v, 4 * k ∉ [0x00, 0x08, 0x0C, 0x24, 0x28, 0x2C, 0x30, 0x34, 0x38] →
      s.inputs = .store (s.blkBase + 4 * k) 4 v :: rest →
      step s = .next { s with inputs := rest, draws := s.draws + 1 }) ∧
    ((4 * k = 0x00 ∨ 0x38 ≤ 4 * k) →
      s.inputs = .load (s.blkBase + 4 * k) 4 :: rest →
      step s = .next { s with inputs := rest, draws := s.draws + 1, hostReads := s.hostReads ++ [0] })

/-- R29 to R33, R38, R39: a host write to ARG0, ARG1, HOST_IP, HOST_MAC_HI, HOST_MAC_LO, RP_BASE or RP_MODE
while BUSY = 0 loads the implemented bits, sets the register's configuration bit, and changes nothing
else. The host's identity is octets in wire order, the first in the highest bits. -/
def Obligations.HostWritesLoadTheRegisters : Prop :=
  ∀ (s t : State) (k : Nat) (v : Word) (rest : List Input), s.busy = false →
    s.inputs = .store (s.blkBase + 4 * k) 4 v.toNat :: rest →
    (k, t) ∈
      [(2, { s with arg0 := v }), (3, { s with arg1 := v }), (9, { s with hostIp := v, ipSet := true }),
       (10, { s with hostMacHi := v.extractLsb' 0 16, macHiSet := true }),
       (11, { s with hostMacLo := v, macLoSet := true }), (12, { s with rpBase := v, baseSet := true }),
       (13, { s with rpMode := if v.getLsbD 0 then .portMapped else .memoryMapped, modeSet := true })] →
    step s = .next { t with inputs := rest, draws := s.draws + 1 } ∧
    t.hostMacBytes =
      [t.hostMacHi.extractLsb' 8 8, t.hostMacHi.extractLsb' 0 8, t.hostMacLo.extractLsb' 24 8,
       t.hostMacLo.extractLsb' 16 8, t.hostMacLo.extractLsb' 8 8, t.hostMacLo.extractLsb' 0 8] ∧
    t.hostIpBytes =
      [t.hostIp.extractLsb' 24 8, t.hostIp.extractLsb' 16 8, t.hostIp.extractLsb' 8 8, t.hostIp.extractLsb' 0 8]

/-- R41: a host write of a BAR0 value to RP_BAR while BUSY = 0 loads MODE from bit 0 and RP_BASE with bit 0
cleared, sets `base_set` and `mode_set`, and changes nothing else; a read of RP_BAR returns 0. -/
def Obligations.RpBarLoadsTheRegisterPort : Prop :=
  ∀ (s : State) (b : Word) (rest : List Input),
    (s.busy = false → s.inputs = .store (s.blkBase + 0x38) 4 b.toNat :: rest →
      ∃ base : Word, base.toNat = b.toNat / 2 * 2 ∧
        step s = .next { s with
          rpMode := if b.getLsbD 0 then .portMapped else .memoryMapped, rpBase := base
          baseSet := true, modeSet := true, inputs := rest, draws := s.draws + 1 }) ∧
    (s.inputs = .load (s.blkBase + 0x38) 4 :: rest →
      step s = .next { s with inputs := rest, draws := s.draws + 1, hostReads := s.hostReads ++ [0] })

/-- R24, R29, R200: the fields of STATUS, bit by bit, with the codes of the errors in ERR; bits 31:11 read as 0. -/
def Obligations.StatusFields : Prop :=
  ∀ s : State,
    (∀ p ∈ [(none, 0), (some Err.illegalCmd, 1), (some .busFault, 2), (some .notConfigured, 3), (some .regAddr, 4),
        (some .portRange, 5), (some .frameShort, 6), (some .malformed, 7)],
      s.err = p.1 → s.status.extractLsb' 0 4 = p.2) ∧
    s.status.getLsbD 4 = s.cmd.isSome ∧
    s.status.getLsbD 5 = s.txReq ∧
    s.status.getLsbD 6 = s.overrun ∧
    s.status.getLsbD 7 = s.stickyErr ∧
    s.status.getLsbD 8 = s.ipSet ∧
    s.status.getLsbD 9 = (s.macHiSet && s.macLoSet) ∧
    s.status.getLsbD 10 = (s.baseSet && s.modeSet) ∧
    s.status.toNat < 2 ^ 11

/-- R21, R243: a host access to the window that is not 32 bits wide at a 4-aligned offset gets no step: the
host is stuck, and the other agents go on. The next input of another agent comes first; a command in
progress runs on past the stuck host, as it would with no input to come, and the access is still to come
afterwards. That the machine ends in a named fault when nothing else is left is the model's form of a
stuck host (log entry 9). -/
def Obligations.OtherWindowAccessesAreStuck : Prop :=
  ∀ (s : State) (offset width v : Nat) (rest : List Input), offset < 256 → 0 < width →
    (width ≠ 4 ∨ offset % 4 ≠ 0) →
    ∀ input ∈ [Input.store (s.blkBase + offset) width v, .load (s.blkBase + offset) width], s.inputs = input :: rest →
      (rest.all Input.isHost = true →
        (s.busy = false → step s = .fault (.hostAccessNotAdmitted (s.blkBase + offset) width)) ∧
        (s.busy = true → ∃ t, step s = .next t ∧ t.busy = false ∧ t.inputs = s.inputs ∧
          step { s with inputs := [] } = .next { t with inputs := [] })) ∧
      ∀ hosts other later, rest = hosts ++ other :: later → hosts.all Input.isHost = true → other.isHost = false →
        step s = .next { s with inputs := other :: input :: (hosts ++ later) }

/-- R22, R30 to R39, R45: while BUSY = 0 the host reads the result registers as they are, with
TX_LEN[31:16] = 0; whether or not BUSY is set STATUS, the operands, and the configuration registers that
have been written read as they are, with HOST_MAC_HI[31:16] = 0 and RP_MODE[31:1] = 0. -/
def Obligations.HostReadsOfTheWindow : Prop :=
  ∀ (s : State) (k : Nat) (v : Word) (rest : List Input), s.inputs = .load (s.blkBase + 4 * k) 4 :: rest →
    ((k, v) ∈ [(1, s.status), (2, s.arg0), (3, s.arg1)] ∨
      (s.busy = false ∧
        (k, v) ∈ [(4, s.result), (5, s.classReg), (6, s.hdroff), (7, s.txAddr), (8, s.txLen.setWidth 32)]) ∨
      (k, true, v) ∈
        [(9, s.ipSet, s.hostIp), (10, s.macHiSet, s.hostMacHi.setWidth 32), (11, s.macLoSet, s.hostMacLo),
         (12, s.baseSet, s.rpBase), (13, s.modeSet, if s.rpMode = .portMapped then 1 else 0)]) →
    step s = .next { s with inputs := rest, draws := s.draws + 1, hostReads := s.hostReads ++ [v.toNat] }

/-- R233, R234 (the boot sequence): from any idle state, four host writes that give the host its identity and
load RP_BAR end with the three configuration bits of STATUS set and its other bits as they were. -/
def Obligations.BootSequenceConfigures : Prop :=
  ∀ (s : State) (ip hi lo b : Word), s.busy = false →
    s.inputs = [.store (s.blkBase + 0x24) 4 ip.toNat, .store (s.blkBase + 0x28) 4 hi.toNat,
      .store (s.blkBase + 0x2C) 4 lo.toNat, .store (s.blkBase + 0x38) 4 b.toNat] →
    ∃ t : State, Sys2Proof.core.run 4 s = .next t ∧ t.inputs = [] ∧ t.status = s.status ||| 0x700

/-! Reset (spec/10_state.md R46, spec/70_reset_and_hazards.md R230, R231). -/

/-- R46: STATUS, the operand and result registers and the configuration bits are 0 after reset, no
command is in progress and the log stream is empty. The registers that R46 leaves unspecified read as
a draw limited to their implemented bits. -/
def Obligations.ResetStateIsAsStated : Prop :=
  State.reset.status = 0 ∧ State.reset.arg0 = 0 ∧ State.reset.arg1 = 0 ∧ State.reset.result = 0 ∧
  State.reset.classReg = 0 ∧ State.reset.hdroff = 0 ∧ State.reset.txAddr = 0 ∧ State.reset.txLen = 0 ∧
  State.reset.ipSet = false ∧ State.reset.macHiSet = false ∧ State.reset.macLoSet = false ∧
  State.reset.baseSet = false ∧ State.reset.modeSet = false ∧
  State.reset.cmd = none ∧ State.reset.logStream = [] ∧
  (∀ r ∈ [WinReg.hostIp, .hostMacLo, .rpBase],
    State.reset.windowValue r = Config.freeWord State.reset.draws 0 &&& 0xFFFFFFFF) ∧
  State.reset.windowValue .hostMacHi = Config.freeWord State.reset.draws 0 &&& 0xFFFF ∧
  State.reset.windowValue .rpMode = Config.freeWord State.reset.draws 0 &&& 1

/-- R230: a reset while no command is in progress puts every register at its reset value and touches no
RAM byte, no device and no port, and emits no log event. That the five registers R46 leaves unspecified
hold 0 in their fields is the model's choice (log entry 1), and so is that the events before the reset
are kept apart, in `earlier` (log entry 10). -/
def Obligations.ResetOfAnIdleBlock : Prop :=
  ∀ (s : State) (rest : List Input), s.busy = false → s.inputs = .reset :: rest →
    step s = .next { State.reset with
      mem := s.mem, earlier := s.earlier ++ s.trace, ram := s.ram, blkBase := s.blkBase, inputs := rest
      hostReads := s.hostReads, mmioAnswers := s.mmioAnswers, portAnswers := s.portAnswers, draws := s.draws + 1 }

/-- R231: a reset while a command is in progress stops it between two of its events. The events before
that point have happened and no other does; TX_REQ is 0 and every register is at its reset value; a RAM
byte that the host has not raced on, and that the command has not written and would not have written,
keeps its value. That the five registers R46 leaves unspecified hold 0 in their fields is the model's
choice (log entry 1), and so is how the stopping point is drawn (log entry 10). -/
def Obligations.ResetDuringACommand : Prop :=
  ∀ (s : State) (rest : List Input), s.busy = true → s.inputs = .reset :: rest →
    ∃ (t : State) (done later : List Event),
      step s = .next t ∧
      ({ s with inputs := rest } : State).pendingEvents = done ++ later ∧
      t.earlier = s.earlier ++ s.trace ++ done ∧
      t = { State.reset with
        mem := t.mem, earlier := t.earlier, ram := s.ram, blkBase := s.blkBase, inputs := rest
        hostReads := s.hostReads, mmioAnswers := t.mmioAnswers, portAnswers := t.portAnswers, draws := t.draws } ∧
      ∀ a, a ∉ s.raced → (∀ b, Event.ramWrite a b ∉ s.pastEvents ++ done ++ later) → t.mem.read a = s.mem.read a

/-! Errors and completion (spec/60_exceptions.md). -/

/-- R28: OVERRUN and STICKY_ERR, once set, stay set at every step but a reset. -/
def Obligations.StickyBitsStayUntilReset : Prop :=
  ∀ s t : State, step s = .next t → (∀ rest, s.inputs ≠ .reset :: rest) →
    (s.overrun = true → t.overrun = true) ∧ (s.stickyErr = true → t.stickyErr = true)

/-- R205, R204, R243: a command in progress completes at the block's next turn, whatever its word, however
many of its events are made and whatever races: BUSY is 0 afterwards, STICKY_ERR is set if ERR is not 0
and unchanged if ERR is 0. The turn makes all that is left of the command (log entry 5), and the device
always answers (log entry 4). -/
def Obligations.EveryCommandCompletes : Prop :=
  ∀ s : State, s.busy = true → s.inputs = [] →
    ∃ t, step s = .next t ∧ t.busy = false ∧
      (t.err = none → t.stickyErr = s.stickyErr) ∧ (t.err ≠ none → t.stickyErr = true)

/-- R203: a command that ends with an error has made no event but reads of admitted bytes of the range it
was given, and changes ERR, STICKY_ERR and BUSY and nothing else: no RAM byte, device, port, log event,
result register, configuration register or transmit request. -/
def Obligations.ErrorsArePrecise : Prop :=
  ∀ (i : Instr) (s t : State) (e : Err), s.Fresh → exec i s = .next t → t.err = some e →
    ∃ evs, t = (s.failed e).saw evs ∧
      ∀ x ∈ evs, ∃ a, x = .ramRead a (s.mem.read a) ∧ usesByte i s a = true ∧ s.memOK a = true

/-- R201: the errors each command can raise. -/
def Obligations.EachCommandRaisesOnlyItsErrors : Prop :=
  ∀ (i : Instr) (s t : State) (e : Err), i.wellFormed = true → exec i s = .next t → t.err = some e →
    e ∈ (match i with
      | .csumCompute => [.illegalCmd, .busFault]
      | .csumVerify => [.illegalCmd, .busFault]
      | .regRead => [.notConfigured, .regAddr, .portRange]
      | .regWrite => [.notConfigured, .regAddr, .portRange]
      | .regFlag _ => [.notConfigured, .regAddr, .portRange]
      | .fieldGet _ _ _ => [.busFault]
      | .fieldSet _ _ _ => [.busFault]
      | .classify => [.illegalCmd, .busFault, .notConfigured, .frameShort, .malformed]
      | .arpReply => [.illegalCmd, .busFault, .notConfigured, .frameShort]
      | .icmpEchoReply => [.illegalCmd, .busFault, .frameShort, .malformed]
      | .dispatch => [.illegalCmd, .busFault, .notConfigured, .frameShort, .malformed] : List Err)

/-- R202, R160, R161: the common checks of the commands whose ARG1 is a length come in their order:
ARG1[31:16], then the configuration, then the range. -/
def Obligations.LengthCommandsCheckInOrder : Prop :=
  ∀ s : State, s.Fresh →
    (s.lenHigh ≠ 0 →
      ∀ i ∈ [Instr.csumCompute, .csumVerify, .classify, .arpReply, .icmpEchoReply, .dispatch],
        exec i s = .next (s.failed .illegalCmd)) ∧
    (s.lenHigh = 0 → s.hostIpSet = false →
      ∀ i ∈ [Instr.classify, .arpReply, .dispatch], exec i s = .next (s.failed .notConfigured)) ∧
    (s.lenHigh = 0 → s.hostMacSet = false →
      ∀ i ∈ [Instr.arpReply, .dispatch], exec i s = .next (s.failed .notConfigured)) ∧
    (s.lenHigh = 0 → s.inBounds s.addr s.len = false →
      (∀ i ∈ [Instr.csumCompute, .csumVerify, .icmpEchoReply], exec i s = .next (s.failed .busFault)) ∧
      (s.hostIpSet = true → exec .classify s = .next (s.failed .busFault)) ∧
      (s.hostIpSet = true → s.hostMacSet = true →
        ∀ i ∈ [Instr.arpReply, .dispatch], exec i s = .next (s.failed .busFault)))

/-- R32, R33, R29 to R31, R38, R39, R8: no command changes an operand register, a configuration register
or bit, OVERRUN, the platform's parameters, or what the host has read and still has to do. -/
def Obligations.CommandsLeaveOperandsAndConfiguration : Prop :=
  ∀ (i : Instr) (s t : State), exec i s = .next t →
    t.arg0 = s.arg0 ∧ t.arg1 = s.arg1 ∧ t.hostIp = s.hostIp ∧ t.hostMacHi = s.hostMacHi ∧
    t.hostMacLo = s.hostMacLo ∧ t.rpBase = s.rpBase ∧ t.rpMode = s.rpMode ∧ t.ipSet = s.ipSet ∧
    t.macHiSet = s.macHiSet ∧ t.macLoSet = s.macLoSet ∧ t.baseSet = s.baseSet ∧ t.modeSet = s.modeSet ∧
    t.overrun = s.overrun ∧ t.ram = s.ram ∧ t.blkBase = s.blkBase ∧ t.earlier = s.earlier ∧
    t.inputs = s.inputs ∧ t.hostReads = s.hostReads

/-- R48: each command leaves the result registers that it does not write. -/
def Obligations.CommandsWriteOnlyTheirResultRegisters : Prop :=
  ∀ (i : Instr) (s t : State), exec i s = .next t →
    ((i = .regWrite ∨ (∃ h f c, i = .fieldSet h f c) ∨ i = .classify ∨ i = .arpReply ∨ i = .icmpEchoReply ∨
        i = .dispatch) → t.result = s.result) ∧
    ((i ≠ .classify ∧ i ≠ .dispatch) → t.classReg = s.classReg ∧ t.hdroff = s.hdroff) ∧
    ((i ≠ .arpReply ∧ i ≠ .icmpEchoReply ∧ i ≠ .dispatch) →
      t.txAddr = s.txAddr ∧ t.txLen = s.txLen ∧ t.txReq = s.txReq)

/-- R27, R37, R176: TX_REQ is set exactly by a command that posted a transmit request, which is then the
command's last event and stands in TX_ADDR and TX_LEN; otherwise both registers are unchanged. -/
def Obligations.TransmitRequestIsTheLastEvent : Prop :=
  ∀ (i : Instr) (s t : State), s.Fresh → exec i s = .next t → s.txReq = false →
    ∃ evs, t.trace = s.trace ++ evs ∧
      ((t.txReq = false ∧ t.txAddr = s.txAddr ∧ t.txLen = s.txLen ∧ ∀ a n, Event.postTx a n ∉ evs) ∨
        (t.txReq = true ∧
          ∃ before, evs = before ++ [.postTx t.txAddr t.txLen] ∧ ∀ a n, Event.postTx a n ∉ before))

/-- R236, R160, R50: a command reads and writes RAM only in the admitted part of the range it was given, and
a command of the checksum, register-port or decode families writes none. -/
def Obligations.CommandsWriteRamOnlyInTheirRange : Prop :=
  ∀ (i : Instr) (s t : State), s.Fresh → exec i s = .next t →
    (∀ a, usesByte i s a = false → t.mem.read a = s.mem.read a) ∧
    (writesRam i = false → t.mem = s.mem) ∧
    ∃ evs, t.trace = s.trace ++ evs ∧
      ∀ a b, Event.ramWrite a b ∈ evs ∨ Event.ramRead a b ∈ evs → usesByte i s a = true ∧ s.memOK a = true

/-! The checksum family (spec/41_checksum.md). -/

/-- R125: CSUM_COMPUTE reads the range once, byte by byte in ascending order, puts 0xFFFF minus its folded
word sum into RESULT and changes nothing else; it raises ILLEGAL_CMD when ARG1[31:16] is not 0, then BUS_FAULT when the range is not in bounds. -/
def Obligations.CsumComputeReturnsTheChecksum : Prop :=
  decode 0x00000001 = .ok .csumCompute ∧
  ∀ s : State, s.Fresh →
    (s.arg1.toNat ≥ 2 ^ 16 → exec .csumCompute s = .next (s.failed .illegalCmd)) ∧
    (s.arg1.toNat < 2 ^ 16 → s.inBounds s.arg0.toNat s.arg1.toNat = false →
      exec .csumCompute s = .next (s.failed .busFault)) ∧
    (s.arg1.toNat < 2 ^ 16 → s.inBounds s.arg0.toNat s.arg1.toNat = true →
      exec .csumCompute s = .next { s.ended with
        result := BitVec.ofNat 32 (0xFFFF - fold (wordSum (s.mem.bytes s.arg0.toNat s.arg1.toNat)))
        trace := s.trace ++ ramReads s.mem s.arg0.toNat s.arg1.toNat })

/-- R126: CSUM_VERIFY reads the range once, byte by byte in ascending order, puts 1 into RESULT when its
folded word sum is 0xFFFF and 0 when it is not, without error, and changes nothing else; its errors are
those of CSUM_COMPUTE. -/
def Obligations.CsumVerifyReportsValidity : Prop :=
  decode 0x00000002 = .ok .csumVerify ∧
  ∀ s : State, s.Fresh →
    (s.arg1.toNat ≥ 2 ^ 16 → exec .csumVerify s = .next (s.failed .illegalCmd)) ∧
    (s.arg1.toNat < 2 ^ 16 → s.inBounds s.arg0.toNat s.arg1.toNat = false →
      exec .csumVerify s = .next (s.failed .busFault)) ∧
    (s.arg1.toNat < 2 ^ 16 → s.inBounds s.arg0.toNat s.arg1.toNat = true →
      exec .csumVerify s = .next { s.ended with
        result := if fold (wordSum (s.mem.bytes s.arg0.toNat s.arg1.toNat)) = 0xFFFF then 1 else 0
        trace := s.trace ++ ramReads s.mem s.arg0.toNat s.arg1.toNat })

/-- R121, R122: the fold is the loop of R121 and ends at or below 0xFFFF; its laws; and the word sum of a
range of at most 65535 bytes never passes 0x7FFE8100, so a 32-bit accumulator never overflows. -/
def Obligations.FoldLaws : Prop :=
  (∀ sum, fold sum = if sum / 65536 = 0 then sum else fold (sum % 65536 + sum / 65536)) ∧
  (∀ sum, fold sum ≤ 0xFFFF) ∧
  (∀ b : List Byte, b.length ≤ 65535 → wordSum b ≤ 0x7FFE8100) ∧
  (∀ sum, fold sum = 0 ↔ sum = 0) ∧
  (∀ sum, 0 < sum → 1 ≤ fold sum ∧ fold sum ≤ 0xFFFF ∧ fold sum % 0xFFFF = sum % 0xFFFF) ∧
  (∀ sum, sum < 2 ^ 32 → foldLoop 2 sum = fold sum) ∧
  (∀ sum, fold sum = 0xFFFF ↔ 0 < sum ∧ sum % 0xFFFF = 0) ∧
  (∀ b c : List Byte, b.length % 2 = 0 → wordSum (b ++ c) = wordSum b + wordSum c) ∧
  (∀ x y, fold (x + y) = fold (fold x + fold y))

/-- R127: a checksum embedded in its zeroed field, little-endian at an even offset of the range and high
byte first at an odd one, makes the range valid. -/
def Obligations.EmbeddedChecksumIsValid : Prop :=
  ∀ (before after : List Byte),
    let c := BitVec.ofNat 16 (checksum (before ++ [0, 0] ++ after))
    (before.length % 2 = 0 → valid (before ++ [c.extractLsb' 0 8, c.extractLsb' 8 8] ++ after) = true) ∧
    (before.length % 2 = 1 → valid (before ++ [c.extractLsb' 8 8, c.extractLsb' 0 8] ++ after) = true)

/-- R129: flipping any single bit of a valid range makes it invalid. -/
def Obligations.SingleBitFlipIsDetected : Prop :=
  ∀ (before after : List Byte) (b : Byte) (j : Nat), j < 8 → valid (before ++ [b] ++ after) = true →
    valid (before ++ [b ^^^ BitVec.twoPow 8 j] ++ after) = false

/-- R130: exchanging two fields of equal even length that start at even offsets leaves the word sum. -/
def Obligations.SwappedFieldsKeepTheWordSum : Prop :=
  ∀ a x b y c : List Byte, a.length % 2 = 0 → b.length % 2 = 0 → x.length % 2 = 0 → x.length = y.length →
    wordSum (a ++ x ++ b ++ y ++ c) = wordSum (a ++ y ++ b ++ x ++ c)

/-- R125 to R127, §8 of the source (spec/95_test_vectors.md S2): on the machine, computing the checksum
of a range whose 2-byte field at an even offset `k` is zero, storing RESULT's little-endian bytes
there, and verifying the range gives RESULT = 1. -/
def Obligations.ComputeEmbedVerifyOnTheMachine : Prop :=
  ∀ (s : State) (k : Nat), s.Fresh → s.mem.wf → s.arg1.toNat < 2 ^ 16 → s.inBounds s.arg0.toNat s.arg1.toNat = true →
    k % 2 = 0 → k + 2 ≤ s.arg1.toNat → s.mem.bytes (s.arg0.toNat + k) 2 = [0, 0] →
    ∃ t u : State,
      exec .csumCompute s = .next t ∧
      exec .csumVerify { t with mem := t.mem.writeBytes (s.arg0.toNat + k) (bytesLE 2 t.result.toNat) } = .next u ∧
      u.err = none ∧ u.result = 1

/-! The register port (spec/40_register_port.md). -/

/-- R101, R102: the errors of the register port, in their order, before any access; in mode 1 the register
offset is not checked. -/
def Obligations.RegisterPortErrors : Prop :=
  ∀ (s : State) (en : Bool), s.Fresh → ∀ i ∈ [Instr.regRead, .regWrite, .regFlag en],
    (s.rpSet = false → exec i s = .next (s.failed .notConfigured)) ∧
    (s.rpSet = true → s.rpMode = .memoryMapped →
      ((s.rpBase.toNat + s.arg0.toNat) % 4 ≠ 0 ∨ 2 ^ 32 < s.rpBase.toNat + s.arg0.toNat + 4) →
      exec i s = .next (s.failed .regAddr)) ∧
    (s.rpSet = true → s.rpMode = .portMapped → 0xFFF8 < s.rpBase.toNat →
      exec i s = .next (s.failed .portRange))

/-- R103, R104, R105, R107: REG_READ makes one cell read, or one address-port write and one data-port
read 4 ports later, then one log event; RESULT is whatever the device answered (log entry 4 says where
the model takes the answer from). -/
def Obligations.RegReadReturnsTheDeviceAnswer : Prop :=
  decode 0x00000010 = .ok .regRead ∧
  ∀ s : State, s.Fresh → s.rpSet = true →
    (s.rpMode = .memoryMapped → (s.rpBase.toNat + s.arg0.toNat) % 4 = 0 →
      s.rpBase.toNat + s.arg0.toNat + 4 ≤ 2 ^ 32 →
      ∃ v, (∀ a rest, s.mmioAnswers = a :: rest → v = a) ∧
        exec .regRead s = .next { s.ended with
          result := v
          mmioAnswers := s.mmioAnswers.tail
          trace := s.trace ++
            [.bus (.mmioRead (BitVec.ofNat 32 (s.rpBase.toNat + s.arg0.toNat)) v),
             .log (.regAccess s.arg0 .read v)] }) ∧
    (s.rpMode = .portMapped → s.rpBase.toNat ≤ 0xFFF8 →
      ∃ v, (∀ a rest, s.portAnswers = a :: rest → v = a) ∧
        exec .regRead s = .next { s.ended with
          result := v
          portAnswers := s.portAnswers.tail
          trace := s.trace ++
            [.bus (.portWrite (BitVec.ofNat 16 s.rpBase.toNat) s.arg0),
             .bus (.portRead (BitVec.ofNat 16 (s.rpBase.toNat + 4)) v),
             .log (.regAccess s.arg0 .read v)] })

/-- R103, R104, R108: REG_WRITE makes one cell write, or one address-port write and one data-port write,
then one log event; RESULT is unchanged. -/
def Obligations.RegWriteWritesTheDevice : Prop :=
  decode 0x00000011 = .ok .regWrite ∧
  ∀ s : State, s.Fresh → s.rpSet = true →
    (s.rpMode = .memoryMapped → (s.rpBase.toNat + s.arg0.toNat) % 4 = 0 →
      s.rpBase.toNat + s.arg0.toNat + 4 ≤ 2 ^ 32 →
      exec .regWrite s = .next { s.ended with
        trace := s.trace ++
          [.bus (.mmioWrite (BitVec.ofNat 32 (s.rpBase.toNat + s.arg0.toNat)) s.arg1),
           .log (.regAccess s.arg0 .write s.arg1)] }) ∧
    (s.rpMode = .portMapped → s.rpBase.toNat ≤ 0xFFF8 →
      exec .regWrite s = .next { s.ended with
        trace := s.trace ++
          [.bus (.portWrite (BitVec.ofNat 16 s.rpBase.toNat) s.arg0),
           .bus (.portWrite (BitVec.ofNat 16 (s.rpBase.toNat + 4)) s.arg1),
           .log (.regAccess s.arg0 .write s.arg1)] })

/-- R109, R103, R104: REG_FLAG reads the register, sets (EN = 1) or clears (EN = 0) the mask bits of the
value it read, writes that value back and puts it into RESULT, with one log event for each access. Where
the model takes the device's answer from, the head of a list in State that then loses it, is the model's
choice (log entry 4). -/
def Obligations.RegFlagSetsOrClearsTheMask : Prop :=
  decode 0x00000112 = .ok (.regFlag true) ∧ decode 0x00000012 = .ok (.regFlag false) ∧
  ∀ (s : State) (en : Bool), s.Fresh → s.rpSet = true →
    (s.rpMode = .memoryMapped → (s.rpBase.toNat + s.arg0.toNat) % 4 = 0 →
      s.rpBase.toNat + s.arg0.toNat + 4 ≤ 2 ^ 32 →
      ∃ v nv, (∀ a rest, s.mmioAnswers = a :: rest → v = a) ∧
        (∀ k, nv.getLsbD k = if s.arg1.getLsbD k then en else v.getLsbD k) ∧
        exec (.regFlag en) s = .next { s.ended with
          result := nv
          mmioAnswers := s.mmioAnswers.tail
          trace := s.trace ++
            [.bus (.mmioRead (BitVec.ofNat 32 (s.rpBase.toNat + s.arg0.toNat)) v),
             .log (.regAccess s.arg0 .read v),
             .bus (.mmioWrite (BitVec.ofNat 32 (s.rpBase.toNat + s.arg0.toNat)) nv),
             .log (.regAccess s.arg0 .write nv)] }) ∧
    (s.rpMode = .portMapped → s.rpBase.toNat ≤ 0xFFF8 →
      ∃ v nv, (∀ a rest, s.portAnswers = a :: rest → v = a) ∧
        (∀ k, nv.getLsbD k = if s.arg1.getLsbD k then en else v.getLsbD k) ∧
        exec (.regFlag en) s = .next { s.ended with
          result := nv
          portAnswers := s.portAnswers.tail
          trace := s.trace ++
            [.bus (.portWrite (BitVec.ofNat 16 s.rpBase.toNat) s.arg0),
             .bus (.portRead (BitVec.ofNat 16 (s.rpBase.toNat + 4)) v),
             .log (.regAccess s.arg0 .read v),
             .bus (.portWrite (BitVec.ofNat 16 s.rpBase.toNat) s.arg0),
             .bus (.portWrite (BitVec.ofNat 16 (s.rpBase.toNat + 4)) nv),
             .log (.regAccess s.arg0 .write nv)] })

/-! The header codec (spec/42_header_codec.md). -/

/-- R152, R150, R151: FIELD_GET reads the chunk's bytes in ascending order, puts their big-endian value, or
the nibble, into RESULT and changes nothing else, or raises BUS_FAULT when the chunk's bytes are not in bounds. -/
def Obligations.FieldGetReadsTheField : Prop :=
  ∀ (s : State) (hdr : BitVec 4) (field : BitVec 8) (chunk : BitVec 4) (l : FieldLayout),
    s.Fresh → layout hdr field = some l → validSelector hdr field chunk = true →
    (s.inBounds (s.arg0.toNat + l.offset + 4 * chunk.toNat) (min 4 (l.width - 4 * chunk.toNat)) = false →
      exec (.fieldGet hdr field chunk) s = .next (s.failed .busFault)) ∧
    (s.inBounds (s.arg0.toNat + l.offset + 4 * chunk.toNat) (min 4 (l.width - 4 * chunk.toNat)) = true →
      ∃ v : Word,
        exec (.fieldGet hdr field chunk) s = .next { s.ended with
          result := v
          trace := s.trace ++
            ramReads s.mem (s.arg0.toNat + l.offset + 4 * chunk.toNat) (min 4 (l.width - 4 * chunk.toNat)) } ∧
        v.toNat =
          (match l.kind with
          | .bytes =>
            beNat (s.mem.bytes (s.arg0.toNat + l.offset + 4 * chunk.toNat) (min 4 (l.width - 4 * chunk.toNat)))
          | .highNibble => (s.mem.read (s.arg0.toNat + l.offset)).toNat / 16
          | .lowNibble => (s.mem.read (s.arg0.toNat + l.offset)).toNat % 16))

/-- R153, R150, R151: FIELD_SET writes the low bytes of the value big-endian into the chunk, or replaces
one nibble and keeps the other; every byte outside the chunk, RESULT and every other register are
unchanged. Its only events are the writes of the chunk's bytes in ascending order, after the read of a
nibble field's byte. It raises BUS_FAULT when the chunk's bytes are not in bounds. -/
def Obligations.FieldSetWritesTheField : Prop :=
  ∀ (s : State) (hdr : BitVec 4) (field : BitVec 8) (chunk : BitVec 4) (l : FieldLayout), s.Fresh → s.mem.wf →
    layout hdr field = some l → validSelector hdr field chunk = true →
    let a := s.arg0.toNat + l.offset + 4 * chunk.toNat
    let w := min 4 (l.width - 4 * chunk.toNat)
    (s.inBounds a w = false → exec (.fieldSet hdr field chunk) s = .next (s.failed .busFault)) ∧
    (s.inBounds a w = true →
      ∃ t, exec (.fieldSet hdr field chunk) s = .next t ∧ s.EndedWritingRam t ∧
        (∀ b, (b < a ∨ a + w ≤ b) → t.mem.read b = s.mem.read b) ∧
        t.trace = s.trace ++ (if l.kind = .bytes then [] else ramReads s.mem a 1) ++ ramWrites a (t.mem.bytes a w) ∧
        (match l.kind with
        | .bytes => beNat (t.mem.bytes a w) = s.arg1.toNat % 2 ^ (8 * w)
        | .highNibble => (t.mem.read a).toNat = 16 * (s.arg1.toNat % 16) + (s.mem.read a).toNat % 16
        | .lowNibble => (t.mem.read a).toNat = 16 * ((s.mem.read a).toNat / 16) + s.arg1.toNat % 16))

/-- R152, R153 (derived): a field that has been set reads back as the value written, cut to the chunk. -/
def Obligations.FieldSetThenFieldGetReadsItBack : Prop :=
  ∀ (s t : State) (hdr : BitVec 4) (field : BitVec 8) (chunk : BitVec 4), s.Fresh → s.mem.wf →
    exec (.fieldSet hdr field chunk) s = .next t → t.err = none →
    ∃ u, exec (.fieldGet hdr field chunk) t = .next u ∧ u.err = none ∧ u.mem = t.mem ∧
      ∃ bits ≤ 32, u.result.toNat = s.arg1.toNat % 2 ^ bits ∧
        ∀ l, layout hdr field = some l →
          bits = if l.kind = .bytes then 8 * min 4 (l.width - 4 * chunk.toNat) else 4

/-! Frames (spec/43_dispatch.md). -/

/-- R163, R169, R162: CLASSIFY of an ARP frame reads the ethertype, OPER and TPA, and gives class 1, with
action 1 exactly for a request (OPER = 1) for this host's address; L3OFF = 14 and L4OFF = 0. -/
def Obligations.ClassifyOfAnArpFrame : Prop :=
  ∀ s : State, s.Fresh → s.FrameOK → s.hostIpSet = true → s.Ethertype 0x0806 → 42 ≤ s.len →
    exec .classify s = .next { s.ended with
      classReg :=
        if s.mem.readBE (s.addr + 20) 2 = 1 ∧ s.mem.bytes (s.addr + 38) 4 = s.hostIpBytes then 0x11 else 0x01
      hdroff := 0x0000000E
      trace := s.trace ++ s.frameReads [(12, 2), (20, 2), (38, 4)] }

/-- R164, R166, R169: CLASSIFY of an IPv4 frame that is not ICMP reads the ethertype, the byte with IHL, and
PROTOCOL, and gives class 3 for TCP, 4 for UDP, 5 for any other protocol, no action, and
L4OFF = 14 + 4 * IHL, when the transport header lies in the frame. -/
def Obligations.ClassifyOfAnIpv4Frame : Prop :=
  ∀ (s : State) (ihl : Nat), s.Fresh → s.FrameOK → s.hostIpSet = true → s.Ipv4Header ihl →
    let t := fun cls : Word => { s.ended with
      classReg := cls, hdroff := BitVec.ofNat 32 (65536 * (14 + 4 * ihl) + 14)
      trace := s.trace ++ s.frameReads [(12, 2), (14, 1), (23, 1)] }
    (s.mem.read (s.addr + 23) = 0x06 → 14 + 4 * ihl + 20 ≤ s.len → exec .classify s = .next (t 0x03)) ∧
    (s.mem.read (s.addr + 23) = 0x11 → 14 + 4 * ihl + 8 ≤ s.len → exec .classify s = .next (t 0x04)) ∧
    (s.mem.read (s.addr + 23) ∉ [0x01, 0x06, 0x11] → exec .classify s = .next (t 0x05))

/-- R165, R169, R173: CLASSIFY of an ICMP frame: class 2, with action 2 for an echo request to this host
whose lengths are consistent; another ICMP message has no action and its lengths are not checked. The
reads are those of R162, R164 and R165, with the two of IcmpLayout for an echo request alone. -/
def Obligations.ClassifyOfAnIcmpFrame : Prop :=
  ∀ (s : State) (ihl len : Nat), s.Fresh → s.FrameOK → s.hostIpSet = true → s.Ipv4Header ihl →
    s.mem.read (s.addr + 23) = 0x01 → 14 + 4 * ihl + 8 ≤ s.len →
    let t := fun (cls : Word) more => { s.ended with
      classReg := cls, hdroff := BitVec.ofNat 32 (65536 * (14 + 4 * ihl) + 14)
      trace := s.trace ++ s.frameReads ([(12, 2), (14, 1), (23, 1), (14 + 4 * ihl, 1), (30, 4)] ++ more) }
    (s.EchoRequest ihl → s.EchoGeometry ihl len → exec .classify s = .next (t 0x22 [(14, 1), (16, 2)])) ∧
    (¬ s.EchoRequest ihl → exec .classify s = .next (t 0x02 []))

/-- R167, R168, R169: CLASSIFY of an IPv6 frame, class 6 with L4OFF = 54 for UDP and class 7 with L4OFF = 0
otherwise, and of a frame of unknown ethertype, class 0 with both offsets 0; neither has an action. It
reads the ethertype and, for IPv6, the next-header byte. -/
def Obligations.ClassifyOfOtherFrames : Prop :=
  ∀ s : State, s.Fresh → s.FrameOK → s.hostIpSet = true →
    let t := fun (cls off : Word) ranges => { s.ended with
      classReg := cls, hdroff := off, trace := s.trace ++ s.frameReads ranges }
    (s.Ethertype 0x86DD → 62 ≤ s.len → s.mem.read (s.addr + 20) = 0x11 →
      exec .classify s = .next (t 0x06 0x0036000E [(12, 2), (20, 1)])) ∧
    (s.Ethertype 0x86DD → 54 ≤ s.len → s.mem.read (s.addr + 20) ≠ 0x11 →
      exec .classify s = .next (t 0x07 0x0000000E [(12, 2), (20, 1)])) ∧
    (∀ et, s.Ethertype et → et ∉ [0x0806, 0x0800, 0x86DD] →
      exec .classify s = .next (t 0x00 0x00000000 [(12, 2)]))

/-- R162 to R167, R173, R202: the size checks of CLASSIFY and DISPATCH, in the order in which the
classification meets them. The command ends with the error after reads of its frame and no other effect.
CLASSIFY needs no configured MAC. -/
def Obligations.ShortAndMalformedFramesAreRefused : Prop :=
  ∀ s : State, s.Fresh → s.FrameOK → s.hostIpSet = true → ∀ i ∈ [Instr.classify, .dispatch],
    (i = .dispatch → s.hostMacSet = true) →
    (s.len < 14 → s.Refused i .frameShort) ∧
    (s.Ethertype 0x0806 → s.len < 42 → s.Refused i .frameShort) ∧
    (s.Ethertype 0x86DD → (s.len < 54 ∨ (s.len < 62 ∧ s.mem.read (s.addr + 20) = 0x11)) →
      s.Refused i .frameShort) ∧
    (s.Ethertype 0x0800 → s.len < 34 → s.Refused i .frameShort) ∧
    (s.Ethertype 0x0800 → 34 ≤ s.len → (s.mem.read (s.addr + 14)).toNat % 16 < 5 →
      s.Refused i .malformed) ∧
    (∀ ihl, s.Ethertype 0x0800 → 34 ≤ s.len → (s.mem.read (s.addr + 14)).toNat % 16 = ihl → 5 ≤ ihl →
      (s.len < 14 + 4 * ihl ∨
        (s.len < 14 + 4 * ihl + 8 ∧ s.mem.read (s.addr + 23) ∈ [0x01, 0x11]) ∨
        (s.len < 14 + 4 * ihl + 20 ∧ s.mem.read (s.addr + 23) = 0x06)) →
      s.Refused i .frameShort) ∧
    (∀ ihl, s.EchoRequest ihl → s.mem.readBE (s.addr + 16) 2 < 4 * ihl + 8 →
      s.Refused i .malformed) ∧
    (∀ ihl, s.EchoRequest ihl → 4 * ihl + 8 ≤ s.mem.readBE (s.addr + 16) 2 →
      s.len < 14 + s.mem.readBE (s.addr + 16) 2 → s.Refused i .frameShort)

/-- R171, R172, R176: ARP_REPLY rewrites the frame's first 42 bytes into the reply, whatever the frame is,
and posts a transmit request of 42 bytes as its last event; its other events are RAM reads and writes,
so it logs nothing; a frame of fewer than 42 bytes is FRAME_SHORT. -/
def Obligations.ArpReplyRewritesTheFrame : Prop :=
  ∀ s : State, s.Fresh → s.mem.wf → s.FrameOK → s.hostIpSet = true → s.hostMacSet = true →
    (s.len < 42 → exec .arpReply s = .next (s.failed .frameShort)) ∧
    (42 ≤ s.len →
      ∃ t evs, exec .arpReply s = .next t ∧ s.EndedPosting t s.arg0 42 ∧
        ArpReplyBytes s.mem t.mem s.arg0.toNat s.hostMacBytes s.hostIpBytes ∧
        t.trace = s.trace ++ evs ++ [.postTx s.arg0 42] ∧ ∀ e ∈ effects evs, e.isRamWrite = true)

/-- R173, R174, R175, R181, R182: ICMP_ECHO_REPLY swaps the Ethernet and IPv4 addresses, sets the ICMP type
to 0, leaves both checksums valid and every other byte unchanged, and posts the full frame length as
its last event; its other events are RAM reads and writes. It needs no configuration and checks no ethertype, protocol, type or address. -/
def Obligations.IcmpEchoReplyRewritesTheFrame : Prop :=
  ∀ (s : State) (ihl len : Nat), s.Fresh → s.mem.wf → s.FrameOK → s.EchoGeometry ihl len →
    ∃ t evs, exec .icmpEchoReply s = .next t ∧ s.EndedPosting t s.arg0 (s.arg1.extractLsb' 0 16) ∧
      EchoReplyBytes s.mem t.mem s.arg0.toNat (4 * ihl) len ∧
      t.trace = s.trace ++ evs ++ [.postTx s.arg0 (s.arg1.extractLsb' 0 16)] ∧
      ∀ e ∈ effects evs, e.isRamWrite = true

/-- R173, R175: the geometry errors of ICMP_ECHO_REPLY, in their order: it ends with the error
after reads of its frame and no other effect. -/
def Obligations.IcmpEchoReplyErrors : Prop :=
  ∀ s : State, s.Fresh → s.FrameOK →
    (s.len < 34 → s.Refused .icmpEchoReply .frameShort) ∧
    (34 ≤ s.len → (s.mem.read (s.addr + 14)).toNat % 16 < 5 →
      s.Refused .icmpEchoReply .malformed) ∧
    (∀ ihl, 34 ≤ s.len → (s.mem.read (s.addr + 14)).toNat % 16 = ihl → 5 ≤ ihl →
      (s.len < 14 + 4 * ihl + 8 → s.Refused .icmpEchoReply .frameShort) ∧
      (14 + 4 * ihl + 8 ≤ s.len → s.mem.readBE (s.addr + 16) 2 < 4 * ihl + 8 →
        s.Refused .icmpEchoReply .malformed) ∧
      (14 + 4 * ihl + 8 ≤ s.len → 4 * ihl + 8 ≤ s.mem.readBE (s.addr + 16) 2 →
        s.len < 14 + s.mem.readBE (s.addr + 16) 2 → s.Refused .icmpEchoReply .frameShort))

/-- R180, R177, R178: DISPATCH answers an ARP request for this host: the class and action registers, the
two header events before any write, the reply in place, and a transmit request of exactly 42 bytes. The
events between are RAM reads. -/
def Obligations.DispatchAnswersAnArpRequest : Prop :=
  ∀ s : State, s.Fresh → s.mem.wf → s.FrameOK → s.hostIpSet = true → s.hostMacSet = true → s.ArpRequest →
    ∃ t evs, exec .dispatch s = .next t ∧
      ({ s with classReg := 0x00000011, hdroff := 0x0000000E } : State).EndedPosting t s.arg0 42 ∧
      ArpReplyBytes s.mem t.mem s.arg0.toNat s.hostMacBytes s.hostIpBytes ∧
      t.trace = s.trace ++ evs ++ [.postTx s.arg0 42] ∧
      ∃ writes, (∀ e ∈ writes, e.isRamWrite = true) ∧
        effects evs =
          [.log (.hdr .eth s.arg0 (s.mem.bytes s.arg0.toNat 14)),
           .log (.hdr .arp (s.arg0 + 14) (s.mem.bytes (s.arg0.toNat + 14) 28))] ++ writes

/-- R181, R177, R178: DISPATCH answers an ICMP echo request to this host: the class and action registers,
the three header events before any write, the reply in place with both checksums valid, and a transmit
request of the full frame length. The events between are RAM reads. -/
def Obligations.DispatchAnswersAnEchoRequest : Prop :=
  ∀ (s : State) (ihl len : Nat), s.Fresh → s.mem.wf → s.FrameOK → s.hostIpSet = true → s.hostMacSet = true →
    s.EchoRequest ihl → s.EchoGeometry ihl len →
    ∃ t evs, exec .dispatch s = .next t ∧
      ({ s with
        classReg := 0x00000022
        hdroff := BitVec.ofNat 32 (65536 * (14 + 4 * ihl) + 14) } : State).EndedPosting t s.arg0
          (s.arg1.extractLsb' 0 16) ∧
      EchoReplyBytes s.mem t.mem s.arg0.toNat (4 * ihl) len ∧
      t.trace = s.trace ++ evs ++ [.postTx s.arg0 (s.arg1.extractLsb' 0 16)] ∧
      ∃ writes, (∀ e ∈ writes, e.isRamWrite = true) ∧
        effects evs =
          [.log (.hdr .eth s.arg0 (s.mem.bytes s.arg0.toNat 14)),
           .log (.hdr .ipv4 (s.arg0 + 14) (s.mem.bytes (s.arg0.toNat + 14) (4 * ihl))),
           .log (.hdr .icmp (s.arg0 + BitVec.ofNat 32 (14 + 4 * ihl))
             (s.mem.bytes (s.arg0.toNat + 14 + 4 * ihl) 8))] ++ writes

/-- R178, R177, R169: when CLASSIFY finds no reply to make, DISPATCH makes the same reads and writes the same
CLASS and HDROFF, then logs the events of the frame's class, each after reading its bytes, and changes
nothing else: the frame is logged and dropped. -/
def Obligations.DispatchLogsAndDropsOtherFrames : Prop :=
  ∀ (s t : State), s.Fresh → s.hostMacSet = true → exec .classify s = .next t → t.err = none →
    t.classReg.toNat < 16 →
    let f := s.arg0.toNat
    let l4 := t.hdroff.toNat / 65536
    let hdr := fun kind off w => ramReads s.mem (f + off) w ++
      [.log (.hdr kind (s.arg0 + BitVec.ofNat 32 off) (s.mem.bytes (f + off) w))]
    ∃ logs : List Event,
      exec .dispatch s = .next (t.saw logs) ∧
      (t.classReg = 0 → logs = ramReads s.mem f s.len ++ [.log (.hexDump s.arg0 (s.mem.bytes f s.len))]) ∧
      (t.classReg = 1 → logs = hdr .eth 0 14 ++ hdr .arp 14 28) ∧
      (t.classReg = 2 → logs = hdr .eth 0 14 ++ hdr .ipv4 14 (l4 - 14) ++ hdr .icmp l4 8) ∧
      (t.classReg = 3 → logs = hdr .eth 0 14 ++ hdr .ipv4 14 (l4 - 14) ++ hdr .tcp l4 20) ∧
      (t.classReg = 4 → logs = hdr .eth 0 14 ++ hdr .ipv4 14 (l4 - 14) ++ hdr .udp l4 8) ∧
      (t.classReg = 5 → logs = hdr .eth 0 14 ++ hdr .ipv4 14 (l4 - 14)) ∧
      (t.classReg = 6 → logs = hdr .eth 0 14 ++ hdr .ipv6 14 40 ++ hdr .udp l4 8) ∧
      (t.classReg = 7 → logs = hdr .eth 0 14 ++ hdr .ipv6 14 40)

/-- R169, R35, R36: CLASSIFY changes nothing but CLASS and HDROFF and makes no event but reads of its frame; a
class it writes is one of 0 to 7 with an action of 0 to 2, action 1 only for class 1 and action 2 only
for class 2. -/
def Obligations.ClassifyWritesOnlyLegalCodes : Prop :=
  ∀ (s t : State), s.Fresh → exec .classify s = .next t → t.err = none →
    (∃ evs, ReadsIn s.mem s.addr s.len evs ∧
      t = { s.ended with classReg := t.classReg, hdroff := t.hdroff, trace := s.trace ++ evs }) ∧
    (t.classReg.toNat < 8 ∨ t.classReg = 0x11 ∨ t.classReg = 0x22)

/-! The host and RAM (spec/20_memory.md). -/

/-- R64, R69: host accesses to admitted RAM while no command is in progress. A store is little-endian (R69's
host is an x86; log entry 11), is what the next reads of those bytes find, and changes no other byte and
no register. A load records the little-endian number of the bytes as they stand in RAM, so every write of
an earlier command is in it (R64), and changes nothing else. -/
def Obligations.HostAccessesToRam : Prop :=
  ∀ (s : State) (a w v : Nat) (rest : List Input), s.busy = false → s.raced = [] →
    s.touchesWindow a w = false → s.inBounds a w = true →
    (s.mem.wf → s.inputs = .store a w v :: rest →
      ∃ t, step s = .next t ∧ t = { s with mem := t.mem, inputs := rest, draws := s.draws + 1 } ∧
        leNat (t.mem.bytes a w) = v % 2 ^ (8 * w) ∧
        ∀ b, (b < a ∨ a + w ≤ b) → t.mem.read b = s.mem.read b) ∧
    (s.inputs = .load a w :: rest →
      step s = .next { s with
        inputs := rest, hostReads := s.hostReads ++ [leNat (s.mem.bytes a w)], draws := s.draws + 1 })

/-- R63, R236: host accesses to admitted RAM while a command is in progress. A store stores its bytes,
little-endian (R69's host is an x86; log entry 11), and races exactly on those of them that the command
uses. A load races on those that the command may write, which are all it uses if it can write RAM (log entry
8), and records the little-endian number of the bytes as they stand if none of them is raced. Nothing else of
the machine changes, so the command itself is not affected otherwise. That a race is noted in the list
`raced` is the model's form of it (log entry 7). -/
def Obligations.HostAccessesWhileBusyRaceOnUsedBytes : Prop :=
  ∀ (s : State) (i : Instr) (w' : Word) (a w v : Nat) (rest : List Input),
    s.cmd = some w' → decode w' = .ok i → s.touchesWindow a w = false → s.inBounds a w = true →
    (s.inputs = .store a w v :: rest →
      ∃ t, step s = .next t ∧
        t = { s with
          mem := s.mem.writeBytes a (bytesLE w v), raced := t.raced, inputs := rest, draws := s.draws + 1 } ∧
        ∀ b, b ∈ t.raced ↔ b ∈ s.raced ∨ (a ≤ b ∧ b < a + w ∧ usesByte i s b = true)) ∧
    (s.inputs = .load a w :: rest →
      ∃ t n, step s = .next t ∧
        t = { s with
          raced := t.raced, hostReads := s.hostReads ++ [n], inputs := rest, draws := s.draws + 1 } ∧
        (∀ b, b ∈ t.raced ↔ b ∈ s.raced ∨ (a ≤ b ∧ b < a + w ∧ writesRam i = true ∧ usesByte i s b = true)) ∧
        ((∀ b, a ≤ b → b < a + w → b ∉ t.raced) → n = leNat (s.mem.bytes a w)))

/-- R89: the CMD word that a pseudo-instruction issues is the encoding of its command, with its two operand
writes before it and a poll after it. -/
def Obligations.PseudoInstructionsIssueTheirCommand : Prop :=
  (∀ a n, (Pseudo.csumCompute a n).expand = [.wr .arg0 a, .wr .arg1 n, .cmd (encode .csumCompute), .poll]) ∧
  (∀ a n, (Pseudo.csumVerify a n).expand = [.wr .arg0 a, .wr .arg1 n, .cmd (encode .csumVerify), .poll]) ∧
  (∀ r, (Pseudo.regRead r).expand = [.wr .arg0 r, .cmd (encode .regRead), .poll]) ∧
  (∀ r v, (Pseudo.regWrite r v).expand = [.wr .arg0 r, .wr .arg1 v, .cmd (encode .regWrite), .poll]) ∧
  (∀ r m, (Pseudo.regSet r m).expand = [.wr .arg0 r, .wr .arg1 m, .cmd (encode (.regFlag true)), .poll]) ∧
  (∀ r m, (Pseudo.regClear r m).expand = [.wr .arg0 r, .wr .arg1 m, .cmd (encode (.regFlag false)), .poll]) ∧
  (∀ a h f c, (Pseudo.fieldGet a h f c).expand = [.wr .arg0 a, .cmd (encode (.fieldGet h f c)), .poll]) ∧
  (∀ a h f c v,
    (Pseudo.fieldSet a h f c v).expand = [.wr .arg0 a, .wr .arg1 v, .cmd (encode (.fieldSet h f c)), .poll]) ∧
  (∀ a n, (Pseudo.classify a n).expand = [.wr .arg0 a, .wr .arg1 n, .cmd (encode .classify), .poll]) ∧
  (∀ a n, (Pseudo.arpReply a n).expand = [.wr .arg0 a, .wr .arg1 n, .cmd (encode .arpReply), .poll]) ∧
  (∀ a n, (Pseudo.icmpEchoReply a n).expand = [.wr .arg0 a, .wr .arg1 n, .cmd (encode .icmpEchoReply), .poll]) ∧
  (∀ a n, (Pseudo.dispatch a n).expand = [.wr .arg0 a, .wr .arg1 n, .cmd (encode .dispatch), .poll])

/-! The invariant. -/

/-- The invariant holds after reset. -/
def Obligations.ResetMeetsTheInvariant : Prop := State.reset.Inv

/-- Every step from a state that meets the invariant gives a state that meets it: host accesses, races,
commands, errors and resets alike (R25, R27, R28, R35, R51, R55, R63). -/
def Obligations.EveryStepKeepsTheInvariant : Prop :=
  ∀ s t : State, s.Inv → step s = .next t → t.Inv

/-- R8, R216, R217, R230: no step changes the platform's parameters, and every step only appends to what
the log sink has been given. -/
def Obligations.EveryStepOnlyAppendsToTheLog : Prop :=
  ∀ s t : State, step s = .next t →
    t.ram = s.ram ∧ t.blkBase = s.blkBase ∧ ∃ new, t.sinkEvents = s.sinkEvents ++ new
end

