-- ==== Sys2Proof/Laws/Bytes.lean ====
section
/-! SUPPORT. Byte order: lengths, ranges and round trips of the helpers of spec/00_scope.md R10. -/

namespace Sys2Proof.Machine

@[simp] theorem length_bytesBE (n v : Nat) : (bytesBE n v).length = n := by
  induction n with
  | zero => rfl
  | succ n ih => simp [bytesBE, ih]

@[simp] theorem length_bytesLE (n : Nat) : ∀ v : Nat, (bytesLE n v).length = n := by
  induction n with
  | zero => exact fun _ => rfl
  | succ n ih => exact fun v => by simp [bytesLE, ih]

theorem beNat_lt (bs : List Byte) : beNat bs < 2 ^ (8 * bs.length) := by
  induction bs with
  | nil => simp [beNat]
  | cons b bs ih =>
    have hb : b.toNat < 2 ^ 8 := b.isLt
    have : (2 : Nat) ^ (8 * (b :: bs).length) = 2 ^ 8 * 2 ^ (8 * bs.length) := by
      rw [← pow_add]; congr 1; simp only [List.length_cons]; omega
    simp only [beNat, Nat.shiftLeft_eq, this]
    nlinarith [Nat.mul_le_mul_right (2 ^ (8 * bs.length)) (Nat.succ_le_of_lt hb)]

theorem beNat_bytesBE (n v : Nat) : beNat (bytesBE n v) = v % 2 ^ (8 * n) := by
  induction n with
  | zero => simp [bytesBE, beNat, Nat.mod_one]
  | succ n ih =>
    simp only [bytesBE, beNat, length_bytesBE, ih, BitVec.toNat_ofNat, Nat.shiftLeft_eq, Nat.shiftRight_eq_div_pow]
    rw [show 8 * (n + 1) = 8 * n + 8 by ring, pow_add, Nat.mod_mul]
    ring

theorem leNat_bytesLE (n : Nat) : ∀ v : Nat, leNat (bytesLE n v) = v % 2 ^ (8 * n) := by
  induction n with
  | zero => exact fun v => by simp [bytesLE, leNat, Nat.mod_one]
  | succ n ih =>
    intro v
    simp only [bytesLE, leNat, ih, BitVec.toNat_ofNat, Nat.shiftLeft_eq, Nat.shiftRight_eq_div_pow]
    rw [show 8 * (n + 1) = 8 + 8 * n by ring, pow_add, Nat.mod_mul]
    ring

/-- The big-endian bytes of a number depend only on its low bytes. -/
theorem bytesBE_mod (n v : Nat) : bytesBE n (v % 2 ^ (8 * n)) = bytesBE n v := by
  suffices h : ∀ k n : Nat, k ≤ n → bytesBE k (v % 2 ^ (8 * n)) = bytesBE k v from h n n le_rfl
  intro k n
  induction k with
  | zero => exact fun _ => rfl
  | succ k ih =>
    intro h
    simp only [bytesBE, ih (by omega)]
    congr 1
    apply BitVec.eq_of_toNat_eq
    simp only [BitVec.toNat_ofNat, Nat.shiftRight_eq_div_pow]
    have : (2 : Nat) ^ (8 * n) = 2 ^ (8 * k) * (2 ^ 8 * 2 ^ (8 * (n - k - 1))) := by
      rw [← pow_add, ← pow_add]; congr 1; omega
    rw [this, Nat.mod_mul_right_div_self, Nat.mod_mul_right_mod]

end Sys2Proof.Machine
end

