-- ==== Sys2Proof/Laws/Memory.lean ====
section
/-! SUPPORT. The laws of RAM: every operation keeps the canonical form, a read after a write gives the
value written, and a write leaves every other byte alone. -/

namespace Sys2Proof.Machine

theorem Memory.wf_nil : Memory.wf [] := by simp [Memory.wf]

@[simp] theorem Memory.read_nil (a : Nat) : Memory.read [] a = Memory.unlisted := rfl

theorem Memory.wf_tail {c : Host.Cell} {m : Memory} (h : Memory.wf (c :: m)) : Memory.wf m := by
  simp only [Memory.wf, List.map_cons, List.pairwise_cons, List.mem_cons, forall_eq_or_imp] at h ⊢
  exact ⟨h.1.2, h.2.2⟩

theorem Memory.head_lt {k : Nat} {v : Byte} {m : Memory} (h : Memory.wf ((k, v) :: m)) {c : Host.Cell}
    (hc : c ∈ m) : k < c.1 := by
  simp only [Memory.wf, List.map_cons, List.pairwise_cons] at h
  exact h.1.1 _ (List.mem_map_of_mem hc)

/-- An address below every listed one is unlisted. -/
theorem Memory.read_of_lt {m : Memory} {a : Nat} (h : ∀ c ∈ m, a < c.1) : m.read a = Memory.unlisted := by
  induction m with
  | nil => rfl
  | cons c m ih =>
    obtain ⟨k, v⟩ := c
    have hk : a < k := h (k, v) (by simp)
    simp only [Memory.read, show ¬ k = a by omega, if_false]
    exact ih fun c hc => h c (by simp [hc])

/-- A listed address after a write is the written one or was listed before. -/
theorem Memory.mem_write {m : Memory} {a : Nat} {b : Byte} {c : Host.Cell} (h : c ∈ m.write a b) :
    c = (a, b) ∨ c ∈ m := by
  induction m with
  | nil =>
    simp only [Memory.write] at h
    split at h <;> simp_all
  | cons d m ih =>
    obtain ⟨k, v⟩ := d
    simp only [Memory.write] at h
    split at h
    · split at h <;> simp_all
    · split at h
      · split at h
        · exact .inr (by simp [h])
        · rcases List.mem_cons.1 h with h | h
          · exact .inl h
          · exact .inr (by simp [h])
      · rcases List.mem_cons.1 h with h | h
        · exact .inr (by simp [h])
        · rcases ih h with h | h
          · exact .inl h
          · exact .inr (by simp [h])

theorem Memory.wf_write {m : Memory} (hm : m.wf) (a : Nat) (b : Byte) : (m.write a b).wf := by
  induction m with
  | nil =>
    simp only [Memory.write]
    split
    · exact Memory.wf_nil
    · simp_all [Memory.wf]
  | cons d m ih =>
    obtain ⟨k, v⟩ := d
    have hlt : ∀ c ∈ m, k < c.1 := fun c hc => Memory.head_lt hm hc
    have htail := Memory.wf_tail hm
    have hv : v ≠ Memory.unlisted := hm.2 (k, v) (by simp)
    have cons_wf : ∀ (k' : Nat) (v' : Byte) (m' : Memory), m'.wf → (∀ c ∈ m', k' < c.1) →
        v' ≠ Memory.unlisted → Memory.wf ((k', v') :: m') := by
      intro k' v' m' h1 h2 h3
      refine ⟨?_, ?_⟩
      · simp only [List.map_cons, List.pairwise_cons]
        refine ⟨fun x hx => ?_, h1.1⟩
        obtain ⟨c, hc, rfl⟩ := List.mem_map.1 hx
        exact h2 c hc
      · intro c hc
        rcases List.mem_cons.1 hc with rfl | hc
        · exact h3
        · exact h1.2 c hc
    simp only [Memory.write]
    split
    · next hak =>
      split
      · exact hm
      · next hb =>
        refine cons_wf a b _ hm (fun c hc => ?_) hb
        rcases List.mem_cons.1 hc with rfl | hc
        · exact hak
        · exact lt_trans hak (hlt c hc)
    · next hak =>
      split
      · next heq =>
        split
        · exact htail
        · next hb => exact cons_wf a b m htail (fun c hc => heq ▸ hlt c hc) hb
      · next hne =>
        refine cons_wf k v _ (ih htail) (fun c hc => ?_) hv
        rcases Memory.mem_write hc with rfl | hc
        · show k < a
          omega
        · exact hlt c hc

theorem Memory.read_write_ne (m : Memory) {a a' : Nat} (b : Byte) (h : a' ≠ a) :
    (m.write a b).read a' = m.read a' := by
  induction m with
  | nil =>
    simp only [Memory.write]
    split
    · rfl
    · simp [Memory.read, Ne.symm h]
  | cons d m ih =>
    obtain ⟨k, v⟩ := d
    simp only [Memory.write]
    split
    · split
      · rfl
      · simp [Memory.read, Ne.symm h]
    · split
      · next heq =>
        subst heq
        split <;> simp [Memory.read, Ne.symm h]
      · simp only [Memory.read, ih]

theorem Memory.read_write_same {m : Memory} (hm : m.wf) (a : Nat) (b : Byte) : (m.write a b).read a = b := by
  induction m with
  | nil =>
    simp only [Memory.write]
    split <;> simp_all [Memory.read]
  | cons d m ih =>
    obtain ⟨k, v⟩ := d
    have hlt : ∀ c ∈ m, k < c.1 := fun c hc => Memory.head_lt hm hc
    simp only [Memory.write]
    split
    · next hak =>
      split
      · next hb =>
        rw [hb]
        refine Memory.read_of_lt fun c hc => ?_
        rcases List.mem_cons.1 hc with rfl | hc
        · exact hak
        · exact lt_trans hak (hlt c hc)
      · simp [Memory.read]
    · split
      · next heq =>
        split
        · next hb =>
          rw [hb]
          exact Memory.read_of_lt fun c hc => heq ▸ hlt c hc
        · simp [Memory.read]
      · next hne => simp [Memory.read, Ne.symm hne, ih (Memory.wf_tail hm)]

theorem Memory.read_write {m : Memory} (hm : m.wf) (a a' : Nat) (b : Byte) :
    (m.write a b).read a' = if a' = a then b else m.read a' := by
  split
  · next h => rw [h, Memory.read_write_same hm]
  · next h => exact Memory.read_write_ne m b h

theorem Memory.wf_writeBytes (bs : List Byte) : ∀ {m : Memory} (_ : m.wf) (a : Nat), (m.writeBytes a bs).wf := by
  induction bs with
  | nil => exact fun h _ => h
  | cons b bs ih => exact fun h a => ih (Memory.wf_write h a b) (a + 1)

/-- A listed address after a write of several bytes is one of theirs or was listed before. -/
theorem Memory.mem_writeBytes {bs : List Byte} : ∀ {m : Memory} {a : Nat} {c : Host.Cell},
    c ∈ m.writeBytes a bs → (a ≤ c.1 ∧ c.1 < a + bs.length) ∨ c ∈ m := by
  induction bs with
  | nil => exact fun h => .inr h
  | cons b bs ih =>
    intro m a c h
    rcases ih h with h | h
    · exact .inl (by simp only [List.length_cons]; omega)
    · rcases Memory.mem_write h with rfl | h
      · exact .inl (by simp)
      · exact .inr h

theorem Memory.read_writeBytes_outside (bs : List Byte) : ∀ (m : Memory) {a a' : Nat},
    (a' < a ∨ a + bs.length ≤ a') → (m.writeBytes a bs).read a' = m.read a' := by
  induction bs with
  | nil => exact fun _ _ _ _ => rfl
  | cons b bs ih =>
    intro m a a' h
    simp only [List.length_cons] at h
    simp only [Memory.writeBytes]
    rw [ih _ (by omega), Memory.read_write_ne _ _ (by omega)]

theorem Memory.read_writeBytes_inside (bs : List Byte) : ∀ {m : Memory} (_ : m.wf) (a : Nat) {i : Nat} (hi : i < bs.length),
    (m.writeBytes a bs).read (a + i) = bs[i] := by
  induction bs with
  | nil => exact fun _ _ _ hi => absurd hi (by simp)
  | cons b bs ih =>
    intro m hm a i hi
    simp only [Memory.writeBytes]
    cases i with
    | zero =>
      simp only [Nat.add_zero, List.getElem_cons_zero]
      rw [Memory.read_writeBytes_outside _ _ (by omega), Memory.read_write_same hm]
    | succ i =>
      have := ih (Memory.wf_write hm a b) (a + 1) (i := i) (by simpa using hi)
      simpa [Nat.add_comm, Nat.add_left_comm, Nat.add_assoc] using this

@[simp] theorem Memory.length_bytes (m : Memory) (a n : Nat) : (m.bytes a n).length = n := by
  simp [Memory.bytes]

@[simp] theorem Memory.getElem_bytes (m : Memory) (a n i : Nat) (h : i < (m.bytes a n).length) :
    (m.bytes a n)[i] = m.read (a + i) := by
  simp [Memory.bytes]

/-- Two memories that agree on a range have the same bytes there. -/
theorem Memory.bytes_congr {m m' : Memory} {a n : Nat} (h : ∀ i, i < n → m.read (a + i) = m'.read (a + i)) :
    m.bytes a n = m'.bytes a n := by
  simp only [Memory.bytes]
  exact List.map_congr_left fun i hi => h i (List.mem_range.1 hi)

theorem Memory.bytes_writeBytes_same {m : Memory} (hm : m.wf) (a : Nat) (bs : List Byte) :
    (m.writeBytes a bs).bytes a bs.length = bs :=
  List.ext_getElem (by simp) fun i h1 h2 => by
    rw [Memory.getElem_bytes, Memory.read_writeBytes_inside bs hm a h2]

theorem Memory.bytes_writeBytes_disjoint (m : Memory) {a b n : Nat} (bs : List Byte)
    (h : a + n ≤ b ∨ b + bs.length ≤ a) : (m.writeBytes b bs).bytes a n = m.bytes a n :=
  Memory.bytes_congr fun i hi => Memory.read_writeBytes_outside bs m (by omega)

end Sys2Proof.Machine
end

