-- ==== Sys2Proof/Laws/State.lean ====
section
/-! SUPPORT. What each shared update does to each field of the state: one lemma per field and update, so
that no proof unfolds a record update. -/

namespace Sys2Proof.Machine

variable (s : State)

@[simp] theorem State.accept_err (w : Word) : (s.accept w).err = none := rfl
@[simp] theorem State.accept_txReq (w : Word) : (s.accept w).txReq = false := rfl
@[simp] theorem State.accept_overrun (w : Word) : (s.accept w).overrun = s.overrun := rfl
@[simp] theorem State.accept_stickyErr (w : Word) : (s.accept w).stickyErr = s.stickyErr := rfl
@[simp] theorem State.accept_cmd (w : Word) : (s.accept w).cmd = some w := rfl
@[simp] theorem State.accept_progress (w : Word) : (s.accept w).progress = [] := rfl
@[simp] theorem State.accept_arg0 (w : Word) : (s.accept w).arg0 = s.arg0 := rfl
@[simp] theorem State.accept_arg1 (w : Word) : (s.accept w).arg1 = s.arg1 := rfl
@[simp] theorem State.accept_result (w : Word) : (s.accept w).result = s.result := rfl
@[simp] theorem State.accept_classReg (w : Word) : (s.accept w).classReg = s.classReg := rfl
@[simp] theorem State.accept_hdroff (w : Word) : (s.accept w).hdroff = s.hdroff := rfl
@[simp] theorem State.accept_txAddr (w : Word) : (s.accept w).txAddr = s.txAddr := rfl
@[simp] theorem State.accept_txLen (w : Word) : (s.accept w).txLen = s.txLen := rfl
@[simp] theorem State.accept_hostIp (w : Word) : (s.accept w).hostIp = s.hostIp := rfl
@[simp] theorem State.accept_hostMacHi (w : Word) : (s.accept w).hostMacHi = s.hostMacHi := rfl
@[simp] theorem State.accept_hostMacLo (w : Word) : (s.accept w).hostMacLo = s.hostMacLo := rfl
@[simp] theorem State.accept_rpBase (w : Word) : (s.accept w).rpBase = s.rpBase := rfl
@[simp] theorem State.accept_rpMode (w : Word) : (s.accept w).rpMode = s.rpMode := rfl
@[simp] theorem State.accept_ipSet (w : Word) : (s.accept w).ipSet = s.ipSet := rfl
@[simp] theorem State.accept_macHiSet (w : Word) : (s.accept w).macHiSet = s.macHiSet := rfl
@[simp] theorem State.accept_macLoSet (w : Word) : (s.accept w).macLoSet = s.macLoSet := rfl
@[simp] theorem State.accept_baseSet (w : Word) : (s.accept w).baseSet = s.baseSet := rfl
@[simp] theorem State.accept_modeSet (w : Word) : (s.accept w).modeSet = s.modeSet := rfl
@[simp] theorem State.accept_trace (w : Word) : (s.accept w).trace = s.trace := rfl
@[simp] theorem State.accept_earlier (w : Word) : (s.accept w).earlier = s.earlier := rfl
@[simp] theorem State.accept_mem (w : Word) : (s.accept w).mem = s.mem := rfl
@[simp] theorem State.accept_ram (w : Word) : (s.accept w).ram = s.ram := rfl
@[simp] theorem State.accept_blkBase (w : Word) : (s.accept w).blkBase = s.blkBase := rfl
@[simp] theorem State.accept_inputs (w : Word) : (s.accept w).inputs = s.inputs := rfl
@[simp] theorem State.accept_hostReads (w : Word) : (s.accept w).hostReads = s.hostReads := rfl
@[simp] theorem State.accept_raced (w : Word) : (s.accept w).raced = [] := rfl
@[simp] theorem State.accept_mmioAnswers (w : Word) : (s.accept w).mmioAnswers = s.mmioAnswers := rfl
@[simp] theorem State.accept_portAnswers (w : Word) : (s.accept w).portAnswers = s.portAnswers := rfl
@[simp] theorem State.accept_draws (w : Word) : (s.accept w).draws = s.draws := rfl

@[simp] theorem State.raise_err (e : Err) : (s.raise e).err = some e := rfl
@[simp] theorem State.raise_txReq (e : Err) : (s.raise e).txReq = s.txReq := rfl
@[simp] theorem State.raise_overrun (e : Err) : (s.raise e).overrun = s.overrun := rfl
@[simp] theorem State.raise_stickyErr (e : Err) : (s.raise e).stickyErr = true := rfl
@[simp] theorem State.raise_cmd (e : Err) : (s.raise e).cmd = none := rfl
@[simp] theorem State.raise_progress (e : Err) : (s.raise e).progress = [] := rfl
@[simp] theorem State.raise_arg0 (e : Err) : (s.raise e).arg0 = s.arg0 := rfl
@[simp] theorem State.raise_arg1 (e : Err) : (s.raise e).arg1 = s.arg1 := rfl
@[simp] theorem State.raise_result (e : Err) : (s.raise e).result = s.result := rfl
@[simp] theorem State.raise_classReg (e : Err) : (s.raise e).classReg = s.classReg := rfl
@[simp] theorem State.raise_hdroff (e : Err) : (s.raise e).hdroff = s.hdroff := rfl
@[simp] theorem State.raise_txAddr (e : Err) : (s.raise e).txAddr = s.txAddr := rfl
@[simp] theorem State.raise_txLen (e : Err) : (s.raise e).txLen = s.txLen := rfl
@[simp] theorem State.raise_hostIp (e : Err) : (s.raise e).hostIp = s.hostIp := rfl
@[simp] theorem State.raise_hostMacHi (e : Err) : (s.raise e).hostMacHi = s.hostMacHi := rfl
@[simp] theorem State.raise_hostMacLo (e : Err) : (s.raise e).hostMacLo = s.hostMacLo := rfl
@[simp] theorem State.raise_rpBase (e : Err) : (s.raise e).rpBase = s.rpBase := rfl
@[simp] theorem State.raise_rpMode (e : Err) : (s.raise e).rpMode = s.rpMode := rfl
@[simp] theorem State.raise_ipSet (e : Err) : (s.raise e).ipSet = s.ipSet := rfl
@[simp] theorem State.raise_macHiSet (e : Err) : (s.raise e).macHiSet = s.macHiSet := rfl
@[simp] theorem State.raise_macLoSet (e : Err) : (s.raise e).macLoSet = s.macLoSet := rfl
@[simp] theorem State.raise_baseSet (e : Err) : (s.raise e).baseSet = s.baseSet := rfl
@[simp] theorem State.raise_modeSet (e : Err) : (s.raise e).modeSet = s.modeSet := rfl
@[simp] theorem State.raise_trace (e : Err) : (s.raise e).trace = s.trace := rfl
@[simp] theorem State.raise_earlier (e : Err) : (s.raise e).earlier = s.earlier := rfl
@[simp] theorem State.raise_mem (e : Err) : (s.raise e).mem = s.mem := rfl
@[simp] theorem State.raise_ram (e : Err) : (s.raise e).ram = s.ram := rfl
@[simp] theorem State.raise_blkBase (e : Err) : (s.raise e).blkBase = s.blkBase := rfl
@[simp] theorem State.raise_inputs (e : Err) : (s.raise e).inputs = s.inputs := rfl
@[simp] theorem State.raise_hostReads (e : Err) : (s.raise e).hostReads = s.hostReads := rfl
@[simp] theorem State.raise_raced (e : Err) : (s.raise e).raced = [] := rfl
@[simp] theorem State.raise_mmioAnswers (e : Err) : (s.raise e).mmioAnswers = s.mmioAnswers := rfl
@[simp] theorem State.raise_portAnswers (e : Err) : (s.raise e).portAnswers = s.portAnswers := rfl
@[simp] theorem State.raise_draws (e : Err) : (s.raise e).draws = s.draws := rfl

@[simp] theorem State.complete_err : s.complete.err = none := rfl
@[simp] theorem State.complete_txReq : s.complete.txReq = s.txReq := rfl
@[simp] theorem State.complete_overrun : s.complete.overrun = s.overrun := rfl
@[simp] theorem State.complete_stickyErr : s.complete.stickyErr = s.stickyErr := rfl
@[simp] theorem State.complete_cmd : s.complete.cmd = none := rfl
@[simp] theorem State.complete_progress : s.complete.progress = [] := rfl
@[simp] theorem State.complete_arg0 : s.complete.arg0 = s.arg0 := rfl
@[simp] theorem State.complete_arg1 : s.complete.arg1 = s.arg1 := rfl
@[simp] theorem State.complete_result : s.complete.result = s.result := rfl
@[simp] theorem State.complete_classReg : s.complete.classReg = s.classReg := rfl
@[simp] theorem State.complete_hdroff : s.complete.hdroff = s.hdroff := rfl
@[simp] theorem State.complete_txAddr : s.complete.txAddr = s.txAddr := rfl
@[simp] theorem State.complete_txLen : s.complete.txLen = s.txLen := rfl
@[simp] theorem State.complete_hostIp : s.complete.hostIp = s.hostIp := rfl
@[simp] theorem State.complete_hostMacHi : s.complete.hostMacHi = s.hostMacHi := rfl
@[simp] theorem State.complete_hostMacLo : s.complete.hostMacLo = s.hostMacLo := rfl
@[simp] theorem State.complete_rpBase : s.complete.rpBase = s.rpBase := rfl
@[simp] theorem State.complete_rpMode : s.complete.rpMode = s.rpMode := rfl
@[simp] theorem State.complete_ipSet : s.complete.ipSet = s.ipSet := rfl
@[simp] theorem State.complete_macHiSet : s.complete.macHiSet = s.macHiSet := rfl
@[simp] theorem State.complete_macLoSet : s.complete.macLoSet = s.macLoSet := rfl
@[simp] theorem State.complete_baseSet : s.complete.baseSet = s.baseSet := rfl
@[simp] theorem State.complete_modeSet : s.complete.modeSet = s.modeSet := rfl
@[simp] theorem State.complete_trace : s.complete.trace = s.trace := rfl
@[simp] theorem State.complete_earlier : s.complete.earlier = s.earlier := rfl
@[simp] theorem State.complete_mem : s.complete.mem = s.mem := rfl
@[simp] theorem State.complete_ram : s.complete.ram = s.ram := rfl
@[simp] theorem State.complete_blkBase : s.complete.blkBase = s.blkBase := rfl
@[simp] theorem State.complete_inputs : s.complete.inputs = s.inputs := rfl
@[simp] theorem State.complete_hostReads : s.complete.hostReads = s.hostReads := rfl
@[simp] theorem State.complete_raced : s.complete.raced = [] := rfl
@[simp] theorem State.complete_mmioAnswers : s.complete.mmioAnswers = s.mmioAnswers := rfl
@[simp] theorem State.complete_portAnswers : s.complete.portAnswers = s.portAnswers := rfl
@[simp] theorem State.complete_draws : s.complete.draws = s.draws := rfl

@[simp] theorem State.tick_err : s.tick.err = s.err := rfl
@[simp] theorem State.tick_txReq : s.tick.txReq = s.txReq := rfl
@[simp] theorem State.tick_overrun : s.tick.overrun = s.overrun := rfl
@[simp] theorem State.tick_stickyErr : s.tick.stickyErr = s.stickyErr := rfl
@[simp] theorem State.tick_cmd : s.tick.cmd = s.cmd := rfl
@[simp] theorem State.tick_progress : s.tick.progress = s.progress := rfl
@[simp] theorem State.tick_arg0 : s.tick.arg0 = s.arg0 := rfl
@[simp] theorem State.tick_arg1 : s.tick.arg1 = s.arg1 := rfl
@[simp] theorem State.tick_result : s.tick.result = s.result := rfl
@[simp] theorem State.tick_classReg : s.tick.classReg = s.classReg := rfl
@[simp] theorem State.tick_hdroff : s.tick.hdroff = s.hdroff := rfl
@[simp] theorem State.tick_txAddr : s.tick.txAddr = s.txAddr := rfl
@[simp] theorem State.tick_txLen : s.tick.txLen = s.txLen := rfl
@[simp] theorem State.tick_hostIp : s.tick.hostIp = s.hostIp := rfl
@[simp] theorem State.tick_hostMacHi : s.tick.hostMacHi = s.hostMacHi := rfl
@[simp] theorem State.tick_hostMacLo : s.tick.hostMacLo = s.hostMacLo := rfl
@[simp] theorem State.tick_rpBase : s.tick.rpBase = s.rpBase := rfl
@[simp] theorem State.tick_rpMode : s.tick.rpMode = s.rpMode := rfl
@[simp] theorem State.tick_ipSet : s.tick.ipSet = s.ipSet := rfl
@[simp] theorem State.tick_macHiSet : s.tick.macHiSet = s.macHiSet := rfl
@[simp] theorem State.tick_macLoSet : s.tick.macLoSet = s.macLoSet := rfl
@[simp] theorem State.tick_baseSet : s.tick.baseSet = s.baseSet := rfl
@[simp] theorem State.tick_modeSet : s.tick.modeSet = s.modeSet := rfl
@[simp] theorem State.tick_trace : s.tick.trace = s.trace := rfl
@[simp] theorem State.tick_earlier : s.tick.earlier = s.earlier := rfl
@[simp] theorem State.tick_mem : s.tick.mem = s.mem := rfl
@[simp] theorem State.tick_ram : s.tick.ram = s.ram := rfl
@[simp] theorem State.tick_blkBase : s.tick.blkBase = s.blkBase := rfl
@[simp] theorem State.tick_inputs : s.tick.inputs = s.inputs := rfl
@[simp] theorem State.tick_hostReads : s.tick.hostReads = s.hostReads := rfl
@[simp] theorem State.tick_raced : s.tick.raced = s.raced := rfl
@[simp] theorem State.tick_mmioAnswers : s.tick.mmioAnswers = s.mmioAnswers := rfl
@[simp] theorem State.tick_portAnswers : s.tick.portAnswers = s.portAnswers := rfl
@[simp] theorem State.tick_draws : s.tick.draws = s.draws + 1 := rfl

@[simp] theorem State.ended_err : s.ended.err = none := rfl
@[simp] theorem State.ended_txReq : s.ended.txReq = s.txReq := rfl
@[simp] theorem State.ended_overrun : s.ended.overrun = s.overrun := rfl
@[simp] theorem State.ended_stickyErr : s.ended.stickyErr = s.stickyErr := rfl
@[simp] theorem State.ended_cmd : s.ended.cmd = none := rfl
@[simp] theorem State.ended_progress : s.ended.progress = [] := rfl
@[simp] theorem State.ended_arg0 : s.ended.arg0 = s.arg0 := rfl
@[simp] theorem State.ended_arg1 : s.ended.arg1 = s.arg1 := rfl
@[simp] theorem State.ended_result : s.ended.result = s.result := rfl
@[simp] theorem State.ended_classReg : s.ended.classReg = s.classReg := rfl
@[simp] theorem State.ended_hdroff : s.ended.hdroff = s.hdroff := rfl
@[simp] theorem State.ended_txAddr : s.ended.txAddr = s.txAddr := rfl
@[simp] theorem State.ended_txLen : s.ended.txLen = s.txLen := rfl
@[simp] theorem State.ended_hostIp : s.ended.hostIp = s.hostIp := rfl
@[simp] theorem State.ended_hostMacHi : s.ended.hostMacHi = s.hostMacHi := rfl
@[simp] theorem State.ended_hostMacLo : s.ended.hostMacLo = s.hostMacLo := rfl
@[simp] theorem State.ended_rpBase : s.ended.rpBase = s.rpBase := rfl
@[simp] theorem State.ended_rpMode : s.ended.rpMode = s.rpMode := rfl
@[simp] theorem State.ended_ipSet : s.ended.ipSet = s.ipSet := rfl
@[simp] theorem State.ended_macHiSet : s.ended.macHiSet = s.macHiSet := rfl
@[simp] theorem State.ended_macLoSet : s.ended.macLoSet = s.macLoSet := rfl
@[simp] theorem State.ended_baseSet : s.ended.baseSet = s.baseSet := rfl
@[simp] theorem State.ended_modeSet : s.ended.modeSet = s.modeSet := rfl
@[simp] theorem State.ended_trace : s.ended.trace = s.trace := rfl
@[simp] theorem State.ended_earlier : s.ended.earlier = s.earlier := rfl
@[simp] theorem State.ended_mem : s.ended.mem = s.mem := rfl
@[simp] theorem State.ended_ram : s.ended.ram = s.ram := rfl
@[simp] theorem State.ended_blkBase : s.ended.blkBase = s.blkBase := rfl
@[simp] theorem State.ended_inputs : s.ended.inputs = s.inputs := rfl
@[simp] theorem State.ended_hostReads : s.ended.hostReads = s.hostReads := rfl
@[simp] theorem State.ended_raced : s.ended.raced = [] := rfl
@[simp] theorem State.ended_mmioAnswers : s.ended.mmioAnswers = s.mmioAnswers := rfl
@[simp] theorem State.ended_portAnswers : s.ended.portAnswers = s.portAnswers := rfl
@[simp] theorem State.ended_draws : s.ended.draws = s.draws := rfl

@[simp] theorem State.failed_err (e : Err) : (s.failed e).err = some e := rfl
@[simp] theorem State.failed_txReq (e : Err) : (s.failed e).txReq = s.txReq := rfl
@[simp] theorem State.failed_overrun (e : Err) : (s.failed e).overrun = s.overrun := rfl
@[simp] theorem State.failed_stickyErr (e : Err) : (s.failed e).stickyErr = true := rfl
@[simp] theorem State.failed_cmd (e : Err) : (s.failed e).cmd = none := rfl
@[simp] theorem State.failed_progress (e : Err) : (s.failed e).progress = [] := rfl
@[simp] theorem State.failed_arg0 (e : Err) : (s.failed e).arg0 = s.arg0 := rfl
@[simp] theorem State.failed_arg1 (e : Err) : (s.failed e).arg1 = s.arg1 := rfl
@[simp] theorem State.failed_result (e : Err) : (s.failed e).result = s.result := rfl
@[simp] theorem State.failed_classReg (e : Err) : (s.failed e).classReg = s.classReg := rfl
@[simp] theorem State.failed_hdroff (e : Err) : (s.failed e).hdroff = s.hdroff := rfl
@[simp] theorem State.failed_txAddr (e : Err) : (s.failed e).txAddr = s.txAddr := rfl
@[simp] theorem State.failed_txLen (e : Err) : (s.failed e).txLen = s.txLen := rfl
@[simp] theorem State.failed_hostIp (e : Err) : (s.failed e).hostIp = s.hostIp := rfl
@[simp] theorem State.failed_hostMacHi (e : Err) : (s.failed e).hostMacHi = s.hostMacHi := rfl
@[simp] theorem State.failed_hostMacLo (e : Err) : (s.failed e).hostMacLo = s.hostMacLo := rfl
@[simp] theorem State.failed_rpBase (e : Err) : (s.failed e).rpBase = s.rpBase := rfl
@[simp] theorem State.failed_rpMode (e : Err) : (s.failed e).rpMode = s.rpMode := rfl
@[simp] theorem State.failed_ipSet (e : Err) : (s.failed e).ipSet = s.ipSet := rfl
@[simp] theorem State.failed_macHiSet (e : Err) : (s.failed e).macHiSet = s.macHiSet := rfl
@[simp] theorem State.failed_macLoSet (e : Err) : (s.failed e).macLoSet = s.macLoSet := rfl
@[simp] theorem State.failed_baseSet (e : Err) : (s.failed e).baseSet = s.baseSet := rfl
@[simp] theorem State.failed_modeSet (e : Err) : (s.failed e).modeSet = s.modeSet := rfl
@[simp] theorem State.failed_trace (e : Err) : (s.failed e).trace = s.trace := rfl
@[simp] theorem State.failed_earlier (e : Err) : (s.failed e).earlier = s.earlier := rfl
@[simp] theorem State.failed_mem (e : Err) : (s.failed e).mem = s.mem := rfl
@[simp] theorem State.failed_ram (e : Err) : (s.failed e).ram = s.ram := rfl
@[simp] theorem State.failed_blkBase (e : Err) : (s.failed e).blkBase = s.blkBase := rfl
@[simp] theorem State.failed_inputs (e : Err) : (s.failed e).inputs = s.inputs := rfl
@[simp] theorem State.failed_hostReads (e : Err) : (s.failed e).hostReads = s.hostReads := rfl
@[simp] theorem State.failed_raced (e : Err) : (s.failed e).raced = [] := rfl
@[simp] theorem State.failed_mmioAnswers (e : Err) : (s.failed e).mmioAnswers = s.mmioAnswers := rfl
@[simp] theorem State.failed_portAnswers (e : Err) : (s.failed e).portAnswers = s.portAnswers := rfl
@[simp] theorem State.failed_draws (e : Err) : (s.failed e).draws = s.draws := rfl

@[simp] theorem State.saw_err (evs : List Event) : (s.saw evs).err = s.err := rfl
@[simp] theorem State.saw_txReq (evs : List Event) : (s.saw evs).txReq = s.txReq := rfl
@[simp] theorem State.saw_overrun (evs : List Event) : (s.saw evs).overrun = s.overrun := rfl
@[simp] theorem State.saw_stickyErr (evs : List Event) : (s.saw evs).stickyErr = s.stickyErr := rfl
@[simp] theorem State.saw_cmd (evs : List Event) : (s.saw evs).cmd = s.cmd := rfl
@[simp] theorem State.saw_progress (evs : List Event) : (s.saw evs).progress = s.progress := rfl
@[simp] theorem State.saw_arg0 (evs : List Event) : (s.saw evs).arg0 = s.arg0 := rfl
@[simp] theorem State.saw_arg1 (evs : List Event) : (s.saw evs).arg1 = s.arg1 := rfl
@[simp] theorem State.saw_result (evs : List Event) : (s.saw evs).result = s.result := rfl
@[simp] theorem State.saw_classReg (evs : List Event) : (s.saw evs).classReg = s.classReg := rfl
@[simp] theorem State.saw_hdroff (evs : List Event) : (s.saw evs).hdroff = s.hdroff := rfl
@[simp] theorem State.saw_txAddr (evs : List Event) : (s.saw evs).txAddr = s.txAddr := rfl
@[simp] theorem State.saw_txLen (evs : List Event) : (s.saw evs).txLen = s.txLen := rfl
@[simp] theorem State.saw_hostIp (evs : List Event) : (s.saw evs).hostIp = s.hostIp := rfl
@[simp] theorem State.saw_hostMacHi (evs : List Event) : (s.saw evs).hostMacHi = s.hostMacHi := rfl
@[simp] theorem State.saw_hostMacLo (evs : List Event) : (s.saw evs).hostMacLo = s.hostMacLo := rfl
@[simp] theorem State.saw_rpBase (evs : List Event) : (s.saw evs).rpBase = s.rpBase := rfl
@[simp] theorem State.saw_rpMode (evs : List Event) : (s.saw evs).rpMode = s.rpMode := rfl
@[simp] theorem State.saw_ipSet (evs : List Event) : (s.saw evs).ipSet = s.ipSet := rfl
@[simp] theorem State.saw_macHiSet (evs : List Event) : (s.saw evs).macHiSet = s.macHiSet := rfl
@[simp] theorem State.saw_macLoSet (evs : List Event) : (s.saw evs).macLoSet = s.macLoSet := rfl
@[simp] theorem State.saw_baseSet (evs : List Event) : (s.saw evs).baseSet = s.baseSet := rfl
@[simp] theorem State.saw_modeSet (evs : List Event) : (s.saw evs).modeSet = s.modeSet := rfl
@[simp] theorem State.saw_trace (evs : List Event) : (s.saw evs).trace = s.trace ++ evs := rfl
@[simp] theorem State.saw_earlier (evs : List Event) : (s.saw evs).earlier = s.earlier := rfl
@[simp] theorem State.saw_mem (evs : List Event) : (s.saw evs).mem = s.mem := rfl
@[simp] theorem State.saw_ram (evs : List Event) : (s.saw evs).ram = s.ram := rfl
@[simp] theorem State.saw_blkBase (evs : List Event) : (s.saw evs).blkBase = s.blkBase := rfl
@[simp] theorem State.saw_inputs (evs : List Event) : (s.saw evs).inputs = s.inputs := rfl
@[simp] theorem State.saw_hostReads (evs : List Event) : (s.saw evs).hostReads = s.hostReads := rfl
@[simp] theorem State.saw_raced (evs : List Event) : (s.saw evs).raced = s.raced := rfl
@[simp] theorem State.saw_mmioAnswers (evs : List Event) : (s.saw evs).mmioAnswers = s.mmioAnswers := rfl
@[simp] theorem State.saw_portAnswers (evs : List Event) : (s.saw evs).portAnswers = s.portAnswers := rfl
@[simp] theorem State.saw_draws (evs : List Event) : (s.saw evs).draws = s.draws := rfl

@[simp] theorem State.setClass_err (info : FrameInfo) : (s.setClass info).err = s.err := rfl
@[simp] theorem State.setClass_txReq (info : FrameInfo) : (s.setClass info).txReq = s.txReq := rfl
@[simp] theorem State.setClass_overrun (info : FrameInfo) : (s.setClass info).overrun = s.overrun := rfl
@[simp] theorem State.setClass_stickyErr (info : FrameInfo) : (s.setClass info).stickyErr = s.stickyErr := rfl
@[simp] theorem State.setClass_cmd (info : FrameInfo) : (s.setClass info).cmd = s.cmd := rfl
@[simp] theorem State.setClass_progress (info : FrameInfo) : (s.setClass info).progress = s.progress := rfl
@[simp] theorem State.setClass_arg0 (info : FrameInfo) : (s.setClass info).arg0 = s.arg0 := rfl
@[simp] theorem State.setClass_arg1 (info : FrameInfo) : (s.setClass info).arg1 = s.arg1 := rfl
@[simp] theorem State.setClass_result (info : FrameInfo) : (s.setClass info).result = s.result := rfl
@[simp] theorem State.setClass_classReg (info : FrameInfo) : (s.setClass info).classReg = classWord info := rfl
@[simp] theorem State.setClass_hdroff (info : FrameInfo) : (s.setClass info).hdroff = hdroffWord info := rfl
@[simp] theorem State.setClass_txAddr (info : FrameInfo) : (s.setClass info).txAddr = s.txAddr := rfl
@[simp] theorem State.setClass_txLen (info : FrameInfo) : (s.setClass info).txLen = s.txLen := rfl
@[simp] theorem State.setClass_hostIp (info : FrameInfo) : (s.setClass info).hostIp = s.hostIp := rfl
@[simp] theorem State.setClass_hostMacHi (info : FrameInfo) : (s.setClass info).hostMacHi = s.hostMacHi := rfl
@[simp] theorem State.setClass_hostMacLo (info : FrameInfo) : (s.setClass info).hostMacLo = s.hostMacLo := rfl
@[simp] theorem State.setClass_rpBase (info : FrameInfo) : (s.setClass info).rpBase = s.rpBase := rfl
@[simp] theorem State.setClass_rpMode (info : FrameInfo) : (s.setClass info).rpMode = s.rpMode := rfl
@[simp] theorem State.setClass_ipSet (info : FrameInfo) : (s.setClass info).ipSet = s.ipSet := rfl
@[simp] theorem State.setClass_macHiSet (info : FrameInfo) : (s.setClass info).macHiSet = s.macHiSet := rfl
@[simp] theorem State.setClass_macLoSet (info : FrameInfo) : (s.setClass info).macLoSet = s.macLoSet := rfl
@[simp] theorem State.setClass_baseSet (info : FrameInfo) : (s.setClass info).baseSet = s.baseSet := rfl
@[simp] theorem State.setClass_modeSet (info : FrameInfo) : (s.setClass info).modeSet = s.modeSet := rfl
@[simp] theorem State.setClass_trace (info : FrameInfo) : (s.setClass info).trace = s.trace := rfl
@[simp] theorem State.setClass_earlier (info : FrameInfo) : (s.setClass info).earlier = s.earlier := rfl
@[simp] theorem State.setClass_mem (info : FrameInfo) : (s.setClass info).mem = s.mem := rfl
@[simp] theorem State.setClass_ram (info : FrameInfo) : (s.setClass info).ram = s.ram := rfl
@[simp] theorem State.setClass_blkBase (info : FrameInfo) : (s.setClass info).blkBase = s.blkBase := rfl
@[simp] theorem State.setClass_inputs (info : FrameInfo) : (s.setClass info).inputs = s.inputs := rfl
@[simp] theorem State.setClass_hostReads (info : FrameInfo) : (s.setClass info).hostReads = s.hostReads := rfl
@[simp] theorem State.setClass_raced (info : FrameInfo) : (s.setClass info).raced = s.raced := rfl
@[simp] theorem State.setClass_mmioAnswers (info : FrameInfo) : (s.setClass info).mmioAnswers = s.mmioAnswers := rfl
@[simp] theorem State.setClass_portAnswers (info : FrameInfo) : (s.setClass info).portAnswers = s.portAnswers := rfl
@[simp] theorem State.setClass_draws (info : FrameInfo) : (s.setClass info).draws = s.draws := rfl

@[simp] theorem State.drawRaced_err : s.drawRaced.err = s.err := rfl
@[simp] theorem State.drawRaced_txReq : s.drawRaced.txReq = s.txReq := rfl
@[simp] theorem State.drawRaced_overrun : s.drawRaced.overrun = s.overrun := rfl
@[simp] theorem State.drawRaced_stickyErr : s.drawRaced.stickyErr = s.stickyErr := rfl
@[simp] theorem State.drawRaced_cmd : s.drawRaced.cmd = s.cmd := rfl
@[simp] theorem State.drawRaced_progress : s.drawRaced.progress = s.progress := rfl
@[simp] theorem State.drawRaced_arg0 : s.drawRaced.arg0 = s.arg0 := rfl
@[simp] theorem State.drawRaced_arg1 : s.drawRaced.arg1 = s.arg1 := rfl
@[simp] theorem State.drawRaced_result : s.drawRaced.result = s.result := rfl
@[simp] theorem State.drawRaced_classReg : s.drawRaced.classReg = s.classReg := rfl
@[simp] theorem State.drawRaced_hdroff : s.drawRaced.hdroff = s.hdroff := rfl
@[simp] theorem State.drawRaced_txAddr : s.drawRaced.txAddr = s.txAddr := rfl
@[simp] theorem State.drawRaced_txLen : s.drawRaced.txLen = s.txLen := rfl
@[simp] theorem State.drawRaced_hostIp : s.drawRaced.hostIp = s.hostIp := rfl
@[simp] theorem State.drawRaced_hostMacHi : s.drawRaced.hostMacHi = s.hostMacHi := rfl
@[simp] theorem State.drawRaced_hostMacLo : s.drawRaced.hostMacLo = s.hostMacLo := rfl
@[simp] theorem State.drawRaced_rpBase : s.drawRaced.rpBase = s.rpBase := rfl
@[simp] theorem State.drawRaced_rpMode : s.drawRaced.rpMode = s.rpMode := rfl
@[simp] theorem State.drawRaced_ipSet : s.drawRaced.ipSet = s.ipSet := rfl
@[simp] theorem State.drawRaced_macHiSet : s.drawRaced.macHiSet = s.macHiSet := rfl
@[simp] theorem State.drawRaced_macLoSet : s.drawRaced.macLoSet = s.macLoSet := rfl
@[simp] theorem State.drawRaced_baseSet : s.drawRaced.baseSet = s.baseSet := rfl
@[simp] theorem State.drawRaced_modeSet : s.drawRaced.modeSet = s.modeSet := rfl
@[simp] theorem State.drawRaced_trace : s.drawRaced.trace = s.trace := rfl
@[simp] theorem State.drawRaced_earlier : s.drawRaced.earlier = s.earlier := rfl
@[simp] theorem State.drawRaced_mem : s.drawRaced.mem = freeBytes s.draws s.mem s.raced := rfl
@[simp] theorem State.drawRaced_ram : s.drawRaced.ram = s.ram := rfl
@[simp] theorem State.drawRaced_blkBase : s.drawRaced.blkBase = s.blkBase := rfl
@[simp] theorem State.drawRaced_inputs : s.drawRaced.inputs = s.inputs := rfl
@[simp] theorem State.drawRaced_hostReads : s.drawRaced.hostReads = s.hostReads := rfl
@[simp] theorem State.drawRaced_raced : s.drawRaced.raced = s.raced := rfl
@[simp] theorem State.drawRaced_mmioAnswers : s.drawRaced.mmioAnswers = s.mmioAnswers := rfl
@[simp] theorem State.drawRaced_portAnswers : s.drawRaced.portAnswers = s.portAnswers := rfl
@[simp] theorem State.drawRaced_draws : s.drawRaced.draws = s.draws + s.raced.length := rfl

@[simp] theorem State.hostWrite_err (a w v : Nat) : (s.hostWrite a w v).err = s.err := rfl
@[simp] theorem State.hostWrite_txReq (a w v : Nat) : (s.hostWrite a w v).txReq = s.txReq := rfl
@[simp] theorem State.hostWrite_overrun (a w v : Nat) : (s.hostWrite a w v).overrun = s.overrun := rfl
@[simp] theorem State.hostWrite_stickyErr (a w v : Nat) : (s.hostWrite a w v).stickyErr = s.stickyErr := rfl
@[simp] theorem State.hostWrite_cmd (a w v : Nat) : (s.hostWrite a w v).cmd = s.cmd := rfl
@[simp] theorem State.hostWrite_progress (a w v : Nat) : (s.hostWrite a w v).progress = s.progress := rfl
@[simp] theorem State.hostWrite_arg0 (a w v : Nat) : (s.hostWrite a w v).arg0 = s.arg0 := rfl
@[simp] theorem State.hostWrite_arg1 (a w v : Nat) : (s.hostWrite a w v).arg1 = s.arg1 := rfl
@[simp] theorem State.hostWrite_result (a w v : Nat) : (s.hostWrite a w v).result = s.result := rfl
@[simp] theorem State.hostWrite_classReg (a w v : Nat) : (s.hostWrite a w v).classReg = s.classReg := rfl
@[simp] theorem State.hostWrite_hdroff (a w v : Nat) : (s.hostWrite a w v).hdroff = s.hdroff := rfl
@[simp] theorem State.hostWrite_txAddr (a w v : Nat) : (s.hostWrite a w v).txAddr = s.txAddr := rfl
@[simp] theorem State.hostWrite_txLen (a w v : Nat) : (s.hostWrite a w v).txLen = s.txLen := rfl
@[simp] theorem State.hostWrite_hostIp (a w v : Nat) : (s.hostWrite a w v).hostIp = s.hostIp := rfl
@[simp] theorem State.hostWrite_hostMacHi (a w v : Nat) : (s.hostWrite a w v).hostMacHi = s.hostMacHi := rfl
@[simp] theorem State.hostWrite_hostMacLo (a w v : Nat) : (s.hostWrite a w v).hostMacLo = s.hostMacLo := rfl
@[simp] theorem State.hostWrite_rpBase (a w v : Nat) : (s.hostWrite a w v).rpBase = s.rpBase := rfl
@[simp] theorem State.hostWrite_rpMode (a w v : Nat) : (s.hostWrite a w v).rpMode = s.rpMode := rfl
@[simp] theorem State.hostWrite_ipSet (a w v : Nat) : (s.hostWrite a w v).ipSet = s.ipSet := rfl
@[simp] theorem State.hostWrite_macHiSet (a w v : Nat) : (s.hostWrite a w v).macHiSet = s.macHiSet := rfl
@[simp] theorem State.hostWrite_macLoSet (a w v : Nat) : (s.hostWrite a w v).macLoSet = s.macLoSet := rfl
@[simp] theorem State.hostWrite_baseSet (a w v : Nat) : (s.hostWrite a w v).baseSet = s.baseSet := rfl
@[simp] theorem State.hostWrite_modeSet (a w v : Nat) : (s.hostWrite a w v).modeSet = s.modeSet := rfl
@[simp] theorem State.hostWrite_trace (a w v : Nat) : (s.hostWrite a w v).trace = s.trace := rfl
@[simp] theorem State.hostWrite_earlier (a w v : Nat) : (s.hostWrite a w v).earlier = s.earlier := rfl
@[simp] theorem State.hostWrite_mem (a w v : Nat) : (s.hostWrite a w v).mem = s.mem.writeBytes a (bytesLE w v) := rfl
@[simp] theorem State.hostWrite_ram (a w v : Nat) : (s.hostWrite a w v).ram = s.ram := rfl
@[simp] theorem State.hostWrite_blkBase (a w v : Nat) : (s.hostWrite a w v).blkBase = s.blkBase := rfl
@[simp] theorem State.hostWrite_inputs (a w v : Nat) : (s.hostWrite a w v).inputs = s.inputs := rfl
@[simp] theorem State.hostWrite_hostReads (a w v : Nat) : (s.hostWrite a w v).hostReads = s.hostReads := rfl
@[simp] theorem State.hostWrite_raced (a w v : Nat) : (s.hostWrite a w v).raced =
    s.raced ++ ((span a w).filter s.inFlight).filter (fun b => decide (b ∉ s.raced)) := rfl
@[simp] theorem State.hostWrite_mmioAnswers (a w v : Nat) : (s.hostWrite a w v).mmioAnswers = s.mmioAnswers := rfl
@[simp] theorem State.hostWrite_portAnswers (a w v : Nat) : (s.hostWrite a w v).portAnswers = s.portAnswers := rfl
@[simp] theorem State.hostWrite_draws (a w v : Nat) : (s.hostWrite a w v).draws = s.draws := rfl

@[simp] theorem State.hostRead_err (a w : Nat) : (s.hostRead a w).err = s.err := rfl
@[simp] theorem State.hostRead_txReq (a w : Nat) : (s.hostRead a w).txReq = s.txReq := rfl
@[simp] theorem State.hostRead_overrun (a w : Nat) : (s.hostRead a w).overrun = s.overrun := rfl
@[simp] theorem State.hostRead_stickyErr (a w : Nat) : (s.hostRead a w).stickyErr = s.stickyErr := rfl
@[simp] theorem State.hostRead_cmd (a w : Nat) : (s.hostRead a w).cmd = s.cmd := rfl
@[simp] theorem State.hostRead_progress (a w : Nat) : (s.hostRead a w).progress = s.progress := rfl
@[simp] theorem State.hostRead_arg0 (a w : Nat) : (s.hostRead a w).arg0 = s.arg0 := rfl
@[simp] theorem State.hostRead_arg1 (a w : Nat) : (s.hostRead a w).arg1 = s.arg1 := rfl
@[simp] theorem State.hostRead_result (a w : Nat) : (s.hostRead a w).result = s.result := rfl
@[simp] theorem State.hostRead_classReg (a w : Nat) : (s.hostRead a w).classReg = s.classReg := rfl
@[simp] theorem State.hostRead_hdroff (a w : Nat) : (s.hostRead a w).hdroff = s.hdroff := rfl
@[simp] theorem State.hostRead_txAddr (a w : Nat) : (s.hostRead a w).txAddr = s.txAddr := rfl
@[simp] theorem State.hostRead_txLen (a w : Nat) : (s.hostRead a w).txLen = s.txLen := rfl
@[simp] theorem State.hostRead_hostIp (a w : Nat) : (s.hostRead a w).hostIp = s.hostIp := rfl
@[simp] theorem State.hostRead_hostMacHi (a w : Nat) : (s.hostRead a w).hostMacHi = s.hostMacHi := rfl
@[simp] theorem State.hostRead_hostMacLo (a w : Nat) : (s.hostRead a w).hostMacLo = s.hostMacLo := rfl
@[simp] theorem State.hostRead_rpBase (a w : Nat) : (s.hostRead a w).rpBase = s.rpBase := rfl
@[simp] theorem State.hostRead_rpMode (a w : Nat) : (s.hostRead a w).rpMode = s.rpMode := rfl
@[simp] theorem State.hostRead_ipSet (a w : Nat) : (s.hostRead a w).ipSet = s.ipSet := rfl
@[simp] theorem State.hostRead_macHiSet (a w : Nat) : (s.hostRead a w).macHiSet = s.macHiSet := rfl
@[simp] theorem State.hostRead_macLoSet (a w : Nat) : (s.hostRead a w).macLoSet = s.macLoSet := rfl
@[simp] theorem State.hostRead_baseSet (a w : Nat) : (s.hostRead a w).baseSet = s.baseSet := rfl
@[simp] theorem State.hostRead_modeSet (a w : Nat) : (s.hostRead a w).modeSet = s.modeSet := rfl
@[simp] theorem State.hostRead_trace (a w : Nat) : (s.hostRead a w).trace = s.trace := rfl
@[simp] theorem State.hostRead_earlier (a w : Nat) : (s.hostRead a w).earlier = s.earlier := rfl
@[simp] theorem State.hostRead_mem (a w : Nat) : (s.hostRead a w).mem = s.mem := rfl
@[simp] theorem State.hostRead_ram (a w : Nat) : (s.hostRead a w).ram = s.ram := rfl
@[simp] theorem State.hostRead_blkBase (a w : Nat) : (s.hostRead a w).blkBase = s.blkBase := rfl
@[simp] theorem State.hostRead_inputs (a w : Nat) : (s.hostRead a w).inputs = s.inputs := rfl
@[simp] theorem State.hostRead_hostReads (a w : Nat) : (s.hostRead a w).hostReads = s.hostReads ++ [leNat ((span a w).map s.hostByte)] := rfl
@[simp] theorem State.hostRead_raced (a w : Nat) : (s.hostRead a w).raced =
    s.raced ++ ((span a w).filter s.inFlightWritten).filter (fun b => decide (b ∉ s.raced)) := rfl
@[simp] theorem State.hostRead_mmioAnswers (a w : Nat) : (s.hostRead a w).mmioAnswers = s.mmioAnswers := rfl
@[simp] theorem State.hostRead_portAnswers (a w : Nat) : (s.hostRead a w).portAnswers = s.portAnswers := rfl
@[simp] theorem State.hostRead_draws (a w : Nat) : (s.hostRead a w).draws = s.draws := rfl

@[simp] theorem State.effect_err (x : Access) : (s.effect x).err = s.err := by
  cases x <;> first
    | rfl
    | (simp only [State.effect]; split <;> rfl)
@[simp] theorem State.effect_overrun (x : Access) : (s.effect x).overrun = s.overrun := by
  cases x <;> first
    | rfl
    | (simp only [State.effect]; split <;> rfl)
@[simp] theorem State.effect_stickyErr (x : Access) : (s.effect x).stickyErr = s.stickyErr := by
  cases x <;> first
    | rfl
    | (simp only [State.effect]; split <;> rfl)
@[simp] theorem State.effect_cmd (x : Access) : (s.effect x).cmd = s.cmd := by
  cases x <;> first
    | rfl
    | (simp only [State.effect]; split <;> rfl)
@[simp] theorem State.effect_progress (x : Access) : (s.effect x).progress = s.progress := by
  cases x <;> first
    | rfl
    | (simp only [State.effect]; split <;> rfl)
@[simp] theorem State.effect_arg0 (x : Access) : (s.effect x).arg0 = s.arg0 := by
  cases x <;> first
    | rfl
    | (simp only [State.effect]; split <;> rfl)
@[simp] theorem State.effect_arg1 (x : Access) : (s.effect x).arg1 = s.arg1 := by
  cases x <;> first
    | rfl
    | (simp only [State.effect]; split <;> rfl)
@[simp] theorem State.effect_result (x : Access) : (s.effect x).result = s.result := by
  cases x <;> first
    | rfl
    | (simp only [State.effect]; split <;> rfl)
@[simp] theorem State.effect_classReg (x : Access) : (s.effect x).classReg = s.classReg := by
  cases x <;> first
    | rfl
    | (simp only [State.effect]; split <;> rfl)
@[simp] theorem State.effect_hdroff (x : Access) : (s.effect x).hdroff = s.hdroff := by
  cases x <;> first
    | rfl
    | (simp only [State.effect]; split <;> rfl)
@[simp] theorem State.effect_hostIp (x : Access) : (s.effect x).hostIp = s.hostIp := by
  cases x <;> first
    | rfl
    | (simp only [State.effect]; split <;> rfl)
@[simp] theorem State.effect_hostMacHi (x : Access) : (s.effect x).hostMacHi = s.hostMacHi := by
  cases x <;> first
    | rfl
    | (simp only [State.effect]; split <;> rfl)
@[simp] theorem State.effect_hostMacLo (x : Access) : (s.effect x).hostMacLo = s.hostMacLo := by
  cases x <;> first
    | rfl
    | (simp only [State.effect]; split <;> rfl)
@[simp] theorem State.effect_rpBase (x : Access) : (s.effect x).rpBase = s.rpBase := by
  cases x <;> first
    | rfl
    | (simp only [State.effect]; split <;> rfl)
@[simp] theorem State.effect_rpMode (x : Access) : (s.effect x).rpMode = s.rpMode := by
  cases x <;> first
    | rfl
    | (simp only [State.effect]; split <;> rfl)
@[simp] theorem State.effect_ipSet (x : Access) : (s.effect x).ipSet = s.ipSet := by
  cases x <;> first
    | rfl
    | (simp only [State.effect]; split <;> rfl)
@[simp] theorem State.effect_macHiSet (x : Access) : (s.effect x).macHiSet = s.macHiSet := by
  cases x <;> first
    | rfl
    | (simp only [State.effect]; split <;> rfl)
@[simp] theorem State.effect_macLoSet (x : Access) : (s.effect x).macLoSet = s.macLoSet := by
  cases x <;> first
    | rfl
    | (simp only [State.effect]; split <;> rfl)
@[simp] theorem State.effect_baseSet (x : Access) : (s.effect x).baseSet = s.baseSet := by
  cases x <;> first
    | rfl
    | (simp only [State.effect]; split <;> rfl)
@[simp] theorem State.effect_modeSet (x : Access) : (s.effect x).modeSet = s.modeSet := by
  cases x <;> first
    | rfl
    | (simp only [State.effect]; split <;> rfl)
@[simp] theorem State.effect_trace (x : Access) : (s.effect x).trace = s.trace := by
  cases x <;> first
    | rfl
    | (simp only [State.effect]; split <;> rfl)
@[simp] theorem State.effect_earlier (x : Access) : (s.effect x).earlier = s.earlier := by
  cases x <;> first
    | rfl
    | (simp only [State.effect]; split <;> rfl)
@[simp] theorem State.effect_ram (x : Access) : (s.effect x).ram = s.ram := by
  cases x <;> first
    | rfl
    | (simp only [State.effect]; split <;> rfl)
@[simp] theorem State.effect_blkBase (x : Access) : (s.effect x).blkBase = s.blkBase := by
  cases x <;> first
    | rfl
    | (simp only [State.effect]; split <;> rfl)
@[simp] theorem State.effect_inputs (x : Access) : (s.effect x).inputs = s.inputs := by
  cases x <;> first
    | rfl
    | (simp only [State.effect]; split <;> rfl)
@[simp] theorem State.effect_hostReads (x : Access) : (s.effect x).hostReads = s.hostReads := by
  cases x <;> first
    | rfl
    | (simp only [State.effect]; split <;> rfl)
@[simp] theorem State.effect_raced (x : Access) : (s.effect x).raced = s.raced := by
  cases x <;> first
    | rfl
    | (simp only [State.effect]; split <;> rfl)

@[simp] theorem State.perform_err (x : Access) : (s.perform x).err = s.err := s.effect_err x
@[simp] theorem State.perform_overrun (x : Access) : (s.perform x).overrun = s.overrun := s.effect_overrun x
@[simp] theorem State.perform_stickyErr (x : Access) : (s.perform x).stickyErr = s.stickyErr := s.effect_stickyErr x
@[simp] theorem State.perform_cmd (x : Access) : (s.perform x).cmd = s.cmd := s.effect_cmd x
@[simp] theorem State.perform_progress (x : Access) : (s.perform x).progress = s.progress := s.effect_progress x
@[simp] theorem State.perform_arg0 (x : Access) : (s.perform x).arg0 = s.arg0 := s.effect_arg0 x
@[simp] theorem State.perform_arg1 (x : Access) : (s.perform x).arg1 = s.arg1 := s.effect_arg1 x
@[simp] theorem State.perform_result (x : Access) : (s.perform x).result = s.result := s.effect_result x
@[simp] theorem State.perform_classReg (x : Access) : (s.perform x).classReg = s.classReg := s.effect_classReg x
@[simp] theorem State.perform_hdroff (x : Access) : (s.perform x).hdroff = s.hdroff := s.effect_hdroff x
@[simp] theorem State.perform_hostIp (x : Access) : (s.perform x).hostIp = s.hostIp := s.effect_hostIp x
@[simp] theorem State.perform_hostMacHi (x : Access) : (s.perform x).hostMacHi = s.hostMacHi := s.effect_hostMacHi x
@[simp] theorem State.perform_hostMacLo (x : Access) : (s.perform x).hostMacLo = s.hostMacLo := s.effect_hostMacLo x
@[simp] theorem State.perform_rpBase (x : Access) : (s.perform x).rpBase = s.rpBase := s.effect_rpBase x
@[simp] theorem State.perform_rpMode (x : Access) : (s.perform x).rpMode = s.rpMode := s.effect_rpMode x
@[simp] theorem State.perform_ipSet (x : Access) : (s.perform x).ipSet = s.ipSet := s.effect_ipSet x
@[simp] theorem State.perform_macHiSet (x : Access) : (s.perform x).macHiSet = s.macHiSet := s.effect_macHiSet x
@[simp] theorem State.perform_macLoSet (x : Access) : (s.perform x).macLoSet = s.macLoSet := s.effect_macLoSet x
@[simp] theorem State.perform_baseSet (x : Access) : (s.perform x).baseSet = s.baseSet := s.effect_baseSet x
@[simp] theorem State.perform_modeSet (x : Access) : (s.perform x).modeSet = s.modeSet := s.effect_modeSet x
@[simp] theorem State.perform_earlier (x : Access) : (s.perform x).earlier = s.earlier := s.effect_earlier x
@[simp] theorem State.perform_ram (x : Access) : (s.perform x).ram = s.ram := s.effect_ram x
@[simp] theorem State.perform_blkBase (x : Access) : (s.perform x).blkBase = s.blkBase := s.effect_blkBase x
@[simp] theorem State.perform_inputs (x : Access) : (s.perform x).inputs = s.inputs := s.effect_inputs x
@[simp] theorem State.perform_hostReads (x : Access) : (s.perform x).hostReads = s.hostReads := s.effect_hostReads x
@[simp] theorem State.perform_raced (x : Access) : (s.perform x).raced = s.raced := s.effect_raced x

@[simp] theorem State.deliver_err (r : Result) : (s.deliver r).err = s.err := by cases r <;> rfl
@[simp] theorem State.deliver_txReq (r : Result) : (s.deliver r).txReq = s.txReq := by cases r <;> rfl
@[simp] theorem State.deliver_overrun (r : Result) : (s.deliver r).overrun = s.overrun := by cases r <;> rfl
@[simp] theorem State.deliver_stickyErr (r : Result) : (s.deliver r).stickyErr = s.stickyErr := by cases r <;> rfl
@[simp] theorem State.deliver_cmd (r : Result) : (s.deliver r).cmd = s.cmd := by cases r <;> rfl
@[simp] theorem State.deliver_progress (r : Result) : (s.deliver r).progress = s.progress := by cases r <;> rfl
@[simp] theorem State.deliver_arg0 (r : Result) : (s.deliver r).arg0 = s.arg0 := by cases r <;> rfl
@[simp] theorem State.deliver_arg1 (r : Result) : (s.deliver r).arg1 = s.arg1 := by cases r <;> rfl
@[simp] theorem State.deliver_txAddr (r : Result) : (s.deliver r).txAddr = s.txAddr := by cases r <;> rfl
@[simp] theorem State.deliver_txLen (r : Result) : (s.deliver r).txLen = s.txLen := by cases r <;> rfl
@[simp] theorem State.deliver_hostIp (r : Result) : (s.deliver r).hostIp = s.hostIp := by cases r <;> rfl
@[simp] theorem State.deliver_hostMacHi (r : Result) : (s.deliver r).hostMacHi = s.hostMacHi := by cases r <;> rfl
@[simp] theorem State.deliver_hostMacLo (r : Result) : (s.deliver r).hostMacLo = s.hostMacLo := by cases r <;> rfl
@[simp] theorem State.deliver_rpBase (r : Result) : (s.deliver r).rpBase = s.rpBase := by cases r <;> rfl
@[simp] theorem State.deliver_rpMode (r : Result) : (s.deliver r).rpMode = s.rpMode := by cases r <;> rfl
@[simp] theorem State.deliver_ipSet (r : Result) : (s.deliver r).ipSet = s.ipSet := by cases r <;> rfl
@[simp] theorem State.deliver_macHiSet (r : Result) : (s.deliver r).macHiSet = s.macHiSet := by cases r <;> rfl
@[simp] theorem State.deliver_macLoSet (r : Result) : (s.deliver r).macLoSet = s.macLoSet := by cases r <;> rfl
@[simp] theorem State.deliver_baseSet (r : Result) : (s.deliver r).baseSet = s.baseSet := by cases r <;> rfl
@[simp] theorem State.deliver_modeSet (r : Result) : (s.deliver r).modeSet = s.modeSet := by cases r <;> rfl
@[simp] theorem State.deliver_trace (r : Result) : (s.deliver r).trace = s.trace := by cases r <;> rfl
@[simp] theorem State.deliver_earlier (r : Result) : (s.deliver r).earlier = s.earlier := by cases r <;> rfl
@[simp] theorem State.deliver_mem (r : Result) : (s.deliver r).mem = s.mem := by cases r <;> rfl
@[simp] theorem State.deliver_ram (r : Result) : (s.deliver r).ram = s.ram := by cases r <;> rfl
@[simp] theorem State.deliver_blkBase (r : Result) : (s.deliver r).blkBase = s.blkBase := by cases r <;> rfl
@[simp] theorem State.deliver_inputs (r : Result) : (s.deliver r).inputs = s.inputs := by cases r <;> rfl
@[simp] theorem State.deliver_hostReads (r : Result) : (s.deliver r).hostReads = s.hostReads := by cases r <;> rfl
@[simp] theorem State.deliver_raced (r : Result) : (s.deliver r).raced = s.raced := by cases r <;> rfl
@[simp] theorem State.deliver_mmioAnswers (r : Result) : (s.deliver r).mmioAnswers = s.mmioAnswers := by cases r <;> rfl
@[simp] theorem State.deliver_portAnswers (r : Result) : (s.deliver r).portAnswers = s.portAnswers := by cases r <;> rfl
@[simp] theorem State.deliver_draws (r : Result) : (s.deliver r).draws = s.draws := by cases r <;> rfl

@[simp] theorem State.drawResults_err (r : Result) : (s.drawResults r).err = s.err := by
  cases r <;> first
    | rfl
    | (simp only [State.drawResults]; split <;> rfl)
@[simp] theorem State.drawResults_txReq (r : Result) : (s.drawResults r).txReq = s.txReq := by
  cases r <;> first
    | rfl
    | (simp only [State.drawResults]; split <;> rfl)
@[simp] theorem State.drawResults_overrun (r : Result) : (s.drawResults r).overrun = s.overrun := by
  cases r <;> first
    | rfl
    | (simp only [State.drawResults]; split <;> rfl)
@[simp] theorem State.drawResults_stickyErr (r : Result) : (s.drawResults r).stickyErr = s.stickyErr := by
  cases r <;> first
    | rfl
    | (simp only [State.drawResults]; split <;> rfl)
@[simp] theorem State.drawResults_cmd (r : Result) : (s.drawResults r).cmd = s.cmd := by
  cases r <;> first
    | rfl
    | (simp only [State.drawResults]; split <;> rfl)
@[simp] theorem State.drawResults_progress (r : Result) : (s.drawResults r).progress = s.progress := by
  cases r <;> first
    | rfl
    | (simp only [State.drawResults]; split <;> rfl)
@[simp] theorem State.drawResults_arg0 (r : Result) : (s.drawResults r).arg0 = s.arg0 := by
  cases r <;> first
    | rfl
    | (simp only [State.drawResults]; split <;> rfl)
@[simp] theorem State.drawResults_arg1 (r : Result) : (s.drawResults r).arg1 = s.arg1 := by
  cases r <;> first
    | rfl
    | (simp only [State.drawResults]; split <;> rfl)
@[simp] theorem State.drawResults_hostIp (r : Result) : (s.drawResults r).hostIp = s.hostIp := by
  cases r <;> first
    | rfl
    | (simp only [State.drawResults]; split <;> rfl)
@[simp] theorem State.drawResults_hostMacHi (r : Result) : (s.drawResults r).hostMacHi = s.hostMacHi := by
  cases r <;> first
    | rfl
    | (simp only [State.drawResults]; split <;> rfl)
@[simp] theorem State.drawResults_hostMacLo (r : Result) : (s.drawResults r).hostMacLo = s.hostMacLo := by
  cases r <;> first
    | rfl
    | (simp only [State.drawResults]; split <;> rfl)
@[simp] theorem State.drawResults_rpBase (r : Result) : (s.drawResults r).rpBase = s.rpBase := by
  cases r <;> first
    | rfl
    | (simp only [State.drawResults]; split <;> rfl)
@[simp] theorem State.drawResults_rpMode (r : Result) : (s.drawResults r).rpMode = s.rpMode := by
  cases r <;> first
    | rfl
    | (simp only [State.drawResults]; split <;> rfl)
@[simp] theorem State.drawResults_ipSet (r : Result) : (s.drawResults r).ipSet = s.ipSet := by
  cases r <;> first
    | rfl
    | (simp only [State.drawResults]; split <;> rfl)
@[simp] theorem State.drawResults_macHiSet (r : Result) : (s.drawResults r).macHiSet = s.macHiSet := by
  cases r <;> first
    | rfl
    | (simp only [State.drawResults]; split <;> rfl)
@[simp] theorem State.drawResults_macLoSet (r : Result) : (s.drawResults r).macLoSet = s.macLoSet := by
  cases r <;> first
    | rfl
    | (simp only [State.drawResults]; split <;> rfl)
@[simp] theorem State.drawResults_baseSet (r : Result) : (s.drawResults r).baseSet = s.baseSet := by
  cases r <;> first
    | rfl
    | (simp only [State.drawResults]; split <;> rfl)
@[simp] theorem State.drawResults_modeSet (r : Result) : (s.drawResults r).modeSet = s.modeSet := by
  cases r <;> first
    | rfl
    | (simp only [State.drawResults]; split <;> rfl)
@[simp] theorem State.drawResults_trace (r : Result) : (s.drawResults r).trace = s.trace := by
  cases r <;> first
    | rfl
    | (simp only [State.drawResults]; split <;> rfl)
@[simp] theorem State.drawResults_earlier (r : Result) : (s.drawResults r).earlier = s.earlier := by
  cases r <;> first
    | rfl
    | (simp only [State.drawResults]; split <;> rfl)
@[simp] theorem State.drawResults_mem (r : Result) : (s.drawResults r).mem = s.mem := by
  cases r <;> first
    | rfl
    | (simp only [State.drawResults]; split <;> rfl)
@[simp] theorem State.drawResults_ram (r : Result) : (s.drawResults r).ram = s.ram := by
  cases r <;> first
    | rfl
    | (simp only [State.drawResults]; split <;> rfl)
@[simp] theorem State.drawResults_blkBase (r : Result) : (s.drawResults r).blkBase = s.blkBase := by
  cases r <;> first
    | rfl
    | (simp only [State.drawResults]; split <;> rfl)
@[simp] theorem State.drawResults_inputs (r : Result) : (s.drawResults r).inputs = s.inputs := by
  cases r <;> first
    | rfl
    | (simp only [State.drawResults]; split <;> rfl)
@[simp] theorem State.drawResults_hostReads (r : Result) : (s.drawResults r).hostReads = s.hostReads := by
  cases r <;> first
    | rfl
    | (simp only [State.drawResults]; split <;> rfl)
@[simp] theorem State.drawResults_raced (r : Result) : (s.drawResults r).raced = s.raced := by
  cases r <;> first
    | rfl
    | (simp only [State.drawResults]; split <;> rfl)
@[simp] theorem State.drawResults_mmioAnswers (r : Result) : (s.drawResults r).mmioAnswers = s.mmioAnswers := by
  cases r <;> first
    | rfl
    | (simp only [State.drawResults]; split <;> rfl)
@[simp] theorem State.drawResults_portAnswers (r : Result) : (s.drawResults r).portAnswers = s.portAnswers := by
  cases r <;> first
    | rfl
    | (simp only [State.drawResults]; split <;> rfl)
@[simp] theorem State.drawResults_draws (r : Result) : (s.drawResults r).draws = s.draws := by
  cases r <;> first
    | rfl
    | (simp only [State.drawResults]; split <;> rfl)

@[simp] theorem State.perform_trace (x : Access) : (s.perform x).trace = s.trace ++ [x.event (s.answer x)] := rfl
@[simp] theorem State.perform_mem (x : Access) : (s.perform x).mem = (s.effect x).mem := rfl

@[simp] theorem State.busy_raise (e : Err) : (s.raise e).busy = false := rfl
@[simp] theorem State.busy_complete : s.complete.busy = false := rfl

end Sys2Proof.Machine
end

