-- ==== Sys2Proof/Laws/Program.lean ====
section
/-! SUPPORT. What running a command can do, said once for every program of accesses: which accesses it
can make (`Prog.All`), how it can end (`Prog.Ends`), what its run leaves (`State.Ran`), and, while the
host keeps its duty, the run of each statement of the pseudocode as one update of the state. -/

namespace Sys2Proof.Machine

/-! Which accesses a program can make, and how it can end. -/

/-- Every access that the program can make satisfies `P`, whatever its accesses return. -/
def Prog.All (P : Access → Prop) : Prog → Prop
  | .done _ => True
  | .raise _ => True
  | .act x k => P x ∧ ∀ w, (k w).All P

/-- Every end of the program satisfies `Q`, whatever its accesses return. -/
def Prog.Ends (Q : Except Err Result → Prop) : Prog → Prop
  | .done r => Q (.ok r)
  | .raise e => Q (.error e)
  | .act _ k => ∀ w, (k w).Ends Q

theorem Prog.All.check {P : Access → Prop} {α : Type} {c : Except Err α} {k : α → Prog}
    (h : ∀ a, c = .ok a → (k a).All P) : (Prog.check c k).All P := by
  cases c with
  | error e => exact trivial
  | ok a => exact h a rfl

theorem Prog.All.memRead {P : Access → Prop} {n : Nat} : ∀ {a : Nat} {k : List Byte → Prog},
    (∀ b, a ≤ b → b < a + n → P (.read b)) → (∀ bs, bs.length = n → (k bs).All P) → (Prog.memRead a n k).All P := by
  induction n with
  | zero => exact fun _ hk => hk [] rfl
  | succ n ih =>
    exact fun h hk => ⟨h _ le_rfl (by omega), fun w =>
      ih (fun b h1 h2 => h b (by omega) (by omega)) fun bs hl => hk _ (by simp [hl])⟩

theorem Prog.All.readBE {P : Access → Prop} {a n : Nat} {k : Nat → Prog}
    (h : ∀ b, a ≤ b → b < a + n → P (.read b)) (hk : ∀ v, (k v).All P) : (Prog.readBE a n k).All P :=
  Prog.All.memRead h fun _ _ => hk _

theorem Prog.All.memWrite {P : Access → Prop} {bs : List Byte} : ∀ {a : Nat} {p : Prog},
    (∀ b v, a ≤ b → b < a + bs.length → P (.write b v)) → p.All P → (Prog.memWrite a bs p).All P := by
  induction bs with
  | nil => exact fun _ hp => hp
  | cons b bs ih =>
    intro a p h hp
    simp only [List.length_cons] at h
    exact ⟨h _ _ le_rfl (by omega), fun _ => ih (fun b v h1 h2 => h b v (by omega) (by omega)) hp⟩

theorem Prog.All.writeBE {P : Access → Prop} {a n v : Nat} {p : Prog}
    (h : ∀ b w, a ≤ b → b < a + n → P (.write b w)) (hp : p.All P) : (Prog.writeBE a n v p).All P :=
  Prog.All.memWrite (by simpa using h) hp

theorem Prog.All.mono {P P' : Access → Prop} (h : ∀ x, P x → P' x) : ∀ {p : Prog}, p.All P → p.All P' := by
  intro p
  induction p with
  | done r => exact fun _ => trivial
  | raise e => exact fun _ => trivial
  | act x k ih => exact fun hp => ⟨h _ hp.1, fun w => ih w (hp.2 w)⟩

theorem Prog.All.resume {P : Access → Prop} (ws : List Word) : ∀ {p : Prog}, p.All P → (p.resume ws).All P := by
  induction ws with
  | nil => exact id
  | cons w ws ih =>
    intro p h
    cases p with
    | done r => exact h
    | raise e => exact h
    | act x k => exact ih (h.2 w)

theorem Prog.Ends.check {Q : Except Err Result → Prop} {α : Type} {c : Except Err α} {k : α → Prog}
    (he : ∀ e, c = .error e → Q (.error e)) (hk : ∀ a, c = .ok a → (k a).Ends Q) : (Prog.check c k).Ends Q := by
  cases c with
  | error e => exact he e rfl
  | ok a => exact hk a rfl

theorem Prog.Ends.memRead {Q : Except Err Result → Prop} {n : Nat} : ∀ {a : Nat} {k : List Byte → Prog},
    (∀ bs, (k bs).Ends Q) → (Prog.memRead a n k).Ends Q := by
  induction n with
  | zero => exact fun hk => hk []
  | succ n ih => exact fun hk w => ih fun bs => hk _

theorem Prog.Ends.readBE {Q : Except Err Result → Prop} {a n : Nat} {k : Nat → Prog} (hk : ∀ v, (k v).Ends Q) :
    (Prog.readBE a n k).Ends Q :=
  Prog.Ends.memRead fun _ => hk _

theorem Prog.Ends.memWrite {Q : Except Err Result → Prop} {bs : List Byte} : ∀ {a : Nat} {p : Prog},
    p.Ends Q → (Prog.memWrite a bs p).Ends Q := by
  induction bs with
  | nil => exact id
  | cons b bs ih => exact fun hp _ => ih hp

theorem Prog.Ends.writeBE {Q : Except Err Result → Prop} {a n v : Nat} {p : Prog} (hp : p.Ends Q) :
    (Prog.writeBE a n v p).Ends Q :=
  Prog.Ends.memWrite hp

theorem Prog.Ends.resume {Q : Except Err Result → Prop} (ws : List Word) :
    ∀ {p : Prog}, p.Ends Q → (p.resume ws).Ends Q := by
  induction ws with
  | nil => exact id
  | cons w ws ih =>
    intro p h
    cases p with
    | done r => exact h
    | raise e => exact h
    | act x k => exact ih (h w)

/-- A run ends as the program can end. -/
theorem Prog.runAll_ends {Q : Except Err Result → Prop} : ∀ {p : Prog} (s : State), p.Ends Q → Q (p.runAll s).1 := by
  intro p
  induction p with
  | done r => exact fun _ h => h
  | raise e => exact fun _ h => h
  | act x k ih => exact fun s h => ih _ _ (h _)

/-! What a run leaves. -/

/-- `t` comes from `s` by accesses that satisfy `P`. -/
structure State.Ran (P : Access → Prop) (s t : State) : Prop where
  rest : t =
    { s with
      txAddr := t.txAddr, txLen := t.txLen, txReq := t.txReq, mem := t.mem, trace := t.trace
      mmioAnswers := t.mmioAnswers, portAnswers := t.portAnswers, draws := t.draws }
  events : ∃ evs, t.trace = s.trace ++ evs ∧ ∀ e ∈ evs, ∃ x v, P x ∧ e = Access.event x v
  outside : ∀ a, (∀ b, ¬ P (.write a b)) → t.mem.read a = s.mem.read a
  wf : s.mem.wf → t.mem.wf
  cells : ∀ c ∈ t.mem, P (.write c.1 c.2) ∨ c ∈ s.mem
  noPost : (∀ a n, ¬ P (.postTx a n)) → t.txAddr = s.txAddr ∧ t.txLen = s.txLen ∧ t.txReq = s.txReq
  noWrite : (∀ a b, ¬ P (.write a b)) → t.mem = s.mem
  noRace : s.raced = [] → t.draws = s.draws

theorem State.Ran.refl (P : Access → Prop) (s : State) : s.Ran P s :=
  ⟨rfl, ⟨[], by simp, by simp⟩, fun _ _ => rfl, id, fun _ h => .inr h, fun _ => ⟨rfl, rfl, rfl⟩, fun _ => rfl,
    fun _ => rfl⟩

theorem State.Ran.raced {P : Access → Prop} {s t : State} (h : s.Ran P t) : t.raced = s.raced := by rw [h.rest]
theorem State.Ran.cmd {P : Access → Prop} {s t : State} (h : s.Ran P t) : t.cmd = s.cmd := by rw [h.rest]
theorem State.Ran.ram {P : Access → Prop} {s t : State} (h : s.Ran P t) : t.ram = s.ram := by rw [h.rest]

theorem State.Ran.trans {P : Access → Prop} {s t u : State} (h1 : s.Ran P t) (h2 : t.Ran P u) : s.Ran P u := by
  obtain ⟨evs1, e1, i1⟩ := h1.events
  obtain ⟨evs2, e2, i2⟩ := h2.events
  refine ⟨?_, ⟨evs1 ++ evs2, by rw [e2, e1, List.append_assoc], fun e h => ?_⟩,
    fun a h => (h2.outside a h).trans (h1.outside a h), fun h => h2.wf (h1.wf h), fun c hc => ?_, fun h => ?_,
    fun h => (h2.noWrite h).trans (h1.noWrite h), fun h => (h2.noRace (h1.raced.trans h)).trans (h1.noRace h)⟩
  · have r1 := h1.rest
    have r2 := h2.rest
    rw [r1] at r2
    exact r2
  · rcases List.mem_append.1 h with h | h
    · exact i1 e h
    · exact i2 e h
  · rcases h2.cells c hc with hc | hc
    · exact .inl hc
    · exact h1.cells c hc
  · obtain ⟨a1, b1, c1⟩ := h1.noPost h
    obtain ⟨a2, b2, c2⟩ := h2.noPost h
    exact ⟨a2.trans a1, b2.trans b1, c2.trans c1⟩

theorem State.perform_ran {P : Access → Prop} (s : State) {x : Access} (h : P x) : s.Ran P (s.perform x) := by
  have hev : ∀ e ∈ [x.event (s.answer x)], ∃ y v, P y ∧ e = Access.event y v := by
    intro e he
    rw [List.mem_singleton.1 he]
    exact ⟨x, _, h, rfl⟩
  cases x with
  | read a =>
    by_cases hr : a ∈ s.raced
    · simp only [State.perform, State.effect, if_pos hr]
      exact ⟨rfl, ⟨_, rfl, hev⟩, fun _ _ => rfl, id, fun _ h => .inr h, fun _ => ⟨rfl, rfl, rfl⟩, fun _ => rfl,
        fun h => absurd hr (by simp [h])⟩
    · simp only [State.perform, State.effect, if_neg hr]
      exact ⟨rfl, ⟨_, rfl, hev⟩, fun _ _ => rfl, id, fun _ h => .inr h, fun _ => ⟨rfl, rfl, rfl⟩, fun _ => rfl,
        fun _ => rfl⟩
  | write a b =>
    refine ⟨rfl, ⟨_, rfl, hev⟩, fun a' h' => ?_, fun hm => Memory.wf_write hm a b, fun c hc => ?_,
      fun _ => ⟨rfl, rfl, rfl⟩, fun h' => absurd h (h' a b), fun _ => rfl⟩
    · refine Memory.read_write_ne _ _ fun e => ?_
      subst e
      exact h' b h
    · rcases Memory.mem_write hc with rfl | hc
      · exact .inl h
      · exact .inr hc
  | postTx a n =>
    exact ⟨rfl, ⟨_, rfl, hev⟩, fun _ _ => rfl, id, fun _ h => .inr h, fun h' => absurd h (h' a n), fun _ => rfl,
      fun _ => rfl⟩
  | _ =>
    exact ⟨rfl, ⟨_, rfl, hev⟩, fun _ _ => rfl, id, fun _ h => .inr h, fun _ => ⟨rfl, rfl, rfl⟩, fun _ => rfl,
      fun _ => rfl⟩

/-- A run to the end leaves what its accesses leave. -/
theorem Prog.runAll_ran {P : Access → Prop} : ∀ {p : Prog} (s : State), p.All P → s.Ran P (p.runAll s).2 := by
  intro p
  induction p with
  | done r => exact fun s _ => .refl P s
  | raise e => exact fun s _ => .refl P s
  | act x k ih => exact fun s h => (s.perform_ran h.1).trans (ih _ _ (h.2 _))

/-- So does a run of some events. -/
theorem Prog.runFor_ran {P : Access → Prop} (n : Nat) : ∀ {p : Prog} (s : State), p.All P → s.Ran P (p.runFor n s) := by
  induction n with
  | zero => exact fun s _ => .refl P s
  | succ n ih =>
    intro p s h
    cases p with
    | done r => exact .refl P s
    | raise e => exact .refl P s
    | act x k => exact (s.perform_ran h.1).trans (ih _ (h.2 _))

/-- The events of a run of `n` events are the first `n` of the run to the end. -/
theorem Prog.runFor_trace (n : Nat) : ∀ (p : Prog) (s : State),
    ∃ evs, (p.runAll s).2.trace = s.trace ++ evs ∧ (p.runFor n s).trace = s.trace ++ evs.take n := by
  induction n with
  | zero =>
    intro p s
    obtain ⟨evs, h, -⟩ := (Prog.runAll_ran (P := fun _ => True) (p := p) s (by
      induction p with
      | done r => exact trivial
      | raise e => exact trivial
      | act x k ih => exact ⟨trivial, ih⟩)).events
    exact ⟨evs, h, by simp [Prog.runFor]⟩
  | succ n ih =>
    intro p s
    cases p with
    | done r => exact ⟨[], by simp [Prog.runAll], by simp [Prog.runFor]⟩
    | raise e => exact ⟨[], by simp [Prog.runAll], by simp [Prog.runFor]⟩
    | act x k =>
      obtain ⟨evs, h1, h2⟩ := ih (k (s.answer x)) (s.perform x)
      refine ⟨x.event (s.answer x) :: evs, ?_, ?_⟩
      · simp only [Prog.runAll, h1, State.perform_trace, List.append_assoc, List.singleton_append]
      · simp only [Prog.runFor, h2, State.perform_trace, List.append_assoc, List.singleton_append, List.take_succ_cons]

/-- A command whose next access is `x` has that access in its progress once it is made. -/
theorem Prog.resume_act {x : Access} {k : Word → Prog} (w : Word) (ws : List Word) : ∀ {p : Prog},
    p.resume ws = .act x k → p.resume (ws ++ [w]) = k w := by
  induction ws with
  | nil =>
    rintro p rfl
    rfl
  | cons v ws ih =>
    intro p h
    cases p with
    | done r => cases h
    | raise e => cases h
    | act y j => exact ih h

/-! The statements of the pseudocode while the host keeps its duty. -/

theorem State.saw_nil (s : State) : s.saw [] = s := by simp [State.saw]

theorem State.saw_saw (s : State) (a b : List Event) : (s.saw a).saw b = s.saw (a ++ b) := by simp [State.saw]

/-- `MemWrite(a, n, bs)` by the block, as one update. -/
def State.memWrite (s : State) (a : Nat) (bs : List Byte) : State :=
  { s with mem := s.mem.writeBytes a bs, trace := s.trace ++ ramWrites a bs }

theorem Memory.bytes_succ (m : Memory) (a n : Nat) : m.bytes a (n + 1) = m.read a :: m.bytes (a + 1) n := by
  simp [Memory.bytes, List.range_succ_eq_map, List.map_map, Function.comp_def, Nat.add_assoc, Nat.add_comm 1]

theorem State.perform_read {s : State} (hr : s.raced = []) (a : Nat) :
    s.answer (.read a) = (s.mem.read a).setWidth 32 ∧ s.perform (.read a) = s.saw [.ramRead a (s.mem.read a)] := by
  have h : s.answer (.read a) = (s.mem.read a).setWidth 32 := by simp [State.answer, State.ramByte, hr]
  refine ⟨h, ?_⟩
  simp [State.perform, State.effect, hr, h, Access.event, State.saw]

theorem Prog.runAll_memRead (n : Nat) : ∀ (a : Nat) (k : List Byte → Prog) {s : State}, s.raced = [] →
    (Prog.memRead a n k).runAll s = (k (s.mem.bytes a n)).runAll (s.saw (ramReads s.mem a n)) := by
  induction n with
  | zero =>
    intro a k s _
    simp [Prog.memRead, ramReads, State.saw_nil, Memory.bytes]
  | succ n ih =>
    intro a k s hr
    obtain ⟨h1, h2⟩ := State.perform_read hr a
    simp only [Prog.memRead, Prog.runAll, h1, h2]
    rw [ih _ _ (by simpa using hr)]
    simp [Memory.bytes_succ, ramReads, State.saw_saw]

theorem Prog.runAll_readBE (a n : Nat) (k : Nat → Prog) {s : State} (hr : s.raced = []) :
    (Prog.readBE a n k).runAll s = (k (s.mem.readBE a n)).runAll (s.saw (ramReads s.mem a n)) :=
  Prog.runAll_memRead n a _ hr

theorem Prog.runAll_memWrite (bs : List Byte) : ∀ (a : Nat) (p : Prog) (s : State),
    (Prog.memWrite a bs p).runAll s = p.runAll (s.memWrite a bs) := by
  induction bs with
  | nil =>
    intro a p s
    simp [Prog.memWrite, State.memWrite, ramWrites, Memory.writeBytes]
  | cons b bs ih =>
    intro a p s
    simp only [Prog.memWrite, Prog.runAll, ih]
    simp [State.perform, State.effect, State.memWrite, ramWrites, Memory.writeBytes, Access.event]

theorem Prog.runAll_writeBE (a n v : Nat) (p : Prog) (s : State) :
    (Prog.writeBE a n v p).runAll s = p.runAll (s.memWrite a (bytesBE n v)) :=
  Prog.runAll_memWrite _ _ _ _

@[simp] theorem Prog.runAll_log (e : LogEvent) (p : Prog) (s : State) :
    (Prog.log e p).runAll s = p.runAll (s.saw [.log e]) := rfl

@[simp] theorem Prog.runAll_postTx (a : Word) (n : BitVec 16) (p : Prog) (s : State) :
    (Prog.postTx a n p).runAll s =
      p.runAll { s with txAddr := a, txLen := n, txReq := true, trace := s.trace ++ [.postTx a n] } := rfl

/-- A command whose checks fail ends with their error; one whose checks hold goes on. -/
theorem Prog.runAll_check {α : Type} (c : Except Err α) (k : α → Prog) (s : State) :
    (Prog.check c k).runAll s = match c with
      | .error e => (.error e, s)
      | .ok a => (k a).runAll s := by
  cases c <;> rfl

/-! Completion while the host keeps its duty. -/

theorem State.conclude_error {s : State} (hr : s.raced = []) (e : Err) : s.conclude (.error e) = s.failed e := by
  simp [State.conclude, State.drawRaced, hr, freeBytes, State.raise, State.failed]

theorem State.conclude_ok {s : State} (hr : s.raced = []) (r : Result) : s.conclude (.ok r) = (s.deliver r).ended := by
  simp [State.conclude, State.drawRaced, hr, freeBytes, State.complete, State.ended]

/-- What a command that has just been accepted does: its pseudocode from the first statement on. -/
theorem State.execute_fresh {s : State} (hs : s.Fresh) (p : Prog) :
    s.execute p = .next ((p.runAll s).2.conclude (p.runAll s).1) := by
  simp [State.execute, hs.1, Prog.resume]

/-! Running does not depend on the inputs still to come, nor on the recorded progress. -/

theorem State.answer_congr (s : State) (ins : List Input) (ws : List Word) (x : Access) :
    State.answer { s with inputs := ins, progress := ws } x = s.answer x := by
  cases x <;> rfl

theorem State.perform_congr (s : State) (ins : List Input) (ws : List Word) (x : Access) :
    State.perform { s with inputs := ins, progress := ws } x = { s.perform x with inputs := ins, progress := ws } := by
  cases x with
  | read a =>
    simp only [State.perform, State.effect, State.answer, State.ramByte]
    split <;> rfl
  | _ => rfl

theorem Prog.runAll_congr (ins : List Input) (ws : List Word) (p : Prog) : ∀ s : State,
    p.runAll { s with inputs := ins, progress := ws } =
      ((p.runAll s).1, { (p.runAll s).2 with inputs := ins, progress := ws }) := by
  induction p with
  | done r => exact fun _ => rfl
  | raise e => exact fun _ => rfl
  | act x k ih =>
    intro s
    simp only [Prog.runAll, State.answer_congr, State.perform_congr, ih]

theorem State.conclude_congr (s : State) (ins : List Input) (ws : List Word) (r : Except Err Result) :
    State.conclude { s with inputs := ins, progress := ws } r = { s.conclude r with inputs := ins } := by
  unfold State.conclude
  cases r with
  | error e => rfl
  | ok r =>
    cases r <;> simp only [State.deliver, State.drawResults] <;> split <;> first
      | rfl
      | (split <;> rfl)

end Sys2Proof.Machine
end

