-- ==== Sys2Proof/Laws/Exec.lean ====
section
/-! SUPPORT. What the checks of the commands mean, and classification as a function of the frame's bytes. -/

namespace Sys2Proof.Machine

/-! Admitted RAM. -/

theorem State.memOK_lt {s : State} {a : Nat} (h : s.memOK a = true) : a < 2 ^ 32 := by
  simp only [State.memOK, Bool.and_eq_true, decide_eq_true_eq] at h
  exact h.1

theorem State.inBounds_memOK {s : State} {a n i : Nat} (h : s.inBounds a n = true) (hi : i < n) :
    s.memOK (a + i) = true := by
  simp only [State.inBounds, Bool.and_eq_true, List.all_eq_true, List.mem_range] at h
  exact h.2 i hi

theorem State.inBounds_memOK' {s : State} {a n b : Nat} (h : s.inBounds a n = true) (h1 : a ≤ b) (h2 : b < a + n) :
    s.memOK b = true := by
  have := State.inBounds_memOK (i := b - a) h (by omega)
  rwa [show a + (b - a) = b by omega] at this

theorem State.inBounds_le {s : State} {a n : Nat} (h : s.inBounds a n = true) (hn : 0 < n) : a + n ≤ 2 ^ 32 := by
  simp only [State.inBounds, Bool.and_eq_true, Bool.or_eq_true, decide_eq_true_eq] at h
  omega

/-- Two states with the same admitted RAM agree on what is in bounds. -/
theorem State.memOK_congr {s t : State} (h : t.ram = s.ram) (a : Nat) : t.memOK a = s.memOK a := by
  simp only [State.memOK, h]

theorem State.inBounds_congr {s t : State} (h : t.ram = s.ram) (a n : Nat) : t.inBounds a n = s.inBounds a n := by
  simp only [State.inBounds, State.memOK_congr h]

/-! The checks. -/

theorem State.rangeCheck_eq_ok {s : State} {u : Unit} :
    s.rangeCheck = .ok u ↔ s.lenHigh = 0 ∧ s.inBounds s.addr s.len = true := by
  unfold State.rangeCheck
  split
  · simp_all
  · split <;> simp_all

theorem State.frameCheck_eq_ok {s : State} {needIp needMac : Bool} {u : Unit} :
    s.frameCheck needIp needMac = .ok u ↔
      s.lenHigh = 0 ∧ (needIp = true → s.hostIpSet = true) ∧ (needMac = true → s.hostMacSet = true) ∧
        s.inBounds s.addr s.len = true := by
  unfold State.frameCheck
  split
  · simp_all
  · split
    · next h =>
      simp only [Bool.or_eq_true, Bool.and_eq_true, Bool.not_eq_true'] at h
      simp only [reduceCtorEq, false_iff]
      rintro ⟨-, h1, h2, -⟩
      rcases h with h | h <;> simp_all
    · next h =>
      simp only [Bool.or_eq_true, Bool.and_eq_true, Bool.not_eq_true', not_or, not_and, Bool.not_eq_false] at h
      split <;> simp_all

theorem State.regCheck_eq_ok {s : State} {u : Unit} :
    s.regCheck = .ok u ↔
      s.rpSet = true ∧
        ((s.rpMode = .memoryMapped ∧ (s.rpBase.toNat + s.reg.toNat) % 4 = 0 ∧
            s.rpBase.toNat + s.reg.toNat + 4 ≤ 2 ^ 32) ∨
          (s.rpMode = .portMapped ∧ s.rpBase.toNat ≤ 0xFFF8)) := by
  unfold State.regCheck
  cases hs : s.rpSet
  · simp
  · cases hm : s.rpMode
    · simp only [Bool.not_true, Bool.false_eq_true, if_false]
      split
      · next h =>
        simp only [reduceCtorEq, false_and, or_false, true_and, false_iff, not_and]
        intro h1 h2
        omega
      · next h =>
        simp only [reduceCtorEq, false_and, or_false, true_and, true_iff]
        omega
    · simp only [Bool.not_true, Bool.false_eq_true, if_false]
      split
      · next h => simp; omega
      · next h => simp; omega

theorem State.fieldCheck_eq_ok {s : State} {hdr : BitVec 4} {field : BitVec 8} {chunk : BitVec 4} {l : FieldLayout} :
    s.fieldCheck hdr field chunk = .ok l ↔
      layout hdr field = some l ∧ validSelector hdr field chunk = true ∧
        s.inBounds (chunkAddr l s.addr chunk) (chunkWidth l chunk) = true := by
  unfold State.fieldCheck
  split
  · simp_all
  · next l' hl =>
    cases hv : validSelector hdr field chunk
    · simp
    · simp only [Bool.not_true, Bool.false_eq_true, if_false, hl, Option.some.injEq, true_and]
      split
      · next hb =>
        constructor
        · intro h
          cases h
          exact ⟨rfl, hb⟩
        · rintro ⟨rfl, -⟩
          rfl
      · next hb =>
        simp only [reduceCtorEq, false_iff]
        rintro ⟨rfl, h⟩
        exact hb h

/-! The reads of a frame. -/

theorem ReadsIn.nil (m : Memory) (a n : Nat) : ReadsIn m a n [] := by simp [ReadsIn]

theorem ReadsIn.append {m : Memory} {a n : Nat} {xs ys : List Event} (h1 : ReadsIn m a n xs) (h2 : ReadsIn m a n ys) :
    ReadsIn m a n (xs ++ ys) := fun e he => by
  rcases List.mem_append.1 he with he | he
  · exact h1 e he
  · exact h2 e he

theorem ramReads_in {m : Memory} {lo len : Nat} : ∀ {n a : Nat}, lo ≤ a → a + n ≤ lo + len →
    ReadsIn m lo len (ramReads m a n) := by
  intro n
  induction n with
  | zero => exact fun _ _ => ReadsIn.nil _ _ _
  | succ n ih =>
    intro a h1 h2 e he
    rcases List.mem_cons.1 he with rfl | he
    · exact ⟨a, h1, by omega, rfl⟩
    · exact ih (by omega) (by omega) e he

@[simp] theorem length_ramReads (m : Memory) : ∀ n a : Nat, (ramReads m a n).length = n := by
  intro n
  induction n with
  | zero => exact fun _ => rfl
  | succ n ih => exact fun a => by simp [ramReads, ih]

/-- Reads of the same bytes in another memory are the same events. -/
theorem ramReads_congr {m m' : Memory} : ∀ {n a : Nat}, (∀ b, a ≤ b → b < a + n → m'.read b = m.read b) →
    ramReads m' a n = ramReads m a n := by
  intro n
  induction n with
  | zero => exact fun _ => rfl
  | succ n ih =>
    intro a h
    simp only [ramReads, h a le_rfl (by omega), ih (a := a + 1) fun b h1 h2 => h b (by omega) (by omega)]

@[simp] theorem effects_append (xs ys : List Event) : effects (xs ++ ys) = effects xs ++ effects ys :=
  List.filter_append ..

@[simp] theorem effects_ramReads (m : Memory) : ∀ n a : Nat, effects (ramReads m a n) = [] := by
  intro n
  induction n with
  | zero => exact fun _ => rfl
  | succ n ih => exact fun a => by simpa [ramReads, effects, Event.isRamRead] using ih (a + 1)

theorem ReadsIn.effects {m : Memory} {a n : Nat} {evs : List Event} (h : ReadsIn m a n evs) : effects evs = [] := by
  simp only [Machine.effects, List.filter_eq_nil_iff]
  intro e he
  obtain ⟨k, -, -, rfl⟩ := h e he
  simp [Event.isRamRead]

@[simp] theorem effects_ramWrites (bs : List Byte) : ∀ a : Nat, effects (ramWrites a bs) = ramWrites a bs := by
  induction bs with
  | nil => exact fun _ => rfl
  | cons b bs ih => exact fun a => congrArg _ (ih (a + 1))

theorem mem_ramWrites {bs : List Byte} : ∀ {a : Nat} {e : Event}, e ∈ ramWrites a bs →
    ∃ k b, e = .ramWrite k b ∧ a ≤ k ∧ k < a + bs.length := by
  induction bs with
  | nil => exact fun h => absurd h (by simp [ramWrites])
  | cons b bs ih =>
    intro a e h
    rcases List.mem_cons.1 h with rfl | h
    · exact ⟨a, b, rfl, le_rfl, by simp⟩
    · obtain ⟨k, c, rfl, h1, h2⟩ := ih h
      exact ⟨k, c, rfl, by omega, by simp only [List.length_cons]; omega⟩

/-! Classification as a function of the bytes in RAM: what the reads of `Prog.classify` come to while the
host keeps its duty. -/

/-- The IPv4 header-length nibble of the frame at `f` (R164). -/
def ihlOf (m : Memory) (f : Nat) : Nat := ihlNibble (m.readBE (f + 14) 1)

/-- `IcmpLayout(f, n)` (R173). -/
def icmpLayoutOf (m : Memory) (f n : Nat) : Except Err IcmpGeometry :=
  if n < 34 then .error .frameShort
  else if ihlOf m f < 5 then .error .malformed
  else if 14 + 4 * ihlOf m f + 8 > n then .error .frameShort
  else if m.readBE (f + 16) 2 < 4 * ihlOf m f + 8 then .error .malformed
  else if 14 + m.readBE (f + 16) 2 > n then .error .frameShort
  else .ok ⟨ihlOf m f, 14 + 4 * ihlOf m f, m.readBE (f + 16) 2 - 4 * ihlOf m f⟩

/-- `ClassifyArp` (R163). HTYPE, PTYPE, HLEN and PLEN are not checked. -/
def classifyArpOf (m : Memory) (hostIp : List Byte) (f n : Nat) : Except Err FrameInfo :=
  if n < 42 then .error .frameShort
  else if m.readBE (f + 20) 2 = 0x0001 ∧ m.bytes (f + 38) 4 = hostIp then .ok ⟨.arp, .arp, 14, 0⟩
  else .ok ⟨.arp, .none, 14, 0⟩

/-- `ClassifyIcmp` (R165). The ICMP code is not checked. -/
def classifyIcmpOf (m : Memory) (hostIp : List Byte) (f n l4 : Nat) : Except Err FrameInfo :=
  if l4 + 8 > n then .error .frameShort
  else if m.readBE (f + l4) 1 = 0x08 ∧ m.bytes (f + 30) 4 = hostIp then
    match icmpLayoutOf m f n with
    | .error e => .error e
    | .ok g => .ok ⟨.ipv4Icmp, .icmpEcho g, 14, l4⟩
  else .ok ⟨.ipv4Icmp, .none, 14, l4⟩

/-- The protocol case of `ClassifyIpv4` (R164, R166). -/
def classifyProtocolOf (m : Memory) (hostIp : List Byte) (f n l4 : Nat) : Except Err FrameInfo :=
  if m.readBE (f + 23) 1 = 0x01 then classifyIcmpOf m hostIp f n l4
  else if m.readBE (f + 23) 1 = 0x06 then
    if l4 + 20 > n then .error .frameShort else .ok ⟨.ipv4Tcp, .none, 14, l4⟩
  else if m.readBE (f + 23) 1 = 0x11 then
    if l4 + 8 > n then .error .frameShort else .ok ⟨.ipv4Udp, .none, 14, l4⟩
  else .ok ⟨.ipv4Other, .none, 14, l4⟩

/-- `ClassifyIpv4` (R164). The VERSION nibble is not checked. -/
def classifyIpv4Of (m : Memory) (hostIp : List Byte) (f n : Nat) : Except Err FrameInfo :=
  if n < 34 then .error .frameShort
  else if ihlOf m f < 5 then .error .malformed
  else if 14 + 4 * ihlOf m f > n then .error .frameShort
  else classifyProtocolOf m hostIp f n (14 + 4 * ihlOf m f)

/-- `ClassifyIpv6` (R167). -/
def classifyIpv6Of (m : Memory) (f n : Nat) : Except Err FrameInfo :=
  if n < 54 then .error .frameShort
  else if m.readBE (f + 20) 1 = 0x11 then
    if n < 62 then .error .frameShort else .ok ⟨.ipv6Udp, .none, 14, 54⟩
  else .ok ⟨.ipv6Other, .none, 14, 0⟩

/-- `Classify(f, n)` (R162), with R168 for any other ethertype. It only reads RAM. -/
def classifyOf (m : Memory) (hostIp : List Byte) (f n : Nat) : Except Err FrameInfo :=
  if n < 14 then .error .frameShort
  else if m.readBE (f + 12) 2 = 0x0806 then classifyArpOf m hostIp f n
  else if m.readBE (f + 12) 2 = 0x0800 then classifyIpv4Of m hostIp f n
  else if m.readBE (f + 12) 2 = 0x86DD then classifyIpv6Of m f n
  else .ok ⟨.unknown, .none, 0, 0⟩

theorem Memory.readBE_one (m : Memory) (a : Nat) : m.readBE a 1 = (m.read a).toNat := by
  simp [Memory.readBE, Memory.bytes, beNat, Nat.shiftLeft_eq]

theorem ihlOf_eq (m : Memory) (f : Nat) : ihlOf m f = (m.read (f + 14)).toNat % 16 := by
  simp [ihlOf, ihlNibble, Memory.readBE_one]

theorem ihlOf_lt (m : Memory) (f : Nat) : ihlOf m f < 16 := by
  unfold ihlOf ihlNibble
  omega

theorem icmpLayoutOf_eq_ok {m : Memory} {f n : Nat} {g : IcmpGeometry} :
    icmpLayoutOf m f n = .ok g ↔
      34 ≤ n ∧ 5 ≤ ihlOf m f ∧ 14 + 4 * ihlOf m f + 8 ≤ n ∧ 4 * ihlOf m f + 8 ≤ m.readBE (f + 16) 2 ∧
        14 + m.readBE (f + 16) 2 ≤ n ∧
        g = ⟨ihlOf m f, 14 + 4 * ihlOf m f, m.readBE (f + 16) 2 - 4 * ihlOf m f⟩ := by
  unfold icmpLayoutOf
  split_ifs <;> first
    | (simp only [false_iff]; omega)
    | (simp only [Except.ok.injEq]; constructor
       · rintro rfl; exact ⟨by omega, by omega, by omega, by omega, by omega, rfl⟩
       · rintro ⟨-, -, -, -, -, rfl⟩; rfl)

/-- The reply that each branch of `Classify` can ask for. -/
theorem classifyIpv6_reply {m : Memory} {f n : Nat} {info : FrameInfo} (h : classifyIpv6Of m f n = .ok info) :
    info.reply = .none := by
  unfold classifyIpv6Of at h
  split_ifs at h <;> cases h <;> rfl

theorem classifyArp_reply {m : Memory} {ip : List Byte} {f n : Nat} {info : FrameInfo}
    (h : classifyArpOf m ip f n = .ok info) : 42 ≤ n ∧ (info.reply = .none ∨ info.reply = .arp) := by
  unfold classifyArpOf at h
  split_ifs at h with h1 h2
  · cases h
    exact ⟨by omega, .inr rfl⟩
  · cases h
    exact ⟨by omega, .inl rfl⟩

theorem classifyIcmp_reply {m : Memory} {ip : List Byte} {f n l4 : Nat} {info : FrameInfo}
    (h : classifyIcmpOf m ip f n l4 = .ok info) :
    info.reply = .none ∨ ∃ g, info.reply = .icmpEcho g ∧ icmpLayoutOf m f n = .ok g := by
  unfold classifyIcmpOf at h
  split_ifs at h with h1 h2
  · cases hg : icmpLayoutOf m f n with
    | error e => rw [hg] at h; cases h
    | ok g =>
      rw [hg] at h
      cases h
      exact .inr ⟨g, rfl, rfl⟩
  · cases h
    exact .inl rfl

theorem classifyIpv4_reply {m : Memory} {ip : List Byte} {f n : Nat} {info : FrameInfo}
    (h : classifyIpv4Of m ip f n = .ok info) :
    info.reply = .none ∨ ∃ g, info.reply = .icmpEcho g ∧ icmpLayoutOf m f n = .ok g := by
  unfold classifyIpv4Of at h
  split_ifs at h
  unfold classifyProtocolOf at h
  split_ifs at h
  · exact classifyIcmp_reply h
  · cases h
    exact .inl rfl
  · cases h
    exact .inl rfl
  · cases h
    exact .inl rfl

/-- What `Classify` can ask for: no reply, an ARP reply to a frame that holds the whole ARP header
(spec/43_dispatch.md R163), or an echo reply to a frame that has passed `IcmpLayout` (R165). -/
theorem classify_reply {m : Memory} {ip : List Byte} {f n : Nat} {info : FrameInfo}
    (h : classifyOf m ip f n = .ok info) :
    info.reply = .none ∨ (info.reply = .arp ∧ 42 ≤ n) ∨
      ∃ g, info.reply = .icmpEcho g ∧ icmpLayoutOf m f n = .ok g := by
  unfold classifyOf at h
  split_ifs at h
  · rcases classifyArp_reply h with ⟨h1, h2 | h2⟩
    · exact .inl h2
    · exact .inr (.inl ⟨h2, h1⟩)
  · exact (classifyIpv4_reply h).imp_right .inr
  · exact .inl (classifyIpv6_reply h)
  · cases h
    exact .inl rfl

/-- The program `p`, which goes on with `onErr` or with its argument, only reads the frame, and goes on as the
value `c` of the frame's bytes says. -/
structure Prog.Reads {α : Type} (f n : Nat) (onErr : Err → Prog) (c : Memory → Except Err α)
    (p : (α → Prog) → Prog) : Prop where
  run : ∀ s : State, s.raced = [] → ∃ evs, ReadsIn s.mem f n evs ∧ ∀ k, (p k).runAll s =
    match c s.mem with
    | .error e => (onErr e).runAll (s.saw evs)
    | .ok a => (k a).runAll (s.saw evs)

theorem Prog.Reads.pure {α : Type} {f n : Nat} {onErr : Err → Prog} (a : α) :
    Prog.Reads f n onErr (fun _ => .ok a) fun k => k a :=
  ⟨fun s _ => ⟨[], ReadsIn.nil _ _ _, fun _ => by simp [State.saw_nil]⟩⟩

theorem Prog.Reads.fail {α : Type} {f n : Nat} {onErr : Err → Prog} (e : Err) :
    Prog.Reads (α := α) f n onErr (fun _ => .error e) fun _ => onErr e :=
  ⟨fun s _ => ⟨[], ReadsIn.nil _ _ _, fun _ => by simp [State.saw_nil]⟩⟩

theorem Prog.Reads.bytes {α : Type} {f n : Nat} (a w : Nat) {onErr : Err → Prog} {c : List Byte → Memory → Except Err α}
    {p : List Byte → (α → Prog) → Prog} (h1 : f ≤ a) (h2 : a + w ≤ f + n)
    (h : ∀ bs, Prog.Reads f n onErr (c bs) (p bs)) :
    Prog.Reads f n onErr (fun m => c (m.bytes a w) m) fun k => .memRead a w fun bs => p bs k := by
  refine ⟨fun s hr => ?_⟩
  obtain ⟨evs, h3, h4⟩ := (h (s.mem.bytes a w)).run (s.saw (ramReads s.mem a w)) (by simpa using hr)
  refine ⟨ramReads s.mem a w ++ evs, (ramReads_in h1 h2).append h3, fun k => ?_⟩
  rw [Prog.runAll_memRead _ _ _ hr, h4, State.saw_saw]
  rfl

theorem Prog.Reads.number {α : Type} {f n : Nat} (a w : Nat) {onErr : Err → Prog} {c : Nat → Memory → Except Err α}
    {p : Nat → (α → Prog) → Prog} (h1 : f ≤ a) (h2 : a + w ≤ f + n) (h : ∀ v, Prog.Reads f n onErr (c v) (p v)) :
    Prog.Reads f n onErr (fun m => c (m.readBE a w) m) fun k => .readBE a w fun v => p v k :=
  Prog.Reads.bytes a w (c := fun bs => c (beNat bs)) (p := fun bs => p (beNat bs)) h1 h2 fun _ => h _

theorem Prog.Reads.ite {α : Type} {f n : Nat} {onErr : Err → Prog} {b : Prop} [Decidable b]
    {c d : Memory → Except Err α} {p q : (α → Prog) → Prog} (h1 : b → Prog.Reads f n onErr c p)
    (h2 : ¬ b → Prog.Reads f n onErr d q) :
    Prog.Reads f n onErr (fun m => if b then c m else d m) fun k => if b then p k else q k := by
  by_cases hb : b
  · simpa only [if_pos hb] using h1 hb
  · simpa only [if_neg hb] using h2 hb

/-- A program that goes on with a function of the value. -/
theorem Prog.Reads.map {α β : Type} {f n : Nat} {onErr : Err → Prog} {c : Memory → Except Err α}
    {p : (α → Prog) → Prog} (g : α → β) (h : Prog.Reads f n onErr c p) :
    Prog.Reads f n onErr (fun m => (c m).map g) fun k => p fun a => k (g a) := by
  refine ⟨fun s hr => ?_⟩
  obtain ⟨evs, h1, h2⟩ := h.run s hr
  refine ⟨evs, h1, fun k => ?_⟩
  rw [h2]
  cases c s.mem <;> simp only [Except.map]

theorem Prog.icmpLayout_reads (f n : Nat) (onErr : Err → Prog) :
    Prog.Reads f n onErr (fun m => icmpLayoutOf m f n) (Prog.icmpLayout f n onErr) := by
  unfold icmpLayoutOf ihlOf Prog.icmpLayout
  refine .ite (fun _ => .fail _) fun h1 => ?_
  refine .number (f + 14) 1 (c := fun b m => (
    if ihlNibble b < 5 then .error .malformed
    else if 14 + 4 * ihlNibble b + 8 > n then .error .frameShort
    else if m.readBE (f + 16) 2 < 4 * ihlNibble b + 8 then .error .malformed
    else if 14 + m.readBE (f + 16) 2 > n then .error .frameShort
    else .ok ⟨ihlNibble b, 14 + 4 * ihlNibble b, m.readBE (f + 16) 2 - 4 * ihlNibble b⟩ : Except Err IcmpGeometry)) (by omega) (by omega) fun b => ?_
  refine .ite (fun _ => .fail _) fun _ => .ite (fun _ => .fail _) fun _ => ?_
  refine .number (f + 16) 2 (c := fun tl _ => (
    if tl < 4 * ihlNibble b + 8 then .error .malformed
    else if 14 + tl > n then .error .frameShort
    else .ok ⟨ihlNibble b, 14 + 4 * ihlNibble b, tl - 4 * ihlNibble b⟩ : Except Err IcmpGeometry)) (by omega) (by omega) fun tl => ?_
  exact .ite (fun _ => .fail _) fun _ => .ite (fun _ => .fail _) fun _ => .pure _

theorem Prog.classifyArp_reads (ip : List Byte) (f n : Nat) :
    Prog.Reads f n .raise (fun m => classifyArpOf m ip f n) (Prog.classifyArp ip f n) := by
  unfold classifyArpOf Prog.classifyArp
  refine .ite (fun _ => .fail _) fun h1 => ?_
  refine .number (f + 20) 2 (c := fun oper m => (
    if oper = 0x0001 ∧ m.bytes (f + 38) 4 = ip then .ok ⟨.arp, .arp, 14, 0⟩ else .ok ⟨.arp, .none, 14, 0⟩ : Except Err FrameInfo))
    (by omega) (by omega) fun oper => ?_
  refine .bytes (f + 38) 4 (c := fun tpa _ => (
    if oper = 0x0001 ∧ tpa = ip then .ok ⟨.arp, .arp, 14, 0⟩ else .ok ⟨.arp, .none, 14, 0⟩ : Except Err FrameInfo))
    (by omega) (by omega) fun tpa => ?_
  exact .ite (fun _ => .pure _) fun _ => .pure _

theorem Prog.classifyIcmp_reads (ip : List Byte) (f n l4 : Nat) (h34 : 34 ≤ n) :
    Prog.Reads f n .raise (fun m => classifyIcmpOf m ip f n l4) (Prog.classifyIcmp ip f n l4) := by
  have e : ∀ m, classifyIcmpOf m ip f n l4 =
      if l4 + 8 > n then .error .frameShort
      else if m.readBE (f + l4) 1 = 0x08 ∧ m.bytes (f + 30) 4 = ip then
        (icmpLayoutOf m f n).map fun g => ⟨.ipv4Icmp, .icmpEcho g, 14, l4⟩
      else .ok ⟨.ipv4Icmp, .none, 14, l4⟩ := by
    intro m
    unfold classifyIcmpOf
    cases icmpLayoutOf m f n <;> rfl
  simp only [e]
  unfold Prog.classifyIcmp
  refine .ite (fun _ => .fail _) fun h1 => ?_
  refine .number (f + l4) 1 (c := fun type m => (
    if type = 0x08 ∧ m.bytes (f + 30) 4 = ip then
      (icmpLayoutOf m f n).map fun g => ⟨.ipv4Icmp, .icmpEcho g, 14, l4⟩
    else .ok ⟨.ipv4Icmp, .none, 14, l4⟩ : Except Err FrameInfo)) (by omega) (by omega) fun type => ?_
  refine .bytes (f + 30) 4 (c := fun dst m => (
    if type = 0x08 ∧ dst = ip then
      (icmpLayoutOf m f n).map fun g => ⟨.ipv4Icmp, .icmpEcho g, 14, l4⟩
    else .ok ⟨.ipv4Icmp, .none, 14, l4⟩ : Except Err FrameInfo)) (by omega) (by omega) fun dst => ?_
  exact .ite (fun _ => (Prog.icmpLayout_reads f n .raise).map _) fun _ => .pure _

theorem Prog.classifyIpv4_reads (ip : List Byte) (f n : Nat) :
    Prog.Reads f n .raise (fun m => classifyIpv4Of m ip f n) (Prog.classifyIpv4 ip f n) := by
  unfold classifyIpv4Of ihlOf Prog.classifyIpv4
  refine .ite (fun _ => .fail _) fun h1 => ?_
  refine .number (f + 14) 1 (c := fun b m => (
    if ihlNibble b < 5 then .error .malformed
    else if 14 + 4 * ihlNibble b > n then .error .frameShort
    else classifyProtocolOf m ip f n (14 + 4 * ihlNibble b) : Except Err FrameInfo)) (by omega) (by omega) fun b => ?_
  refine .ite (fun _ => .fail _) fun _ => .ite (fun _ => .fail _) fun h2 => ?_
  unfold classifyProtocolOf
  refine .number (f + 23) 1 (c := fun proto m => (
    if proto = 0x01 then classifyIcmpOf m ip f n (14 + 4 * ihlNibble b)
    else if proto = 0x06 then
      if 14 + 4 * ihlNibble b + 20 > n then .error .frameShort else .ok ⟨.ipv4Tcp, .none, 14, 14 + 4 * ihlNibble b⟩
    else if proto = 0x11 then
      if 14 + 4 * ihlNibble b + 8 > n then .error .frameShort else .ok ⟨.ipv4Udp, .none, 14, 14 + 4 * ihlNibble b⟩
    else .ok ⟨.ipv4Other, .none, 14, 14 + 4 * ihlNibble b⟩ : Except Err FrameInfo)) (by omega) (by omega) fun proto => ?_
  exact .ite (fun _ => Prog.classifyIcmp_reads _ _ _ _ (by omega)) fun _ =>
    .ite (fun _ => .ite (fun _ => .fail _) fun _ => .pure _) fun _ =>
    .ite (fun _ => .ite (fun _ => .fail _) fun _ => .pure _) fun _ => .pure _

theorem Prog.classifyIpv6_reads (f n : Nat) :
    Prog.Reads f n .raise (fun m => classifyIpv6Of m f n) (Prog.classifyIpv6 f n) := by
  unfold classifyIpv6Of Prog.classifyIpv6
  refine .ite (fun _ => .fail _) fun h1 => ?_
  refine .number (f + 20) 1 (c := fun nh _ => ( if nh = 0x11 then
    (if n < 62 then .error .frameShort else .ok ⟨.ipv6Udp, .none, 14, 54⟩) else .ok ⟨.ipv6Other, .none, 14, 0⟩ : Except Err FrameInfo))
    (by omega) (by omega) fun nh => ?_
  exact .ite (fun _ => .ite (fun _ => .fail _) fun _ => .pure _) fun _ => .pure _

/-- `Classify` only reads the frame, and its outcome is `classifyOf` of the frame's bytes. -/
theorem Prog.classify_reads (ip : List Byte) (f n : Nat) :
    Prog.Reads f n .raise (fun m => classifyOf m ip f n) (Prog.classify ip f n) := by
  unfold classifyOf Prog.classify
  refine .ite (fun _ => .fail _) fun h1 => ?_
  refine .number (f + 12) 2 (c := fun et m => (
    if et = 0x0806 then classifyArpOf m ip f n
    else if et = 0x0800 then classifyIpv4Of m ip f n
    else if et = 0x86DD then classifyIpv6Of m f n
    else .ok ⟨.unknown, .none, 0, 0⟩ : Except Err FrameInfo)) (by omega) (by omega) fun et => ?_
  exact .ite (fun _ => Prog.classifyArp_reads ..) fun _ => .ite (fun _ => Prog.classifyIpv4_reads ..) fun _ =>
    .ite (fun _ => Prog.classifyIpv6_reads ..) fun _ => .pure _

end Sys2Proof.Machine
end

