-- ==== Sys2Proof/Laws/Host.lean ====
section
/-! SUPPORT. What a host access does, once: a window access at a 4-aligned offset, any other window
access, and an access to RAM; and which agent a step moves. -/

namespace Sys2Proof.Machine

theorem State.touchesWindow_offset (s : State) {offset width : Nat} (h : offset < 256) (hw : 0 < width) :
    s.touchesWindow (s.blkBase + offset) width = true := by
  simp only [State.touchesWindow, Bool.and_eq_true, decide_eq_true_eq]
  omega

theorem State.admittedWindow_offset (s : State) {offset width : Nat} (h : offset < 256) :
    s.admittedWindow (s.blkBase + offset) width = true ↔ width = 4 ∧ offset % 4 = 0 := by
  simp only [State.admittedWindow, Bool.and_eq_true, decide_eq_true_eq, Nat.add_sub_cancel_left]
  omega

theorem State.hostStore_window (s : State) {k : Nat} (v : Nat) (h : k < 64) :
    s.hostStore (s.blkBase + 4 * k) 4 v = .next (s.windowWrite (regAt (4 * k)) (BitVec.ofNat 32 v)).tick := by
  unfold State.hostStore
  rw [if_pos (s.touchesWindow_offset (by omega) (by omega)),
    if_pos ((s.admittedWindow_offset (by omega)).2 ⟨rfl, by omega⟩), Nat.add_sub_cancel_left]

theorem State.hostLoad_window (s : State) {k : Nat} (h : k < 64) :
    s.hostLoad (s.blkBase + 4 * k) 4 =
      .next ({ s with hostReads := s.hostReads ++ [(s.windowValue (regAt (4 * k))).toNat] } : State).tick := by
  unfold State.hostLoad
  rw [if_pos (s.touchesWindow_offset (by omega) (by omega)),
    if_pos ((s.admittedWindow_offset (by omega)).2 ⟨rfl, by omega⟩), Nat.add_sub_cancel_left]

theorem State.hostStore_ram (s : State) {a w v : Nat} (h1 : s.touchesWindow a w = false)
    (h2 : s.inBounds a w = true) : s.hostStore a w v = .next (s.hostWrite a w v).tick := by
  unfold State.hostStore
  rw [if_neg (by simp [h1]), if_pos h2]

theorem State.hostLoad_ram (s : State) {a w : Nat} (h1 : s.touchesWindow a w = false)
    (h2 : s.inBounds a w = true) : s.hostLoad a w = .next (s.hostRead a w).tick := by
  unfold State.hostLoad
  rw [if_neg (by simp [h1]), if_pos h2]

/-- What a stuck host does, if it answers a next state: it lets another agent's input come first, or the
block have its turn. -/
theorem State.hostStuck_next {s t : State} {i : Input} {f : Fault} (h : s.hostStuck i f = .next t) :
    (∃ ins, t = { s with inputs := ins }) ∨
      (s.busy = true ∧ ({ s with inputs := i :: s.inputs } : State).blockStep = .next t) := by
  unfold State.hostStuck at h
  split at h
  · cases h
    exact .inl ⟨_, rfl⟩
  · split_ifs at h with hb
    exact .inr ⟨hb, h⟩

/-- The inputs of a stuck host's machine in which no other agent has anything to do. -/
theorem otherAgent_eq_none {ins : List Input} (h : ins.all Input.isHost = true) : otherAgent ins = none := by
  induction ins with
  | nil => rfl
  | cons i rest ih =>
    simp only [List.all_cons, Bool.and_eq_true] at h
    simp only [otherAgent, h.1, if_true, ih h.2]

/-- The first input of another agent is taken out of its place. -/
theorem otherAgent_eq_some {hosts later : List Input} {j : Input} (h : hosts.all Input.isHost = true)
    (hj : j.isHost = false) : otherAgent (hosts ++ j :: later) = some (j, hosts ++ later) := by
  induction hosts with
  | nil => simp [otherAgent, hj]
  | cons i rest ih =>
    simp only [List.all_cons, Bool.and_eq_true] at h
    simp only [List.cons_append, otherAgent, h.1, if_true, ih h.2]

/-- What a host store can do, if it answers a next state: a write to the window, a write to RAM, or, for an
access that gets no step, what a stuck host does. -/
theorem State.hostStore_next {s t : State} {a w v : Nat} (h : s.hostStore a w v = .next t) :
    (∃ r, t = (s.windowWrite r (BitVec.ofNat 32 v)).tick) ∨
      (s.inBounds a w = true ∧ t = (s.hostWrite a w v).tick) ∨
      (∃ ins, t = { s with inputs := ins }) ∨
      (s.busy = true ∧ ({ s with inputs := .store a w v :: s.inputs } : State).blockStep = .next t) := by
  unfold State.hostStore at h
  split_ifs at h with h1 h2 h3
  · cases h
    exact .inl ⟨_, rfl⟩
  · exact .inr (.inr (State.hostStuck_next h))
  · cases h
    exact .inr (.inl ⟨h3, rfl⟩)
  · exact .inr (.inr (State.hostStuck_next h))

/-- What a host load can do, if it answers a next state: it may record a value and mark raced bytes, or do
what a stuck host does. -/
theorem State.hostLoad_next {s t : State} {a w : Nat} (h : s.hostLoad a w = .next t) :
    (∃ vs, t = ({ s with hostReads := vs } : State).tick) ∨
      (s.inBounds a w = true ∧ t = (s.hostRead a w).tick) ∨
      (∃ ins, t = { s with inputs := ins }) ∨
      (s.busy = true ∧ ({ s with inputs := .load a w :: s.inputs } : State).blockStep = .next t) := by
  unfold State.hostLoad at h
  split_ifs at h with h1 h2 h3
  · cases h
    exact .inl ⟨_, rfl⟩
  · exact .inr (.inr (State.hostStuck_next h))
  · cases h
    exact .inr (.inl ⟨h3, rfl⟩)
  · exact .inr (.inr (State.hostStuck_next h))

/-! Which agent a step moves. -/

theorem step_of_nil {s : State} (h : s.inputs = []) : step s = s.blockStep := by
  simp only [step, State.stepAgents, h]

theorem step_of_cons {s : State} {i : Input} {rest : List Input} (h : s.inputs = i :: rest) :
    step s = ({ s with inputs := rest } : State).inputStep i := by
  simp only [step, State.stepAgents, h]

/-- What the block's turn does to a command in progress. -/
theorem State.blockStep_busy {s : State} {w : Word} (h : s.cmd = some w) :
    s.blockStep =
      match decode w with
      | .error _ => .next (s.raise .illegalCmd)
      | .ok i => exec i s := by
  cases hd : decode w <;> simp only [State.blockStep, h, hd]

/-- What a host write to the window can do. -/
theorem State.windowWrite_cases (s : State) (r : WinReg) (v : Word) :
    (s.busy = true ∧ r.writable = true ∧ s.windowWrite r v = { s with overrun := true }) ∨
      (s.busy = true ∧ r.writable = false ∧ s.windowWrite r v = s) ∨
      (s.busy = false ∧ s.windowWrite r v = s.idleWrite r v) := by
  unfold State.windowWrite
  cases hb : s.busy
  · exact .inr (.inr ⟨rfl, rfl⟩)
  · cases hr : r.writable
    · refine .inr (.inl ⟨rfl, rfl, ?_⟩)
      cases r <;> simp_all [State.idleWrite, WinReg.writable]
    · exact .inl ⟨rfl, rfl, rfl⟩

/-! The bytes of a host access. -/

theorem mem_span {a w x : Nat} : x ∈ span a w ↔ a ≤ x ∧ x < a + w := by
  simp only [span, List.mem_map, List.mem_range]
  constructor
  · rintro ⟨i, h, rfl⟩
    omega
  · exact fun h => ⟨x - a, by omega, by omega⟩

/-- Only a command in progress uses a byte. -/
theorem State.inFlight_busy {s : State} {a : Nat} (h : s.inFlight a = true) : s.busy = true := by
  unfold State.inFlight State.current at h
  cases hc : s.cmd
  · simp [hc] at h
  · simp [State.busy, hc]

theorem State.inFlightWritten_busy {s : State} {a : Nat} (h : s.inFlightWritten a = true) : s.busy = true := by
  unfold State.inFlightWritten State.current at h
  cases hc : s.cmd
  · simp [hc] at h
  · simp [State.busy, hc]

end Sys2Proof.Machine
end

