-- ==== Sys2Proof/Laws/Races.lean ====
section
/-! SUPPORT. What looking ahead at the host's races can find (spec/20_memory.md R63): the bytes raced already
and further admitted bytes, and none of these while the host keeps its duty. -/

namespace Sys2Proof.Machine

theorem State.mem_hostWrite_raced {s : State} {a w v b : Nat} :
    b ∈ (s.hostWrite a w v).raced ↔ b ∈ s.raced ∨ (a ≤ b ∧ b < a + w) ∧ s.inFlight b = true := by
  simp only [State.hostWrite_raced, List.mem_append, List.mem_filter, mem_span, decide_eq_true_eq]
  tauto

theorem State.mem_hostRead_raced {s : State} {a w b : Nat} :
    b ∈ (s.hostRead a w).raced ↔ b ∈ s.raced ∨ (a ≤ b ∧ b < a + w) ∧ s.inFlightWritten b = true := by
  simp only [State.hostRead_raced, List.mem_append, List.mem_filter, mem_span, decide_eq_true_eq]
  tauto

/-- Looking ahead finds the bytes raced already, and else only bytes that are admitted. -/
theorem State.mem_racesAhead (ins : List Input) : ∀ (s : State) (p : Prog) (b : Nat),
    (b ∈ s.raced → b ∈ s.racesAhead p ins) ∧ (b ∈ s.racesAhead p ins → b ∈ s.raced ∨ s.memOK b = true) := by
  induction ins with
  | nil => exact fun _ _ _ => ⟨id, .inl⟩
  | cons i ins ih =>
    intro s p b
    cases i with
    | store a w v =>
      have h := ih (s.hostWrite a w v).tick p b
      simp only [State.racesAhead]
      split_ifs with h1 h2 h3
      · exact ih s.tick p b
      · exact ⟨id, .inl⟩
      · refine ⟨fun hb => h.1 (State.mem_hostWrite_raced.2 (.inl hb)), fun hb => ?_⟩
        rcases h.2 hb with hb | hb
        · rcases State.mem_hostWrite_raced.1 hb with hb | hb
          · exact .inl hb
          · exact .inr (State.inBounds_memOK' h3 hb.1.1 hb.1.2)
        · exact .inr hb
      · exact ⟨id, .inl⟩
    | load a w =>
      have h := ih (s.hostRead a w).tick p b
      simp only [State.racesAhead]
      split_ifs with h1 h2 h3
      · exact ih s.tick p b
      · exact ⟨id, .inl⟩
      · refine ⟨fun hb => h.1 (State.mem_hostRead_raced.2 (.inl hb)), fun hb => ?_⟩
        rcases h.2 hb with hb | hb
        · rcases State.mem_hostRead_raced.1 hb with hb | hb
          · exact .inl hb
          · exact .inr (State.inBounds_memOK' h3 hb.1.1 hb.1.2)
        · exact .inr hb
      · exact ⟨id, .inl⟩
    | blockEvent =>
      cases p with
      | done r => exact ⟨id, .inl⟩
      | raise e => exact ⟨id, .inl⟩
      | act x k =>
        have h := ih (s.perform x) (k (s.answer x)) b
        rw [State.memOK_congr (State.perform_ran (P := fun _ => True) s trivial).ram, State.perform_raced] at h
        exact h
    | deviceTurn => exact ih s.tick p b
    | _ => exact ⟨id, .inl⟩

/-- What the block does when it looks ahead: it notes some admitted bytes as raced. -/
theorem State.foresee_eq (n : Nat) (p : Prog) : ∀ s : State, ∃ bs,
    State.foresee n p s = { s with raced := bs } ∧ ∀ b, (b ∈ s.raced → b ∈ bs) ∧ (b ∈ bs → b ∈ s.raced ∨ s.memOK b = true) := by
  induction n with
  | zero => exact fun s => ⟨s.raced, rfl, fun _ => ⟨id, .inl⟩⟩
  | succ n ih =>
    intro s
    obtain ⟨bs, h1, h2⟩ := ih { s with raced := s.racesAhead p (.blockEvent :: s.inputs) }
    refine ⟨bs, h1, fun b => ?_⟩
    have h := State.mem_racesAhead (.blockEvent :: s.inputs) s p b
    refine ⟨fun hb => (h2 b).1 (h.1 hb), fun hb => ?_⟩
    rcases (h2 b).2 hb with hb | hb
    · exact h.2 hb
    · exact .inr hb

/-- A command that makes no further access meets no further race. -/
theorem State.foresee_ended (n : Nat) {p : Prog} (h : ∀ x k, p ≠ .act x k) (s : State) : State.foresee n p s = s := by
  induction n with
  | zero => rfl
  | succ n ih =>
    have hs : s.racesAhead p (.blockEvent :: s.inputs) = s.raced := by
      cases p with
      | act x k => exact absurd rfl (h x k)
      | _ => rfl
    rw [State.foresee, hs]
    exact ih

/-- While nothing is raced anew, looking ahead changes nothing. -/
theorem State.foresee_of_racesAhead {s : State} {p : Prog} (h : s.racesAhead p (.blockEvent :: s.inputs) = s.raced) (n : Nat) :
    State.foresee n p s = s := by
  induction n with
  | zero => rfl
  | succ n ih =>
    rw [State.foresee, h]
    exact ih

/-- A byte that looking ahead finds is raced from then on. -/
theorem State.raced_of_racesAhead {s : State} {p : Prog} {b : Nat} (h : b ∈ s.racesAhead p (.blockEvent :: s.inputs))
    (n : Nat) : b ∈ (State.foresee (n + 1) p s).raced := by
  obtain ⟨bs, h1, h2⟩ := State.foresee_eq n p { s with raced := s.racesAhead p (.blockEvent :: s.inputs) }
  rw [State.foresee, h1]
  exact (h2 b).1 h

/-- What the block uses of the RAM depends on the command's word and operands only. -/
theorem State.inFlight_congr {s t : State} (h : t.cmd = s.cmd) (h0 : t.arg0 = s.arg0) (h1 : t.arg1 = s.arg1) (a : Nat) :
    t.inFlight a = s.inFlight a ∧ t.inFlightWritten a = s.inFlightWritten a := by
  have hr : ∀ i, operandRange i t = operandRange i s := by
    intro i
    cases i <;> simp only [operandRange, fieldRange, State.addr, State.len, h0, h1]
  have hu : ∀ i, usesByte i t a = usesByte i s a := by
    intro i
    simp only [usesByte, hr]
  simp only [State.inFlight, State.inFlightWritten, State.current, h, hu, and_self]

/-- Looking ahead finds no race while the host keeps its duty. -/
theorem State.racesAhead_of_keepsDuty {i : Instr} {s : State} (hi : s.current = some i) (ins : List Input) :
    ∀ (u : State) (p : Prog), u.cmd = s.cmd → u.arg0 = s.arg0 → u.arg1 = s.arg1 → s.KeepsDuty i ins →
      u.racesAhead p ins = u.raced := by
  have hf : ∀ (as : List Nat) (u : State) (g : Nat → Bool), (∀ b ∈ as, g b = false) →
      u.raced ++ (as.filter g).filter (fun b => decide (b ∉ u.raced)) = u.raced := by
    intro as u g h
    have : as.filter g = [] := List.filter_eq_nil_iff.2 fun b hb => by simp [h b hb]
    simp [this]
  induction ins with
  | nil => exact fun _ _ _ _ _ _ => rfl
  | cons j ins ih =>
    intro u p hc h0 h1 hd
    cases j with
    | store a w v =>
      have hu : ∀ b ∈ span a w, u.inFlight b = false := by
        intro b hb
        rw [(State.inFlight_congr hc h0 h1 b).1, State.inFlight, hi]
        exact hd.1 b (mem_span.1 hb).1 (mem_span.1 hb).2
      simp only [State.racesAhead]
      split_ifs
      · exact ih u.tick p hc h0 h1 hd.2
      · rfl
      · exact (ih (u.hostWrite a w v).tick p hc h0 h1 hd.2).trans (hf _ u _ hu)
      · rfl
    | load a w =>
      have hu : ∀ b ∈ span a w, u.inFlightWritten b = false := by
        intro b hb
        rw [(State.inFlight_congr hc h0 h1 b).2, State.inFlightWritten, hi]
        exact hd.1 b (mem_span.1 hb).1 (mem_span.1 hb).2
      simp only [State.racesAhead]
      split_ifs
      · exact ih u.tick p hc h0 h1 hd.2
      · rfl
      · exact (ih (u.hostRead a w).tick p hc h0 h1 hd.2).trans (hf _ u _ hu)
      · rfl
    | blockEvent =>
      cases p with
      | act x k =>
        have hr := State.perform_ran (P := fun _ => True) (x := x) u trivial
        have h := ih (u.perform x) (k (u.answer x)) (hr.cmd.trans hc) ((by rw [hr.rest] : _ = u.arg0).trans h0)
          ((by rw [hr.rest] : _ = u.arg1).trans h1) hd
        rw [State.perform_raced] at h
        exact h
      | _ => rfl
    | deviceTurn => exact ih u.tick p hc h0 h1 hd
    | _ => rfl

end Sys2Proof.Machine
end

