-- ==== Sys2Proof/Laws/Words.lean ====
section
/-! SUPPORT. The numbers behind the words that registers are put together from. -/

namespace Sys2Proof.Machine

theorem classWord_toNat (info : FrameInfo) :
    (classWord info).toNat = 16 * (actionCode info.reply).toNat + (classCode info.cls).toNat := by
  unfold classWord
  refine (BitVec.toNat_append _ _).trans ?_
  rw [← Nat.shiftLeft_add_eq_or_of_lt (classCode info.cls).isLt, Nat.shiftLeft_eq, BitVec.toNat_append]
  simp [Nat.mul_comm]

theorem classWord_lt (info : FrameInfo) : (classWord info).toNat < 64 := by
  have h1 := (actionCode info.reply).isLt
  have h2 := (classCode info.cls).isLt
  rw [classWord_toNat]
  omega

theorem hdroffWord_toNat (info : FrameInfo) :
    (hdroffWord info).toNat = 65536 * (info.l4 % 65536) + info.l3 % 65536 := by
  unfold hdroffWord
  refine (BitVec.toNat_append _ _).trans ?_
  rw [← Nat.shiftLeft_add_eq_or_of_lt (BitVec.ofNat 16 info.l3).isLt, Nat.shiftLeft_eq]
  simp [Nat.mul_comm]

/-- The operand `len` of a command whose ARG1 is a length. -/
theorem State.len_eq_mod (s : State) : s.len = s.arg1.toNat % 2 ^ 16 := by
  simp [State.len]

theorem State.lenHigh_eq_zero {s : State} : s.lenHigh = 0 ↔ s.arg1.toNat < 2 ^ 16 := by
  have := s.arg1.isLt
  rw [BitVec.toNat_eq]
  simp [State.lenHigh, Nat.shiftRight_eq_div_pow]
  omega

theorem State.len_lt (s : State) : s.len < 2 ^ 16 := by
  rw [State.len_eq_mod]
  omega

theorem State.hostMac_toNat (s : State) : s.hostMac.toNat = s.hostMacHi.toNat * 2 ^ 32 + s.hostMacLo.toNat := by
  unfold State.hostMac
  refine (BitVec.toNat_append _ _).trans ?_
  rw [← Nat.shiftLeft_add_eq_or_of_lt s.hostMacLo.isLt, Nat.shiftLeft_eq]

/-- STATUS as a number: its fields at their places (spec/10_state.md R24). -/
theorem State.status_toNat (s : State) :
    s.status.toNat = (errCode s.err).toNat + 16 * s.busy.toNat + 32 * s.txReq.toNat + 64 * s.overrun.toNat +
      128 * s.stickyErr.toNat + 256 * s.hostIpSet.toNat + 512 * s.hostMacSet.toNat + 1024 * s.rpSet.toNat := by
  have h := (errCode s.err).isLt
  unfold State.status
  refine (BitVec.toNat_append _ _).trans ?_
  rw [← Nat.shiftLeft_add_eq_or_of_lt h]
  generalize (errCode s.err).toNat = e
  cases s.busy <;> cases s.txReq <;> cases s.overrun <;> cases s.stickyErr <;> cases s.hostIpSet <;>
    cases s.hostMacSet <;> cases s.rpSet <;> simp <;> omega

end Sys2Proof.Machine
end

