-- ==== Sys2Proof/Laws/Commands.lean ====
section
/-! SUPPORT. What a command can do, said once for all commands: which accesses it can make, how it can
end, and so what its step leaves, from every state. -/

namespace Sys2Proof.Machine

/-! The accesses of each command. -/

/-- The commands of the Register Port. -/
def usesPort : Instr → Bool
  | .regRead => true
  | .regWrite => true
  | .regFlag _ => true
  | _ => false

/-- The commands that can post a transmit request (spec/10_state.md R48). -/
def postsReply : Instr → Bool
  | .arpReply => true
  | .icmpEchoReply => true
  | .dispatch => true
  | _ => false

/-- What a command can access: RAM only in its admitted operand range, writing only if it is one of those
that can, the device only in the Register Port, the log in the Register Port and DISPATCH. -/
def MayAccess (i : Instr) (s : State) : Access → Prop
  | .read a => usesByte i s a = true ∧ s.memOK a = true
  | .write a _ => writesRam i = true ∧ usesByte i s a = true ∧ s.memOK a = true
  | .devRead32 _ => usesPort i = true
  | .devWrite32 _ _ => usesPort i = true
  | .portRead32 _ => usesPort i = true
  | .portWrite32 _ _ => usesPort i = true
  | .log _ => usesPort i = true ∨ i = .dispatch
  | .postTx _ _ => postsReply i = true

/-- The kind of result of each command (spec/10_state.md R48). -/
def leavesResult : Instr → Result → Bool
  | .regWrite, .nothing => true
  | .fieldSet _ _ _, .nothing => true
  | .csumCompute, .value _ => true
  | .csumVerify, .value _ => true
  | .regRead, .value _ => true
  | .regFlag _, .value _ => true
  | .fieldGet _ _ _, .value _ => true
  | .classify, .frame _ false => true
  | .dispatch, .frame _ _ => true
  | .arpReply, .reply => true
  | .icmpEchoReply, .reply => true
  | _, _ => false

/-- The errors of each command (spec/60_exceptions.md R201). -/
def commandErrors : Instr → List Err
  | .csumCompute => [.illegalCmd, .busFault]
  | .csumVerify => [.illegalCmd, .busFault]
  | .regRead => [.notConfigured, .regAddr, .portRange]
  | .regWrite => [.notConfigured, .regAddr, .portRange]
  | .regFlag _ => [.notConfigured, .regAddr, .portRange]
  | .fieldGet _ _ _ => [.busFault]
  | .fieldSet _ _ _ => [.busFault]
  | .classify => [.illegalCmd, .busFault, .notConfigured, .frameShort, .malformed]
  | .arpReply => [.illegalCmd, .busFault, .notConfigured, .frameShort]
  | .icmpEchoReply => [.illegalCmd, .busFault, .frameShort, .malformed]
  | .dispatch => [.illegalCmd, .busFault, .notConfigured, .frameShort, .malformed]

/-- How a command can end. -/
def MayEnd (i : Instr) : Except Err Result → Prop
  | .error e => i.wellFormed = true → e ∈ commandErrors i
  | .ok r => leavesResult i r = true

theorem usesByte_eq {i : Instr} {s : State} {a : Nat} :
    usesByte i s a = true ↔ (operandRange i s).1 ≤ a ∧ a < (operandRange i s).1 + (operandRange i s).2 := by
  simp [usesByte]

/-! Which errors the checks can find. -/

theorem State.rangeCheck_err {s : State} {e : Err} (h : s.rangeCheck = .error e) : e ∈ [Err.illegalCmd, .busFault] := by
  unfold State.rangeCheck at h
  split_ifs at h <;> cases h <;> decide

theorem State.frameCheck_err {s : State} {x y : Bool} {e : Err} (h : s.frameCheck x y = .error e) :
    e = .illegalCmd ∨ (e = .notConfigured ∧ (x = true ∨ y = true)) ∨ e = .busFault := by
  unfold State.frameCheck at h
  split_ifs at h with h1 h2 h3
  · cases h
    exact .inl rfl
  · cases h
    refine .inr (.inl ⟨rfl, ?_⟩)
    simp only [Bool.or_eq_true, Bool.and_eq_true] at h2
    exact h2.imp And.left And.left
  · cases h
    exact .inr (.inr rfl)

theorem State.regCheck_err {s : State} {e : Err} (h : s.regCheck = .error e) :
    e ∈ [Err.notConfigured, .regAddr, .portRange] := by
  unfold State.regCheck at h
  split at h
  · cases h
    decide
  · split at h <;> split at h <;> cases h <;> decide

theorem State.fieldCheck_err {s : State} {hdr : BitVec 4} {field : BitVec 8} {chunk : BitVec 4} {e : Err}
    (hv : validSelector hdr field chunk = true) (h : s.fieldCheck hdr field chunk = .error e) : e = .busFault := by
  unfold State.fieldCheck at h
  split at h
  · next hl => simp [validSelector, hl] at hv
  · simp only [hv, Bool.not_true, Bool.false_eq_true, if_false] at h
    split at h <;> cases h
    rfl

/-! The parts of the frame programs. -/

/-- The accesses that a frame command may make in the frame `[f, f + n)`. -/
structure FrameAccess (P : Access → Prop) (f n : Nat) : Prop where
  read : ∀ a, f ≤ a → a < f + n → P (.read a)
  write : ∀ a b, f ≤ a → a < f + n → P (.write a b)
  post : ∀ a k, P (.postTx a k)

theorem Prog.icmpLayout_all {P : Access → Prop} {f n : Nat} {onErr : Err → Prog} {k : IcmpGeometry → Prog}
    (hr : ∀ a, f ≤ a → a < f + n → P (.read a)) (he : ∀ e, (onErr e).All P)
    (hk : ∀ g, 34 ≤ n → g.l4 + 8 ≤ n → g.l4 + g.icmpLen ≤ n → 14 + 4 * g.ihl ≤ n → (k g).All P) :
    (Prog.icmpLayout f n onErr k).All P := by
  unfold Prog.icmpLayout
  split
  · exact he _
  · refine .readBE (fun b h1 h2 => hr b (by omega) (by omega)) fun b => ?_
    split
    · exact he _
    · split
      · exact he _
      · refine .readBE (fun b h1 h2 => hr b (by omega) (by omega)) fun tl => ?_
        split
        · exact he _
        · split
          · exact he _
          · exact hk ⟨ihlNibble b, 14 + 4 * ihlNibble b, tl - 4 * ihlNibble b⟩ (by omega) (by dsimp only; omega)
              (by dsimp only; omega) (by dsimp only; omega)

/-- `Classify` reads only the frame, and an answer it gives fits the frame. -/
theorem Prog.classify_all {P : Access → Prop} {ip : List Byte} {f n : Nat} {k : FrameInfo → Prog}
    (hr : ∀ a, f ≤ a → a < f + n → P (.read a))
    (hk : ∀ info : FrameInfo,
      (match info.cls with
        | .unknown => True
        | .arp => 42 ≤ n
        | .ipv4Icmp => 34 ≤ n ∧ info.l4 + 8 ≤ n
        | .ipv4Tcp => 34 ≤ n ∧ info.l4 + 20 ≤ n
        | .ipv4Udp => 34 ≤ n ∧ info.l4 + 8 ≤ n
        | .ipv4Other => 34 ≤ n ∧ info.l4 ≤ n
        | .ipv6Udp => 62 ≤ n
        | .ipv6Other => 54 ≤ n) →
      (match info.reply with
        | .none => True
        | .arp => 42 ≤ n
        | .icmpEcho g => 34 ≤ n ∧ g.l4 + 8 ≤ n ∧ g.l4 + g.icmpLen ≤ n ∧ 14 + 4 * g.ihl ≤ n) → (k info).All P) :
    (Prog.classify ip f n k).All P := by
  have hx : ∀ e, (Prog.raise e).All P := fun _ => trivial
  have rd : ∀ {a w : Nat} {k : Nat → Prog}, f ≤ a → a + w ≤ f + n → (∀ v, (k v).All P) → (Prog.readBE a w k).All P :=
    fun h1 h2 h3 => .readBE (fun b h4 h5 => hr b (by omega) (by omega)) h3
  have rm : ∀ {a w : Nat} {k : List Byte → Prog}, f ≤ a → a + w ≤ f + n → (∀ v, (k v).All P) →
      (Prog.memRead a w k).All P :=
    fun h1 h2 h3 => .memRead (fun b h4 h5 => hr b (by omega) (by omega)) fun _ _ => h3 _
  unfold Prog.classify
  split
  · exact hx _
  refine rd (by omega) (by omega) fun et => ?_
  split
  · unfold Prog.classifyArp
    split
    · exact hx _
    refine rd (by omega) (by omega) fun oper => rm (by omega) (by omega) fun tpa => ?_
    split <;> exact hk _ (by dsimp only; omega) (by first | trivial | (dsimp only; omega))
  split
  · unfold Prog.classifyIpv4
    split
    · exact hx _
    refine rd (by omega) (by omega) fun b => ?_
    split
    · exact hx _
    split
    · exact hx _
    refine rd (by omega) (by omega) fun proto => ?_
    split
    · unfold Prog.classifyIcmp
      split
      · exact hx _
      refine rd (by omega) (by omega) fun type => rm (by omega) (by omega) fun dst => ?_
      split
      · exact Prog.icmpLayout_all hr hx fun g h1 h2 h3 h4 => hk _ (by dsimp only; omega) (by dsimp only; omega)
      · exact hk _ (by dsimp only; omega) trivial
    split
    · split
      · exact hx _
      · exact hk _ (by dsimp only; omega) trivial
    split
    · split
      · exact hx _
      · exact hk _ (by dsimp only; omega) trivial
    · exact hk _ (by dsimp only; omega) trivial
  split
  · unfold Prog.classifyIpv6
    split
    · exact hx _
    refine rd (by omega) (by omega) fun nh => ?_
    split
    · split
      · exact hx _
      · exact hk _ (by dsimp only; omega) trivial
    · exact hk _ (by dsimp only; omega) trivial
  · exact hk _ trivial trivial

theorem Prog.emitLogs_all {P : Access → Prop} {info : FrameInfo} {f n : Nat} {p : Prog} (hl : ∀ e, P (.log e))
    (hr : ∀ a, f ≤ a → a < f + n → P (.read a))
    (hi : match info.cls with
      | .unknown => True
      | .arp => 42 ≤ n
      | .ipv4Icmp => 34 ≤ n ∧ info.l4 + 8 ≤ n
      | .ipv4Tcp => 34 ≤ n ∧ info.l4 + 20 ≤ n
      | .ipv4Udp => 34 ≤ n ∧ info.l4 + 8 ≤ n
      | .ipv4Other => 34 ≤ n ∧ info.l4 ≤ n
      | .ipv6Udp => 62 ≤ n
      | .ipv6Other => 54 ≤ n) (hp : p.All P) : (Prog.emitLogs info f n p).All P := by
  have hdr : ∀ {kind : HdrKind} {a w : Nat} {q : Prog}, f ≤ a → a + w ≤ f + n → q.All P → (Prog.hdr kind a w q).All P :=
    fun h1 h2 h3 => .memRead (fun b h4 h5 => hr b (by omega) (by omega)) fun _ _ => ⟨hl _, fun _ => h3⟩
  unfold Prog.emitLogs
  cases hc : info.cls <;> simp only [hc] at hi ⊢
  · exact .memRead hr fun _ _ => ⟨hl _, fun _ => hp⟩
  all_goals refine hdr (by omega) (by omega) (hdr (by omega) (by omega) ?_)
  all_goals first
    | exact hp
    | exact hdr (by omega) (by omega) hp

theorem Prog.swap_all {P : Access → Prop} {f n a b w : Nat} {p : Prog} (hP : FrameAccess P f n) (h1 : f ≤ a)
    (h2 : a + w ≤ f + n) (h3 : f ≤ b) (h4 : b + w ≤ f + n) (hp : p.All P) : (Prog.swap a b w p).All P :=
  .memRead (fun c h5 h6 => hP.read c (by omega) (by omega)) fun ta hta =>
  .memRead (fun c h5 h6 => hP.read c (by omega) (by omega)) fun tb htb =>
  .memWrite (fun c v h5 h6 => hP.write c v (by omega) (by omega)) <|
  .memWrite (fun c v h5 h6 => hP.write c v (by omega) (by omega)) hp

theorem Prog.rechecksum_all {P : Access → Prop} {f n field a w : Nat} {p : Prog} (hP : FrameAccess P f n)
    (h1 : f ≤ field) (h2 : field + 2 ≤ f + n) (h3 : f ≤ a) (h4 : a + w ≤ f + n) (hp : p.All P) :
    (Prog.rechecksum field a w p).All P :=
  .writeBE (fun c v h5 h6 => hP.write c v (by omega) (by omega)) <|
  .memRead (fun c h5 h6 => hP.read c (by omega) (by omega)) fun b _ =>
  .memWrite (fun c v h5 h6 => hP.write c v (by omega) (by rw [length_bytesLE] at h6; omega)) hp

theorem State.arpReplyBody_all {P : Access → Prop} {s : State} {r : Result} {n : Nat} (hP : FrameAccess P s.addr n)
    (h : 42 ≤ n) : (s.arpReplyBody r).All P := by
  unfold State.arpReplyBody
  refine Prog.swap_all hP (by omega) (by omega) (by omega) (by omega) ?_
  refine .writeBE (fun c v h5 h6 => hP.write c v (by omega) (by omega)) ?_
  refine Prog.swap_all hP (by omega) (by omega) (by omega) (by omega) ?_
  refine Prog.swap_all hP (by omega) (by omega) (by omega) (by omega) ?_
  refine .memWrite (fun c v h5 h6 => hP.write c v (by omega) ?_) ?_
  · simp only [State.hostMacBytes, length_bytesBE] at h6
    omega
  refine .memWrite (fun c v h5 h6 => hP.write c v (by omega) ?_) ⟨hP.post _ _, fun _ => trivial⟩
  simp only [State.hostIpBytes, length_bytesBE] at h6
  omega

theorem State.icmpEchoBody_all {P : Access → Prop} {s : State} {r : Result} {g : IcmpGeometry} {n : Nat}
    (hP : FrameAccess P s.addr n) (h1 : 34 ≤ n) (h2 : g.l4 + 8 ≤ n) (h3 : g.l4 + g.icmpLen ≤ n)
    (h4 : 14 + 4 * g.ihl ≤ n) : (s.icmpEchoBody r g).All P := by
  unfold State.icmpEchoBody
  refine Prog.swap_all hP (by omega) (by omega) (by omega) (by omega) ?_
  refine Prog.swap_all hP (by omega) (by omega) (by omega) (by omega) ?_
  refine .writeBE (fun c v h5 h6 => hP.write c v (by omega) (by omega)) ?_
  refine Prog.rechecksum_all hP (by omega) (by omega) (by omega) (by omega) ?_
  refine Prog.rechecksum_all hP (by omega) (by omega) (by omega) (by omega) ?_
  exact ⟨hP.post _ _, fun _ => trivial⟩

theorem State.regRead_all {P : Access → Prop} {s : State} {k : Word → Prog} (h1 : ∀ a, P (.devRead32 a))
    (h2 : ∀ p, P (.portRead32 p)) (h3 : ∀ p v, P (.portWrite32 p v)) (h4 : ∀ e, P (.log e)) (hk : ∀ v, (k v).All P) :
    (s.regRead k).All P := by
  unfold State.regRead
  cases s.rpMode
  · exact ⟨h1 _, fun v => ⟨h4 _, fun _ => hk v⟩⟩
  · exact ⟨h3 _ _, fun _ => ⟨h2 _, fun v => ⟨h4 _, fun _ => hk v⟩⟩⟩

theorem State.regWrite_all {P : Access → Prop} {s : State} {v : Word} {p : Prog} (h1 : ∀ a v, P (.devWrite32 a v))
    (h2 : ∀ p v, P (.portWrite32 p v)) (h3 : ∀ e, P (.log e)) (hp : p.All P) : (s.regWrite v p).All P := by
  unfold State.regWrite
  cases s.rpMode
  · exact ⟨h1 _ _, fun _ => ⟨h3 _, fun _ => hp⟩⟩
  · exact ⟨h2 _ _, fun _ => ⟨h2 _ _, fun _ => ⟨h3 _, fun _ => hp⟩⟩⟩

/-- Every access of a command is one that the command may make (spec/20_memory.md R50, R55,
spec/43_dispatch.md R160, spec/70_reset_and_hazards.md R236). -/
theorem program_all (i : Instr) (s : State) : (program i s).All (MayAccess i s) := by
  have hb : ∀ a, (operandRange i s) = (s.addr, s.len) → s.inBounds s.addr s.len = true → s.addr ≤ a →
      a < s.addr + s.len → usesByte i s a = true ∧ s.memOK a = true := by
    intro a h1 h2 h3 h4
    exact ⟨usesByte_eq.2 (by rw [h1]; exact ⟨h3, h4⟩), State.inBounds_memOK' h2 h3 h4⟩
  have hF : (operandRange i s) = (s.addr, s.len) → s.inBounds s.addr s.len = true → writesRam i = true →
      postsReply i = true → FrameAccess (MayAccess i s) s.addr s.len := fun h1 h2 h3 h4 =>
    ⟨fun a h5 h6 => hb a h1 h2 h5 h6, fun a _ h5 h6 => ⟨h3, hb a h1 h2 h5 h6⟩, fun _ _ => h4⟩
  have hfield : ∀ {hdr : BitVec 4} {field : BitVec 8} {chunk : BitVec 4} {l : FieldLayout},
      s.fieldCheck hdr field chunk = .ok l → operandRange i s = fieldRange hdr field s → ∀ a,
      chunkAddr l s.addr chunk ≤ a → a < chunkAddr l s.addr chunk + chunkWidth l chunk →
      usesByte i s a = true ∧ s.memOK a = true := by
    intro hdr field chunk l h1 h2 a h3 h4
    obtain ⟨h5, h6, h7⟩ := State.fieldCheck_eq_ok.1 h1
    refine ⟨usesByte_eq.2 ?_, State.inBounds_memOK' h7 h3 h4⟩
    have hw : l.kind = .bytes ∨ l.width = 1 := by
      have : ∀ x : BitVec 4, ∀ l ∈ headerFields x, l.kind = .bytes ∨ l.width = 1 := by decide
      exact this hdr l (List.mem_of_getElem? h5)
    rw [h2, fieldRange, h5]
    unfold chunkAddr at h3 h4
    unfold chunkWidth at h4
    dsimp only
    cases hk : l.kind <;> simp only [hk, reduceCtorEq, false_or] at h3 h4 hw <;> omega
  cases i with
  | csumCompute =>
    exact .check fun _ hc => .memRead (fun a h1 h2 => hb a rfl (State.rangeCheck_eq_ok.1 hc).2 h1 h2) fun _ _ => trivial
  | csumVerify =>
    exact .check fun _ hc => .memRead (fun a h1 h2 => hb a rfl (State.rangeCheck_eq_ok.1 hc).2 h1 h2) fun _ _ => trivial
  | regRead =>
    exact .check fun _ _ => State.regRead_all (fun _ => rfl) (fun _ => rfl) (fun _ _ => rfl) (fun _ => .inl rfl)
      fun _ => trivial
  | regWrite => exact .check fun _ _ => State.regWrite_all (fun _ _ => rfl) (fun _ _ => rfl) (fun _ => .inl rfl) trivial
  | regFlag enable =>
    exact .check fun _ _ => State.regRead_all (fun _ => rfl) (fun _ => rfl) (fun _ _ => rfl) (fun _ => .inl rfl)
      fun _ => State.regWrite_all (fun _ _ => rfl) (fun _ _ => rfl) (fun _ => .inl rfl) trivial
  | fieldGet hdr field chunk =>
    exact .check fun l hc => .memRead (fun a h1 h2 => hfield hc rfl a h1 h2) fun _ _ => trivial
  | fieldSet hdr field chunk =>
    refine .check fun l hc => ?_
    have h1 : l.kind ≠ .bytes → chunkWidth l chunk = 1 := by
      unfold chunkWidth
      cases l.kind <;> simp
    have hw : ∀ a, chunkAddr l s.addr chunk ≤ a → a < chunkAddr l s.addr chunk + chunkWidth l chunk →
        writesRam (.fieldSet hdr field chunk) = true ∧ usesByte (.fieldSet hdr field chunk) s a = true ∧
          s.memOK a = true := fun a h2 h3 => ⟨rfl, hfield hc rfl a h2 h3⟩
    split
    · exact .writeBE (fun a _ h2 h3 => hw a h2 h3) trivial
    · next hk =>
      rw [h1 (by simp [hk])] at hw
      exact .readBE (fun a h2 h3 => (hw a h2 h3).2) fun _ => .writeBE (fun a _ h2 h3 => hw a h2 h3) trivial
    · next hk =>
      rw [h1 (by simp [hk])] at hw
      exact .readBE (fun a h2 h3 => (hw a h2 h3).2) fun _ => .writeBE (fun a _ h2 h3 => hw a h2 h3) trivial
  | classify =>
    refine .check fun _ hc => Prog.classify_all (fun a h1 h2 => hb a rfl (State.frameCheck_eq_ok.1 hc).2.2.2 h1 h2)
      fun info _ _ => trivial
  | arpReply =>
    refine .check fun _ hc => ?_
    split
    · exact trivial
    · exact State.arpReplyBody_all (hF rfl (State.frameCheck_eq_ok.1 hc).2.2.2 rfl rfl) (by omega)
  | icmpEchoReply =>
    refine .check fun _ hc => ?_
    have hP := hF rfl (State.frameCheck_eq_ok.1 hc).2.2.2 rfl rfl
    exact Prog.icmpLayout_all hP.read (fun _ => trivial) fun g h1 h2 h3 h4 => State.icmpEchoBody_all hP h1 h2 h3 h4
  | dispatch =>
    refine .check fun _ hc => ?_
    have hP := hF rfl (State.frameCheck_eq_ok.1 hc).2.2.2 rfl rfl
    refine Prog.classify_all hP.read fun info h1 h2 => Prog.emitLogs_all (fun _ => .inr rfl) hP.read h1 ?_
    unfold State.dispatchReply
    generalize info.reply = r at h2 ⊢
    cases r with
    | none => exact trivial
    | arp => exact State.arpReplyBody_all hP h2
    | icmpEcho g =>
      exact Prog.icmpLayout_all hP.read (fun _ => State.icmpEchoBody_all hP h2.1 h2.2.1 h2.2.2.1 h2.2.2.2)
        fun g h1 h2 h3 h4 => State.icmpEchoBody_all hP h1 h2 h3 h4

/-! How each command can end. -/

theorem Prog.icmpLayout_ends {Q : Except Err Result → Prop} {f n : Nat} {onErr : Err → Prog} {k : IcmpGeometry → Prog}
    (he : ∀ e, e = .frameShort ∨ e = .malformed → (onErr e).Ends Q) (hk : ∀ g, (k g).Ends Q) :
    (Prog.icmpLayout f n onErr k).Ends Q := by
  unfold Prog.icmpLayout
  split
  · exact he _ (.inl rfl)
  refine .readBE fun b => ?_
  split
  · exact he _ (.inr rfl)
  split
  · exact he _ (.inl rfl)
  refine .readBE fun tl => ?_
  split
  · exact he _ (.inr rfl)
  split
  · exact he _ (.inl rfl)
  · exact hk _

theorem Prog.classify_ends {Q : Except Err Result → Prop} {ip : List Byte} {f n : Nat} {k : FrameInfo → Prog}
    (hs : Q (.error .frameShort)) (hm : Q (.error .malformed)) (hk : ∀ info, (k info).Ends Q) :
    (Prog.classify ip f n k).Ends Q := by
  unfold Prog.classify
  split
  · exact hs
  refine .readBE fun et => ?_
  split
  · unfold Prog.classifyArp
    split
    · exact hs
    refine .readBE fun oper => .memRead fun tpa => ?_
    split <;> exact hk _
  split
  · unfold Prog.classifyIpv4
    split
    · exact hs
    refine .readBE fun b => ?_
    split
    · exact hm
    split
    · exact hs
    refine .readBE fun proto => ?_
    split
    · unfold Prog.classifyIcmp
      split
      · exact hs
      refine .readBE fun type => .memRead fun dst => ?_
      split
      · refine Prog.icmpLayout_ends (fun e he => ?_) fun g => hk _
        rcases he with rfl | rfl
        · exact hs
        · exact hm
      · exact hk _
    split
    · split
      · exact hs
      · exact hk _
    split
    · split
      · exact hs
      · exact hk _
    · exact hk _
  split
  · unfold Prog.classifyIpv6
    split
    · exact hs
    refine .readBE fun nh => ?_
    split
    · split
      · exact hs
      · exact hk _
    · exact hk _
  · exact hk _

theorem State.regRead_ends {Q : Except Err Result → Prop} {s : State} {k : Word → Prog} (hk : ∀ v, (k v).Ends Q) :
    (s.regRead k).Ends Q := by
  unfold State.regRead
  cases s.rpMode
  · exact fun v _ => hk v
  · exact fun _ v _ => hk v

theorem State.regWrite_ends {Q : Except Err Result → Prop} {s : State} {v : Word} {p : Prog} (hp : p.Ends Q) :
    (s.regWrite v p).Ends Q := by
  unfold State.regWrite
  cases s.rpMode
  · exact fun _ _ => hp
  · exact fun _ _ _ => hp

theorem Prog.emitLogs_ends {Q : Except Err Result → Prop} {info : FrameInfo} {f n : Nat} {p : Prog} (hp : p.Ends Q) :
    (Prog.emitLogs info f n p).Ends Q := by
  have hdr : ∀ {kind : HdrKind} {a w : Nat} {q : Prog}, q.Ends Q → (Prog.hdr kind a w q).Ends Q :=
    fun h => .memRead fun _ _ => h
  unfold Prog.emitLogs
  cases info.cls
  · exact .memRead fun _ _ => hp
  all_goals refine hdr (hdr ?_)
  all_goals first
    | exact hp
    | exact hdr hp

theorem Prog.swap_ends {Q : Except Err Result → Prop} {a b w : Nat} {p : Prog} (hp : p.Ends Q) :
    (Prog.swap a b w p).Ends Q :=
  .memRead fun _ => .memRead fun _ => .memWrite <| .memWrite hp

theorem Prog.rechecksum_ends {Q : Except Err Result → Prop} {field a w : Nat} {p : Prog} (hp : p.Ends Q) :
    (Prog.rechecksum field a w p).Ends Q :=
  .writeBE <| .memRead fun _ => .memWrite hp

theorem State.arpReplyBody_ends {Q : Except Err Result → Prop} {s : State} {r : Result} (h : Q (.ok r)) :
    (s.arpReplyBody r).Ends Q :=
  Prog.swap_ends <| .writeBE <| Prog.swap_ends <| Prog.swap_ends <| .memWrite <| .memWrite fun _ => h

theorem State.icmpEchoBody_ends {Q : Except Err Result → Prop} {s : State} {r : Result} {g : IcmpGeometry}
    (h : Q (.ok r)) : (s.icmpEchoBody r g).Ends Q :=
  Prog.swap_ends <| Prog.swap_ends <| .writeBE <| Prog.rechecksum_ends <| Prog.rechecksum_ends fun _ => h

/-- A command ends with a result of its kind or with one of its errors (spec/10_state.md R48,
spec/60_exceptions.md R201). -/
theorem program_ends (i : Instr) (s : State) : (program i s).Ends (MayEnd i) := by
  have hf : ∀ {x y : Bool} {e : Err}, s.frameCheck x y = .error e → .illegalCmd ∈ commandErrors i →
      (x = true ∨ y = true → .notConfigured ∈ commandErrors i) → .busFault ∈ commandErrors i → MayEnd i (.error e) := by
    intro x y e h h1 h2 h3 _
    rcases State.frameCheck_err h with rfl | ⟨rfl, h4⟩ | rfl
    · exact h1
    · exact h2 h4
    · exact h3
  cases i with
  | csumCompute => exact .check (fun e h _ => State.rangeCheck_err h) fun _ _ => .memRead fun _ => rfl
  | csumVerify => exact .check (fun e h _ => State.rangeCheck_err h) fun _ _ => .memRead fun _ => rfl
  | regRead => exact .check (fun e h _ => State.regCheck_err h) fun _ _ => State.regRead_ends fun _ => rfl
  | regWrite => exact .check (fun e h _ => State.regCheck_err h) fun _ _ => State.regWrite_ends rfl
  | regFlag enable =>
    exact .check (fun e h _ => State.regCheck_err h) fun _ _ => State.regRead_ends fun _ => State.regWrite_ends rfl
  | fieldGet hdr field chunk =>
    refine .check (fun e h hw => ?_) fun _ _ => .memRead fun _ => rfl
    rw [State.fieldCheck_err hw h]
    exact List.mem_singleton.2 rfl
  | fieldSet hdr field chunk =>
    refine .check (fun e h hw => ?_) fun l _ => ?_
    · rw [State.fieldCheck_err hw h]
      exact List.mem_singleton.2 rfl
    · split
      · exact .writeBE rfl
      · exact .readBE fun _ => .writeBE rfl
      · exact .readBE fun _ => .writeBE rfl
  | classify =>
    exact .check (fun e h => hf h (by decide) (fun _ => by decide) (by decide)) fun _ _ =>
      Prog.classify_ends (fun _ => by decide) (fun _ => by decide) fun _ => rfl
  | arpReply =>
    refine .check (fun e h => hf h (by decide) (fun _ => by decide) (by decide)) fun _ _ => ?_
    split
    · exact fun _ => by decide
    · exact State.arpReplyBody_ends rfl
  | icmpEchoReply =>
    refine .check (fun e h => hf h (by decide) (fun h => by simp at h) (by decide)) fun _ _ =>
      Prog.icmpLayout_ends (fun e he => ?_) fun _ => State.icmpEchoBody_ends rfl
    rcases he with rfl | rfl <;> exact fun _ => by decide
  | dispatch =>
    refine .check (fun e h => hf h (by decide) (fun _ => by decide) (by decide)) fun _ _ =>
      Prog.classify_ends (fun _ => by decide) (fun _ => by decide) fun info => Prog.emitLogs_ends ?_
    unfold State.dispatchReply
    split
    · exact rfl
    · exact State.arpReplyBody_ends rfl
    · exact Prog.icmpLayout_ends (fun _ _ => State.icmpEchoBody_ends rfl) fun _ => State.icmpEchoBody_ends rfl

/-! What a command's step does. -/

/-- Each arm of `exec` runs the command's pseudocode. -/
theorem exec_eq (i : Instr) (s : State) : exec i s = s.execute (program i s) := by
  cases i <;> rfl

/-- What a command can do, from every state: accesses it may make, and an end of its kind. -/
theorem exec_cases (i : Instr) (s : State) :
    ∃ u r, s.Ran (MayAccess i s) u ∧ MayEnd i r ∧ exec i s = .next (u.conclude r) :=
  ⟨_, _, Prog.runAll_ran s ((program_all i s).resume s.progress),
    Prog.runAll_ends s ((program_ends i s).resume s.progress), exec_eq i s⟩

/-- No command stops the machine. -/
theorem exec_next (i : Instr) (s : State) : ∃ t, exec i s = .next t := by
  obtain ⟨u, r, -, -, h⟩ := exec_cases i s
  exact ⟨_, h⟩

theorem State.conclude_rest (u : State) (r : Except Err Result) :
    u.conclude r =
      { u with
        cmd := none, progress := [], raced := [], err := (u.conclude r).err, stickyErr := (u.conclude r).stickyErr
        result := (u.conclude r).result, classReg := (u.conclude r).classReg, hdroff := (u.conclude r).hdroff
        txAddr := (u.conclude r).txAddr, txLen := (u.conclude r).txLen
        mem := freeBytes u.draws u.mem u.raced, draws := u.draws + u.raced.length } := by
  unfold State.conclude
  cases r with
  | error e => rfl
  | ok r =>
    cases r <;> simp only [State.deliver, State.drawResults] <;> split <;> first
      | rfl
      | (split <;> rfl)

theorem State.conclude_err (u : State) (r : Except Err Result) :
    (u.conclude r).err = (match r with
      | .error e => some e
      | .ok _ => none) ∧
    (u.conclude r).stickyErr = (match r with
      | .error _ => true
      | .ok _ => u.stickyErr) := by
  unfold State.conclude
  cases r with
  | error e => exact ⟨rfl, rfl⟩
  | ok r => cases r <;> simp only [State.deliver, State.drawResults] <;> split <;> first
      | exact ⟨rfl, rfl⟩
      | (split <;> exact ⟨rfl, rfl⟩)

/-- CLASS[31:6] is 0 in an unspecified classification too (spec/10_state.md R35). -/
theorem State.conclude_classBits (u : State) (r : Except Err Result) :
    (u.conclude r).classReg = u.classReg ∨ (u.conclude r).classReg.toNat < 64 := by
  have key : ∀ w : Word, (w &&& 0x3F).toNat < 64 := by
    intro w
    rw [BitVec.toNat_and]
    exact lt_of_le_of_lt Nat.and_le_right (by decide)
  unfold State.conclude
  cases r with
  | error e => exact .inl rfl
  | ok r =>
    cases r <;> simp only [State.deliver, State.drawResults] <;> split <;> first
      | exact .inl rfl
      | exact .inr (key _)
      | exact .inr (classWord_lt _)
      | (split <;> exact .inr (key _))

/-- Each command leaves the result registers it does not write, race or none (spec/10_state.md R48). -/
theorem State.conclude_results {i : Instr} {u : State} {r : Except Err Result} (h : MayEnd i r) :
    ((u.conclude r).result = u.result ∨ leavesResult i (.value 0) = true) ∧
    ((u.conclude r).classReg = u.classReg ∧ (u.conclude r).hdroff = u.hdroff ∨ i = .classify ∨ i = .dispatch) ∧
    ((u.conclude r).txAddr = u.txAddr ∧ (u.conclude r).txLen = u.txLen ∨ postsReply i = true) := by
  unfold State.conclude
  cases r with
  | error e => exact ⟨.inl rfl, .inl ⟨rfl, rfl⟩, .inl ⟨rfl, rfl⟩⟩
  | ok r =>
    cases r with
    | nothing =>
      simp only [State.deliver, State.drawResults, ite_self]
      exact ⟨.inl rfl, .inl ⟨rfl, rfl⟩, .inl ⟨rfl, rfl⟩⟩
    | value v =>
      have h' : leavesResult i (.value 0) = true := by cases i <;> first | rfl | cases h
      refine ⟨.inr h', ?_, ?_⟩ <;> left <;> simp only [State.deliver, State.drawResults] <;> split <;> exact ⟨rfl, rfl⟩
    | frame info posted =>
      have h' : i = .classify ∧ posted = false ∨ i = .dispatch := by
        cases i <;> cases posted <;> first | (cases h; done) | exact .inl ⟨rfl, rfl⟩ | exact .inr rfl
      rcases h' with ⟨rfl, rfl⟩ | rfl
      · refine ⟨.inl ?_, .inr (.inl rfl), .inl ?_⟩ <;> simp only [State.deliver, State.drawResults] <;> split <;>
          first | rfl | exact ⟨rfl, rfl⟩
      · refine ⟨.inl ?_, .inr (.inr rfl), .inr rfl⟩
        simp only [State.deliver, State.drawResults]
        split
        · rfl
        · split <;> rfl
    | reply =>
      have h' : postsReply i = true := by cases i <;> first | rfl | cases h
      refine ⟨.inl ?_, .inl ?_, .inr h'⟩ <;> simp only [State.deliver, State.drawResults] <;> split <;>
        first | rfl | exact ⟨rfl, rfl⟩

/-- An access of the command in progress leaves its program as it is (spec/10_state.md R44). -/
theorem program_perform (i : Instr) (s : State) (x : Access) (ws : List Word) :
    program i { s.perform x with progress := ws } = program i s := by
  have h : { s.perform x with progress := ws } =
      { s with
        txAddr := (s.perform x).txAddr, txLen := (s.perform x).txLen, txReq := (s.perform x).txReq
        mem := (s.perform x).mem, trace := (s.perform x).trace, mmioAnswers := (s.perform x).mmioAnswers
        portAnswers := (s.perform x).portAnswers, draws := (s.perform x).draws, progress := ws } := by
    have := (s.perform_ran (P := fun _ => True) (x := x) trivial).rest
    generalize s.perform x = t at this ⊢
    rw [this]
  rw [h]
  cases i <;> rfl

/-- So does noting raced bytes. -/
theorem program_raced (i : Instr) (s : State) (bs : List Nat) : program i { s with raced := bs } = program i s := by
  cases i <;> rfl

/-! The block's moves. -/

/-- What the block's turn does: nothing when idle, the error of an illegal word, or the rest of the command. -/
theorem State.blockStep_cases {s t : State} (h : s.blockStep = .next t) :
    (s.cmd = none ∧ t = s.tick) ∨ ((∃ w, s.cmd = some w) ∧ t = s.raise .illegalCmd) ∨
      ∃ w i u r, s.cmd = some w ∧ decode w = .ok i ∧ s.Ran (MayAccess i s) u ∧ MayEnd i r ∧ t = u.conclude r := by
  unfold State.blockStep at h
  split at h
  · next hc =>
    cases h
    exact .inl ⟨hc, rfl⟩
  · next w hc =>
    refine .inr ?_
    split at h
    · cases h
      exact .inl ⟨⟨w, hc⟩, rfl⟩
    · next i hd =>
      obtain ⟨u, r, h1, h2, h3⟩ := exec_cases i s
      rw [h3] at h
      cases h
      exact .inr ⟨w, i, u, r, hc, hd, h1, h2, rfl⟩

/-- What one event of the block does: as the turn does, or one access more in the command's progress. In
that case some admitted bytes may be raced already, since the host will race on them. -/
theorem State.blockEvent_cases {s t : State} (h : s.blockEvent = .next t) :
    (s.cmd = none ∧ t = s.tick) ∨ ((∃ w, s.cmd = some w) ∧ t = s.raise .illegalCmd) ∨
      (∃ w i r, s.cmd = some w ∧ decode w = .ok i ∧ MayEnd i r ∧ t = s.conclude r) ∨
      ∃ w i x bs u, s.cmd = some w ∧ decode w = .ok i ∧ MayAccess i u x ∧ u = { s with raced := bs } ∧
        (∀ b, (b ∈ s.raced → b ∈ bs) ∧ (b ∈ bs → b ∈ s.raced ∨ s.memOK b = true)) ∧
        t = { u.perform x with progress := u.progress ++ [u.answer x] } := by
  unfold State.blockEvent at h
  split at h
  · next hc =>
    cases h
    exact .inl ⟨hc, rfl⟩
  · next w hc =>
    refine .inr ?_
    split at h
    · cases h
      exact .inl ⟨⟨w, hc⟩, rfl⟩
    · next i hd =>
      have he := (program_ends i s).resume s.progress
      cases hp : (program i s).resume s.progress with
      | done r =>
        rw [hp, State.foresee_ended _ (by simp)] at h
        rw [hp] at he
        cases h
        exact .inr (.inl ⟨w, i, .ok r, hc, hd, he, rfl⟩)
      | raise e =>
        rw [hp, State.foresee_ended _ (by simp)] at h
        rw [hp] at he
        cases h
        exact .inr (.inl ⟨w, i, .error e, hc, hd, he, rfl⟩)
      | act x k =>
        rw [hp] at h
        obtain ⟨bs, h1, h2⟩ := State.foresee_eq s.inputs.length (.act x k) s
        rw [h1] at h
        cases h
        have ha := (program_all i { s with raced := bs }).resume s.progress
        rw [program_raced, hp] at ha
        exact .inr (.inr ⟨w, i, x, bs, _, hc, hd, ha.1, rfl, h2, rfl⟩)

/-! Unspecified bytes (spec/20_memory.md R63, spec/70_reset_and_hazards.md R231). -/

theorem freeBytes_read_ne {d a : Nat} (as : List Nat) : ∀ {m : Memory}, a ∉ as → (freeBytes d m as).read a = m.read a := by
  induction as with
  | nil => exact fun _ => rfl
  | cons b as ih =>
    intro m h
    simp only [List.mem_cons, not_or] at h
    exact (ih h.2).trans (Memory.read_write_ne _ _ h.1)

theorem freeBytes_wf {d : Nat} (as : List Nat) : ∀ {m : Memory}, m.wf → (freeBytes d m as).wf := by
  induction as with
  | nil => exact id
  | cons b as ih => exact fun h => ih (Memory.wf_write h _ _)

theorem mem_freeBytes {d : Nat} {as : List Nat} {c : Host.Cell} :
    ∀ {m : Memory}, c ∈ freeBytes d m as → c.1 ∈ as ∨ c ∈ m := by
  induction as with
  | nil => exact .inr
  | cons b as ih =>
    intro m h
    rcases ih h with h | h
    · exact .inl (List.mem_cons_of_mem _ h)
    · rcases Memory.mem_write h with rfl | h
      · exact .inl List.mem_cons_self
      · exact .inr h

/-! The events of a stopped command (spec/70_reset_and_hazards.md R231). -/

theorem program_congr (s : State) (ins : List Input) (ws : List Word) (i : Instr) :
    program i { s with inputs := ins, progress := ws } = program i s := by
  cases i <;> rfl

theorem mem_writtenBytes {a : Nat} : ∀ {evs : List Event}, a ∈ writtenBytes evs ↔ ∃ b, Event.ramWrite a b ∈ evs := by
  intro evs
  induction evs with
  | nil => simp [writtenBytes]
  | cons e evs ih =>
    cases e <;> simp [writtenBytes, ih]
    constructor
    · rintro (rfl | ⟨b, h⟩)
      · exact ⟨_, .inl ⟨rfl, rfl⟩⟩
      · exact ⟨b, .inr h⟩
    · rintro ⟨b, ⟨rfl, rfl⟩ | h⟩
      · exact .inl rfl
      · exact .inr ⟨b, h⟩

/-- An access is one event more of those the command has made. -/
theorem State.pastEvents_perform (s : State) (x : Access) :
    ({ s.perform x with progress := s.progress ++ [s.answer x] } : State).pastEvents =
      s.pastEvents ++ [x.event (s.answer x)] := by
  simp only [State.pastEvents, State.perform_trace, List.length_append, List.length_singleton]
  rw [show s.trace.length + 1 - (s.progress.length + 1) = s.trace.length - s.progress.length by omega,
    List.drop_append_of_le_length (by omega)]

/-- A run of some events leaves every byte that none of them writes. -/
theorem Prog.runFor_read (a n : Nat) : ∀ (p : Prog) (s : State) (evs : List Event),
    (p.runFor n s).trace = s.trace ++ evs → (∀ b, Event.ramWrite a b ∉ evs) →
    (p.runFor n s).mem.read a = s.mem.read a := by
  induction n with
  | zero => exact fun _ _ _ _ _ => rfl
  | succ n ih =>
    intro p s evs h hn
    cases p with
    | done r => rfl
    | raise r => rfl
    | act x k =>
      simp only [Prog.runFor] at *
      obtain ⟨evs', -, h2⟩ := Prog.runFor_trace n (k (s.answer x)) (s.perform x)
      have h3 : evs = x.event (s.answer x) :: evs'.take n := by
        rw [h2, State.perform_trace, List.append_assoc, List.append_cancel_left_eq] at h
        simpa using h.symm
      rw [ih _ _ _ h2 fun b hb => hn b (by rw [h3]; exact List.mem_cons_of_mem _ hb)]
      exact (s.perform_ran (P := fun y => y = x) (x := x) rfl).outside a fun b hb =>
        hn b (by rw [h3, ← hb]; exact List.mem_cons_self)

end Sys2Proof.Machine
end

