-- ==== Sys2Proof/Laws/Decode.lean ====
section
/-! SUPPORT. The fields of a command word: what the encoder puts in, the decoder's field readers find,
and a word with no reserved bit is put together from its own fields. -/

namespace Sys2Proof

section CommandWordFields

variable (op : BitVec 8) (en : BitVec 1) (hdr : BitVec 4) (field : BitVec 8) (chunk : BitVec 4)

@[simp] theorem opField_commandWord : opField (commandWord op en hdr field chunk) = op := by
  ext i hi
  interval_cases i <;> simp [opField, commandWord]

@[simp] theorem enField_commandWord : enField (commandWord op en hdr field chunk) = en := by
  ext i hi
  obtain rfl : i = 0 := by omega
  simp [enField, commandWord]

@[simp] theorem rsv0Field_commandWord : rsv0Field (commandWord op en hdr field chunk) = 0 := by
  ext i hi
  interval_cases i <;> simp [rsv0Field, commandWord]

@[simp] theorem hdrField_commandWord : hdrField (commandWord op en hdr field chunk) = hdr := by
  ext i hi
  interval_cases i <;> simp [hdrField, commandWord]

@[simp] theorem fieldField_commandWord : fieldField (commandWord op en hdr field chunk) = field := by
  ext i hi
  interval_cases i <;> simp [fieldField, commandWord]

@[simp] theorem chunkField_commandWord : chunkField (commandWord op en hdr field chunk) = chunk := by
  ext i hi
  interval_cases i <;> simp [chunkField, commandWord]

@[simp] theorem rsv1Field_commandWord : rsv1Field (commandWord op en hdr field chunk) = 0 := by
  ext i hi
  interval_cases i <;> simp [rsv1Field, commandWord]

end CommandWordFields

/-- A word whose reserved fields are 0 is the word of its own fields. -/
theorem commandWord_fields {w : Word} (h0 : rsv0Field w = 0) (h1 : rsv1Field w = 0) :
    commandWord (opField w) (enField w) (hdrField w) (fieldField w) (chunkField w) = w := by
  have low : ∀ i, i < 3 → w.getLsbD (9 + i) = false := fun i hi => by
    simpa [rsv0Field, hi] using congrArg (·.getLsbD i) h0
  have high : ∀ i, i < 4 → w.getLsbD (28 + i) = false := fun i hi => by
    simpa [rsv1Field, hi] using congrArg (·.getLsbD i) h1
  have := low 0
  have := low 1
  have := low 2
  have := high 0
  have := high 1
  have := high 2
  have := high 3
  ext i hi
  interval_cases i <;> simp_all [opField, enField, hdrField, fieldField, chunkField, commandWord]

/-- What `plainCommand` answers. -/
theorem plainCommand_eq_ok {w : Word} {i j : Instr} :
    plainCommand w i = .ok j ↔ enField w = 0 ∧ hdrField w = 0 ∧ fieldField w = 0 ∧ chunkField w = 0 ∧ i = j := by
  unfold plainCommand
  split
  · simp_all
  · split
    · simp_all
      tauto
    · simp_all

/-- What `flagCommand` answers. -/
theorem flagCommand_eq_ok {w : Word} {j : Instr} :
    flagCommand w = .ok j ↔
      hdrField w = 0 ∧ fieldField w = 0 ∧ chunkField w = 0 ∧ .regFlag (enField w == 1) = j := by
  unfold flagCommand
  split
  · simp_all
    tauto
  · simp_all

/-- What `fieldCommand` answers. -/
theorem fieldCommand_eq_ok {w : Word} {mk : BitVec 4 → BitVec 8 → BitVec 4 → Instr} {j : Instr} :
    fieldCommand w mk = .ok j ↔
      enField w = 0 ∧ Machine.validSelector (hdrField w) (fieldField w) (chunkField w) = true ∧
        mk (hdrField w) (fieldField w) (chunkField w) = j := by
  unfold fieldCommand
  split
  · simp_all
  · split <;> simp_all

end Sys2Proof
end

