-- ==== Sys2Proof/Laws/Frames.lean ====
section
/-! SUPPORT. The RAM rewritings of a reply as updates of the state while the host keeps its duty, and what
they leave byte by byte: a block write, a swap of two ranges, and the recomputing of a checksum. -/

namespace Sys2Proof.Machine

/-- `Swap(a, b, w)` as one update: both reads, then both writes (spec/43_dispatch.md R170). -/
def State.swap (s : State) (a b w : Nat) : State :=
  ((s.saw (ramReads s.mem a w ++ ramReads s.mem b w)).memWrite a (s.mem.bytes b w)).memWrite b (s.mem.bytes a w)

/-- The recomputing of a checksum as one update (spec/43_dispatch.md R174). -/
def State.rechecksum (s : State) (field a n : Nat) : State :=
  let z := s.memWrite field (bytesBE 2 0)
  (z.saw (ramReads z.mem a n)).memWrite field (bytesLE 2 (checksum (z.mem.bytes a n)))

/-- The reads and writes of `ArpReplyBody(f)` (spec/43_dispatch.md R171). -/
def State.arpRewrite (s : State) (f : Nat) (mac ip : List Byte) : State :=
  (((((s.swap f (f + 6) 6).memWrite (f + 20) (bytesBE 2 2)).swap (f + 22) (f + 32) 6).swap (f + 28) (f + 38) 4).memWrite
    (f + 22) mac).memWrite (f + 28) ip

/-- The reads and writes of `IcmpEchoBody` (spec/43_dispatch.md R174). -/
def State.icmpRewrite (s : State) (f : Nat) (g : IcmpGeometry) : State :=
  ((((s.swap f (f + 6) 6).swap (f + 26) (f + 30) 4).memWrite (f + g.l4) (bytesBE 1 0)).rechecksum
    (f + g.l4 + 2) (f + g.l4) g.icmpLen).rechecksum (f + 24) (f + 14) (4 * g.ihl)

/-- `PostTx(a, n)` as one update (spec/43_dispatch.md R176). -/
def State.posted (s : State) (a : Word) (n : BitVec 16) : State :=
  { s with txAddr := a, txLen := n, txReq := true, trace := s.trace ++ [.postTx a n] }

@[simp] theorem State.memWrite_raced (s : State) (a : Nat) (bs : List Byte) : (s.memWrite a bs).raced = s.raced := rfl
@[simp] theorem State.memWrite_mem (s : State) (a : Nat) (bs : List Byte) :
    (s.memWrite a bs).mem = s.mem.writeBytes a bs := rfl
@[simp] theorem State.swap_raced (s : State) (a b w : Nat) : (s.swap a b w).raced = s.raced := rfl
@[simp] theorem State.rechecksum_raced (s : State) (f a n : Nat) : (s.rechecksum f a n).raced = s.raced := rfl
@[simp] theorem State.arpRewrite_raced (s : State) (f : Nat) (mac ip : List Byte) :
    (s.arpRewrite f mac ip).raced = s.raced := by
  simp only [State.arpRewrite, State.memWrite_raced, State.swap_raced]
@[simp] theorem State.icmpRewrite_raced (s : State) (f : Nat) (g : IcmpGeometry) :
    (s.icmpRewrite f g).raced = s.raced := by
  simp only [State.icmpRewrite, State.rechecksum_raced, State.memWrite_raced, State.swap_raced]
@[simp] theorem State.posted_raced (s : State) (a : Word) (n : BitVec 16) : (s.posted a n).raced = s.raced := rfl

theorem Prog.runAll_swap (a b w : Nat) (p : Prog) {s : State} (hr : s.raced = []) :
    (Prog.swap a b w p).runAll s = p.runAll (s.swap a b w) := by
  unfold Prog.swap State.swap
  rw [Prog.runAll_memRead _ _ _ hr, Prog.runAll_memRead _ _ _ (by simpa using hr), Prog.runAll_memWrite,
    Prog.runAll_memWrite, State.saw_saw]
  rfl

theorem Prog.runAll_rechecksum (field a n : Nat) (p : Prog) {s : State} (hr : s.raced = []) :
    (Prog.rechecksum field a n p).runAll s = p.runAll (s.rechecksum field a n) := by
  unfold Prog.rechecksum State.rechecksum
  rw [Prog.runAll_writeBE, Prog.runAll_memRead _ _ _ (by simpa using hr), Prog.runAll_memWrite]

/-- The ARP reply body as one update: the rewriting of RAM, then the transmit request. -/
theorem State.runAll_arpReplyBody (s : State) (r : Result) {u : State} (hr : u.raced = []) :
    (s.arpReplyBody r).runAll u =
      (.ok r, (u.arpRewrite s.addr s.hostMacBytes s.hostIpBytes).posted s.arg0 42) := by
  unfold State.arpReplyBody State.arpRewrite
  rw [Prog.runAll_swap _ _ _ _ hr, Prog.runAll_writeBE, Prog.runAll_swap _ _ _ _ (by simpa using hr),
    Prog.runAll_swap _ _ _ _ (by simpa using hr), Prog.runAll_memWrite, Prog.runAll_memWrite, Prog.runAll_postTx]
  rfl

/-- The echo reply body as one update. -/
theorem State.runAll_icmpEchoBody (s : State) (r : Result) (g : IcmpGeometry) {u : State} (hr : u.raced = []) :
    (s.icmpEchoBody r g).runAll u =
      (.ok r, (u.icmpRewrite s.addr g).posted s.arg0 (s.arg1.extractLsb' 0 16)) := by
  unfold State.icmpEchoBody State.icmpRewrite
  rw [Prog.runAll_swap _ _ _ _ hr, Prog.runAll_swap _ _ _ _ (by simpa using hr), Prog.runAll_writeBE,
    Prog.runAll_rechecksum _ _ _ _ (by simpa using hr), Prog.runAll_rechecksum _ _ _ _ (by simpa using hr),
    Prog.runAll_postTx]
  rfl

/-! What a rewriting leaves. -/

/-- `t` comes from `s` by RAM reads and writes in `[lo, hi)` alone. -/
structure State.Rewrites (s t : State) (lo hi : Nat) : Prop where
  rest : t = { s with mem := t.mem, trace := t.trace }
  events : ∃ evs, t.trace = s.trace ++ evs ∧
    ∀ e ∈ evs, ∃ k b, lo ≤ k ∧ k < hi ∧ (e = .ramRead k b ∨ e = .ramWrite k b)
  outside : ∀ a, a < lo ∨ hi ≤ a → t.mem.read a = s.mem.read a
  wf : s.mem.wf → t.mem.wf

theorem State.Rewrites.trans {s t u : State} {lo hi : Nat} (h1 : s.Rewrites t lo hi) (h2 : t.Rewrites u lo hi) :
    s.Rewrites u lo hi := by
  obtain ⟨evs1, ht1, he1⟩ := h1.events
  obtain ⟨evs2, ht2, he2⟩ := h2.events
  refine ⟨?_, ⟨evs1 ++ evs2, by rw [ht2, ht1, List.append_assoc], ?_⟩, fun a ha => ?_, fun h => h2.wf (h1.wf h)⟩
  · have e1 := h1.rest
    have e2 := h2.rest
    rw [e1] at e2
    exact e2
  · intro e he
    rcases List.mem_append.1 he with he | he
    · exact he1 e he
    · exact he2 e he
  · rw [h2.outside a ha, h1.outside a ha]

theorem State.saw_rewrites (s : State) {m : Memory} {lo hi : Nat} {evs : List Event} (h : ReadsIn m lo (hi - lo) evs) :
    s.Rewrites (s.saw evs) lo hi := by
  refine ⟨rfl, ⟨evs, rfl, fun e he => ?_⟩, fun _ _ => rfl, id⟩
  obtain ⟨k, h1, h2, rfl⟩ := h e he
  exact ⟨k, _, h1, by omega, .inl rfl⟩

theorem State.memWrite_rewrites (s : State) {a lo hi : Nat} (bs : List Byte) (h1 : lo ≤ a) (h2 : a + bs.length ≤ hi) :
    s.Rewrites (s.memWrite a bs) lo hi := by
  refine ⟨rfl, ⟨ramWrites a bs, rfl, fun e he => ?_⟩, fun a' h => ?_, fun h => Memory.wf_writeBytes bs h a⟩
  · obtain ⟨k, b, rfl, h3, h4⟩ := mem_ramWrites he
    exact ⟨k, b, by omega, by omega, .inr rfl⟩
  · exact Memory.read_writeBytes_outside bs s.mem (by omega)

theorem State.swap_rewrites (s : State) {a b w lo hi : Nat} (h1 : lo ≤ a) (h2 : a + w ≤ hi) (h3 : lo ≤ b)
    (h4 : b + w ≤ hi) : s.Rewrites (s.swap a b w) lo hi :=
  ((s.saw_rewrites ((ramReads_in (m := s.mem) h1 (by omega)).append (ramReads_in h3 (by omega)))).trans
    (State.memWrite_rewrites _ _ h1 (by simpa using h2))).trans (State.memWrite_rewrites _ _ h3 (by simpa using h4))

theorem State.rechecksum_rewrites (s : State) {field a n lo hi : Nat} (h1 : lo ≤ field) (h2 : field + 2 ≤ hi)
    (h3 : lo ≤ a) (h4 : a + n ≤ hi) : s.Rewrites (s.rechecksum field a n) lo hi :=
  ((s.memWrite_rewrites _ h1 (by simpa using h2)).trans (State.saw_rewrites _ (ramReads_in h3 (by omega)))).trans
    (State.memWrite_rewrites _ _ h1 (by simpa using h2))

/-- The ARP reply reads and writes inside the frame's first 42 bytes (spec/43_dispatch.md R171). -/
theorem State.arpRewrite_rewrites (s : State) (f : Nat) {mac ip : List Byte} (h1 : mac.length = 6) (h2 : ip.length = 4) :
    s.Rewrites (s.arpRewrite f mac ip) f (f + 42) := by
  unfold State.arpRewrite
  refine (((((s.swap_rewrites ?_ ?_ ?_ ?_).trans (State.memWrite_rewrites _ _ ?_ ?_)).trans
    (State.swap_rewrites _ ?_ ?_ ?_ ?_)).trans (State.swap_rewrites _ ?_ ?_ ?_ ?_)).trans
    (State.memWrite_rewrites _ _ ?_ ?_)).trans (State.memWrite_rewrites _ _ ?_ ?_) <;>
    first
      | omega
      | (rw [length_bytesBE]; omega)

/-- The echo reply reads and writes inside the frame (spec/43_dispatch.md R174). -/
theorem State.icmpRewrite_rewrites (s : State) (f : Nat) (g : IcmpGeometry) {n : Nat} (h1 : 34 ≤ n) (h2 : g.l4 + 4 ≤ n)
    (h3 : g.l4 + g.icmpLen ≤ n) (h4 : 14 + 4 * g.ihl ≤ n) : s.Rewrites (s.icmpRewrite f g) f (f + n) := by
  unfold State.icmpRewrite
  refine ((((s.swap_rewrites ?_ ?_ ?_ ?_).trans (State.swap_rewrites _ ?_ ?_ ?_ ?_)).trans
    (State.memWrite_rewrites _ _ ?_ ?_)).trans (State.rechecksum_rewrites _ ?_ ?_ ?_ ?_)).trans
    (State.rechecksum_rewrites _ ?_ ?_ ?_ ?_) <;>
    first
      | omega
      | (rw [length_bytesBE]; omega)

/-! Byte by byte. -/

/-- A list of bytes is a range of RAM when each of its bytes is there. -/
theorem Memory.bytes_eq_of_read {m : Memory} {a n : Nat} {bs : List Byte} (hl : bs.length = n)
    (h : ∀ i, (hi : i < n) → m.read (a + i) = bs[i]'(hl ▸ hi)) : m.bytes a n = bs :=
  List.ext_getElem (by simp [hl]) fun i h1 h2 => by
    rw [Memory.getElem_bytes]
    exact h i (by simpa using h1)

theorem State.memWrite_wf {s : State} (h : s.mem.wf) (a : Nat) (bs : List Byte) : (s.memWrite a bs).mem.wf :=
  Memory.wf_writeBytes bs h a

theorem State.memWrite_bytes {s : State} (h : s.mem.wf) (a : Nat) {n : Nat} {bs : List Byte} (hn : bs.length = n) :
    (s.memWrite a bs).mem.bytes a n = bs := by
  subst hn
  exact Memory.bytes_writeBytes_same h a bs

theorem State.memWrite_bytes_disjoint (s : State) {a b n : Nat} {bs : List Byte}
    (h : b + n ≤ a ∨ a + bs.length ≤ b) : (s.memWrite a bs).mem.bytes b n = s.mem.bytes b n :=
  Memory.bytes_writeBytes_disjoint s.mem bs h

theorem State.memWrite_read_outside (s : State) {a k : Nat} {bs : List Byte} (h : k < a ∨ a + bs.length ≤ k) :
    (s.memWrite a bs).mem.read k = s.mem.read k :=
  Memory.read_writeBytes_outside bs s.mem h

theorem State.swap_wf {s : State} (h : s.mem.wf) (a b w : Nat) : (s.swap a b w).mem.wf :=
  State.memWrite_wf (State.memWrite_wf h _ _) _ _

/-- A swap of two ranges that do not overlap (spec/43_dispatch.md R170). -/
theorem State.swap_bytes {s : State} (h : s.mem.wf) {a b w : Nat} (hd : a + w ≤ b ∨ b + w ≤ a) :
    (s.swap a b w).mem.bytes a w = s.mem.bytes b w ∧ (s.swap a b w).mem.bytes b w = s.mem.bytes a w := by
  refine ⟨?_, State.memWrite_bytes (State.memWrite_wf h _ _) _ (by simp)⟩
  unfold State.swap
  rw [State.memWrite_bytes_disjoint _ (by simpa using hd)]
  exact State.memWrite_bytes (s := s.saw _) h _ (by simp)

theorem State.swap_bytes_disjoint (s : State) {a b w c n : Nat} (h1 : c + n ≤ a ∨ a + w ≤ c)
    (h2 : c + n ≤ b ∨ b + w ≤ c) : (s.swap a b w).mem.bytes c n = s.mem.bytes c n := by
  unfold State.swap
  rw [State.memWrite_bytes_disjoint _ (by simpa using h2), State.memWrite_bytes_disjoint _ (by simpa using h1)]
  rfl

theorem State.swap_read_outside (s : State) {a b w k : Nat} (h1 : k < a ∨ a + w ≤ k) (h2 : k < b ∨ b + w ≤ k) :
    (s.swap a b w).mem.read k = s.mem.read k := by
  unfold State.swap
  rw [State.memWrite_read_outside _ (by simpa using h2), State.memWrite_read_outside _ (by simpa using h1)]
  rfl

theorem State.rechecksum_wf {s : State} (h : s.mem.wf) (field a n : Nat) : (s.rechecksum field a n).mem.wf :=
  State.memWrite_wf (s := (s.memWrite field (bytesBE 2 0)).saw _) (State.memWrite_wf h _ _) _ _

theorem State.rechecksum_bytes_disjoint (s : State) {field a n b k : Nat} (h : b + k ≤ field ∨ field + 2 ≤ b) :
    (s.rechecksum field a n).mem.bytes b k = s.mem.bytes b k := by
  unfold State.rechecksum
  dsimp only
  rw [State.memWrite_bytes_disjoint _ (by simpa using h)]
  exact State.memWrite_bytes_disjoint _ (by simpa using h)

theorem State.rechecksum_read_outside (s : State) {field a n k : Nat} (h : k < field ∨ field + 2 ≤ k) :
    (s.rechecksum field a n).mem.read k = s.mem.read k := by
  unfold State.rechecksum
  dsimp only
  rw [State.memWrite_read_outside _ (by simpa using h)]
  exact State.memWrite_read_outside _ (by simpa using h)

/-- The checksum field after a recomputing: the little-endian bytes of the checksum of the range in
which that field is zero (spec/43_dispatch.md R174). -/
theorem State.rechecksum_field {s : State} (h : s.mem.wf) (field a n : Nat) :
    (s.rechecksum field a n).mem.bytes field 2 =
      bytesLE 2 (checksum ((s.memWrite field (bytesBE 2 0)).mem.bytes a n)) :=
  State.memWrite_bytes (s := (s.memWrite field (bytesBE 2 0)).saw _) (State.memWrite_wf h _ _) _ (by simp)

end Sys2Proof.Machine
end

