-- ==== Sys2Proof/Laws/PerInstr.lean ====
section
/-! SUPPORT. Facts about every command as syntax, one lemma per constructor. -/

namespace Sys2Proof.Laws

/-- The word of a command carries the command's OP value and 0 in both reserved fields
(spec/30_encoding.md R81, R83, R84). -/
def CodedFields.Statement (i : Instr) : Prop :=
  opField (encode i) = opcode i ∧ rsv0Field (encode i) = 0 ∧ rsv1Field (encode i) = 0

theorem CodedFields.csumCompute : CodedFields.Statement .csumCompute := by
  simp [CodedFields.Statement, encode]

theorem CodedFields.csumVerify : CodedFields.Statement .csumVerify := by
  simp [CodedFields.Statement, encode]

theorem CodedFields.regRead : CodedFields.Statement .regRead := by
  simp [CodedFields.Statement, encode]

theorem CodedFields.regWrite : CodedFields.Statement .regWrite := by
  simp [CodedFields.Statement, encode]

theorem CodedFields.regFlag (enable : Bool) : CodedFields.Statement (.regFlag enable) := by
  simp [CodedFields.Statement, encode]

theorem CodedFields.fieldGet (hdr : BitVec 4) (field : BitVec 8) (chunk : BitVec 4) :
    CodedFields.Statement (.fieldGet hdr field chunk) := by
  simp [CodedFields.Statement, encode]

theorem CodedFields.fieldSet (hdr : BitVec 4) (field : BitVec 8) (chunk : BitVec 4) :
    CodedFields.Statement (.fieldSet hdr field chunk) := by
  simp [CodedFields.Statement, encode]

theorem CodedFields.classify : CodedFields.Statement .classify := by
  simp [CodedFields.Statement, encode]

theorem CodedFields.arpReply : CodedFields.Statement .arpReply := by
  simp [CodedFields.Statement, encode]

theorem CodedFields.icmpEchoReply : CodedFields.Statement .icmpEchoReply := by
  simp [CodedFields.Statement, encode]

theorem CodedFields.dispatch : CodedFields.Statement .dispatch := by
  simp [CodedFields.Statement, encode]

end Sys2Proof.Laws
end

