-- ==== Sys2Proof/Tests/Slice0.lean ====
section
/-! SUPPORT. Tests of the model against the spec's own examples (spec/95_test_vectors.md, spec/30_encoding.md
R90, the examples of the command rules), and for each obligation with hypotheses a state that meets them. -/

namespace Sys2Proof.Tests

-- The tests that run a whole command on a frame are evaluated by the kernel, one after another.
set_option Elab.async false

open Sys2Proof Sys2Proof.Machine

/-! Well-formedness refuses each ill-formed selector (spec/42_header_codec.md R149, R150; V-F4, V-F15 to V-F17). -/

theorem smoke_header_kind_8 : (Instr.fieldGet 8 0 0).wellFormed = false ∧ (Instr.fieldSet 8 0 0).wellFormed = false := by decide
theorem smoke_ethernet_field_3 : (Instr.fieldGet 0 3 0).wellFormed = false ∧ (Instr.fieldSet 0 3 0).wellFormed = false := by decide
theorem smoke_mac_chunk_2 : (Instr.fieldGet 0 0 2).wellFormed = false ∧ (Instr.fieldSet 0 0 2).wellFormed = false := by decide
theorem smoke_nibble_chunk_1 : (Instr.fieldGet 2 1 1).wellFormed = false ∧ (Instr.fieldSet 2 2 1).wellFormed = false := by decide
theorem smoke_ipv6_chunk_4 : (Instr.fieldGet 6 4 4).wellFormed = false ∧ (Instr.fieldGet 6 4 3).wellFormed = true := by decide

/-! Decoding: each word is written out field by field as R81 lays it out (RSV1, CHUNK, FIELD, HDR, RSV0, EN, OP). -/

theorem test_decode_csumCompute : decode 0b0000_0000_00000000_0000_000_0_00000001 = .ok .csumCompute := rfl
theorem test_decode_csumVerify : decode 0b0000_0000_00000000_0000_000_0_00000010 = .ok .csumVerify := rfl
theorem test_decode_regRead : decode 0b0000_0000_00000000_0000_000_0_00010000 = .ok .regRead := rfl
theorem test_decode_regWrite : decode 0b0000_0000_00000000_0000_000_0_00010001 = .ok .regWrite := rfl
theorem test_decode_regFlag_set : decode 0b0000_0000_00000000_0000_000_1_00010010 = .ok (.regFlag true) := rfl
theorem test_decode_regFlag_clear : decode 0b0000_0000_00000000_0000_000_0_00010010 = .ok (.regFlag false) := rfl
theorem test_decode_fieldGet : decode 0b0000_0011_00000101_0110_000_0_00100000 = .ok (.fieldGet 6 5 3) := rfl
theorem test_decode_fieldSet : decode 0b0000_0001_00000111_0001_000_0_00100001 = .ok (.fieldSet 1 7 1) := rfl
theorem test_decode_classify : decode 0b0000_0000_00000000_0000_000_0_00110000 = .ok .classify := rfl
theorem test_decode_arpReply : decode 0b0000_0000_00000000_0000_000_0_00110001 = .ok .arpReply := rfl
theorem test_decode_icmpEchoReply : decode 0b0000_0000_00000000_0000_000_0_00110010 = .ok .icmpEchoReply := rfl
theorem test_decode_dispatch : decode 0b0000_0000_00000000_0000_000_0_00110011 = .ok .dispatch := rfl
theorem test_decodeTableWord : decodeTableWord 32 0x000B2020 = some (.fieldGet 2 11 0) := rfl

/-- V-E1 to V-E6: one word for each reason a word is illegal, and words on either side of the OP groups. -/
theorem test_decode_illegal :
    decode 0x00000003 = .error .reservedOp ∧ decode 0x00001001 = .error .unusedSelector ∧
    decode 0x00000201 = .error .reservedBits ∧ decode 0x10000001 = .error .reservedBits ∧
    decode 0x00000113 = .error .reservedOp ∧ decode 0x00000133 = .error .unusedEnable ∧
    decode 0x02000020 = .error .badSelector ∧ decode 0x00000022 = .error .reservedOp ∧
    decode 0x000000FF = .error .reservedOp := ⟨rfl, rfl, rfl, rfl, rfl, rfl, rfl, rfl, rfl⟩

/-- R140, R142 to R148: the whole-byte fields of each header follow one another with no padding, from
offset 0 to the header's size. -/
theorem test_header_fields_are_contiguous :
    ∀ p ∈ [((0 : BitVec 4), 14), (1, 28), (2, 20), (3, 8), (4, 20), (5, 8), (6, 40), (7, 8)],
      let whole := (headerFields p.1).filter fun l => l.kind = .bytes
      whole.map (·.offset) = ((whole.map (·.width)).scanl (· + ·) 0).dropLast ∧ (whole.map (·.width)).sum = p.2 := by
  decide

/-! States for the tests. -/

/-- The answer is a next state of which `p` holds. -/
def nextIs (o : Host.Outcome State Fault Refusal) (p : State → Bool) : Bool :=
  match o with
  | .next t => p t
  | .fault _ => false
  | .refused _ => false

/-- After reset, with a command accepted and its operands. -/
def started (w arg0 arg1 : Word) : State := { State.reset with cmd := some w, arg0 := arg0, arg1 := arg1 }

/-- The common configuration of spec/95_test_vectors.md: 10.85.85.2 and 52:54:00:12:34:56, the MAC written as
spec/10_state.md R30 maps its octets (log entry 14). -/
def configured (s : State) : State :=
  { s with
    hostIp := 0x0A555502, hostMacHi := 0x5254, hostMacLo := 0x00123456
    ipSet := true, macHiSet := true, macLoSet := true }

/-- A register port at `base`. -/
def port (s : State) (mode : MapMode) (base : Word) : State :=
  { s with rpMode := mode, rpBase := base, baseSet := true, modeSet := true }

/-- The bytes `bs` in RAM at 0x3000, and a command on the first `n` bytes from there. -/
def holding (bs : List Byte) (n : Word) : State :=
  { started 0x33 0x3000 n with mem := Memory.writeBytes [] 0x3000 bs }

/-- The same in the common configuration. -/
def frame (bs : List Byte) (n : Word) : State := configured (holding bs n)

/-- CSUM_COMPUTE over four bytes. -/
def summing : State := { holding [0x01, 0x02, 0x03, 0x04] 4 with cmd := some 1 }

/-- F_ARP of P2, its first 42 bytes. -/
def arpRequest : List Byte :=
  [0xFF, 0xFF, 0xFF, 0xFF, 0xFF, 0xFF, 0x52, 0x54, 0x00, 0x0A, 0x0B, 0x0C, 0x08, 0x06, 0x00, 0x01,
   0x08, 0x00, 0x06, 0x04, 0x00, 0x01, 0x52, 0x54, 0x00, 0x0A, 0x0B, 0x0C, 0x0A, 0x55, 0x55, 0x05,
   0x00, 0x00, 0x00, 0x00, 0x00, 0x00, 0x0A, 0x55, 0x55, 0x02]

/-- F_ARP after the reply (P2). -/
def arpAnswer : List Byte :=
  [0x52, 0x54, 0x00, 0x0A, 0x0B, 0x0C, 0xFF, 0xFF, 0xFF, 0xFF, 0xFF, 0xFF, 0x08, 0x06, 0x00, 0x01,
   0x08, 0x00, 0x06, 0x04, 0x00, 0x02, 0x52, 0x54, 0x00, 0x12, 0x34, 0x56, 0x0A, 0x55, 0x55, 0x02,
   0x52, 0x54, 0x00, 0x0A, 0x0B, 0x0C, 0x0A, 0x55, 0x55, 0x05]

/-- An IPv4 frame as F_ICMP of P3, with the version byte, the low byte of TOTAL_LEN, the protocol and
the ICMP type as given; 50 bytes, the rest of F_ICMP is zero padding. -/
def ipv4Frame (ver tl proto type : Byte) : List Byte :=
  [0x52, 0x54, 0x00, 0x12, 0x34, 0x56, 0x52, 0x54, 0x00, 0x0A, 0x0B, 0x0C, 0x08, 0x00, ver, 0x00,
   0x00, tl, 0xAB, 0xCD, 0x00, 0x00, 0x40, proto, 0x10, 0x5B, 0x0A, 0x55, 0x55, 0x05, 0x0A, 0x55,
   0x55, 0x02, type, 0x00, 0x54, 0x35, 0x12, 0x34, 0x00, 0x01, 0x61, 0x62, 0x63, 0x64, 0x65, 0x66,
   0x67, 0x68]

/-- F_ICMP of P3. -/
def echoRequest : List Byte := ipv4Frame 0x45 0x24 0x01 0x08

/-- F_ICMP after the reply (P3). -/
def echoAnswer : List Byte :=
  [0x52, 0x54, 0x00, 0x0A, 0x0B, 0x0C, 0x52, 0x54, 0x00, 0x12, 0x34, 0x56, 0x08, 0x00, 0x45, 0x00,
   0x00, 0x24, 0xAB, 0xCD, 0x00, 0x00, 0x40, 0x01, 0x10, 0x5B, 0x0A, 0x55, 0x55, 0x02, 0x0A, 0x55,
   0x55, 0x05, 0x00, 0x00, 0x5C, 0x35, 0x12, 0x34, 0x00, 0x01, 0x61, 0x62, 0x63, 0x64, 0x65, 0x66,
   0x67, 0x68]

/-- F_ICMP9 (V-D20), an ICMP segment of odd length, and its first 51 bytes after the reply. -/
def oddRequest : List Byte :=
  [0x52, 0x54, 0x00, 0x12, 0x34, 0x56, 0x52, 0x54, 0x00, 0x0A, 0x0B, 0x0C, 0x08, 0x00, 0x45, 0x00,
   0x00, 0x25, 0xAB, 0xCD, 0x00, 0x00, 0x40, 0x01, 0x10, 0x5A, 0x0A, 0x55, 0x55, 0x05, 0x0A, 0x55,
   0x55, 0x02, 0x08, 0x00, 0xEB, 0x34, 0x12, 0x34, 0x00, 0x01, 0x61, 0x62, 0x63, 0x64, 0x65, 0x66,
   0x67, 0x68, 0x69]

/-- The IPv6 frame of V-D22 with the next header as given, without its zero padding. -/
def ipv6Frame (nh : Byte) : List Byte :=
  [0x00, 0x00, 0x00, 0x00, 0x00, 0x00, 0x00, 0x00, 0x00, 0x00, 0x00, 0x00, 0x86, 0xDD, 0x60, 0x00,
   0x00, 0x00, 0x00, 0x08, nh, 0x40]

/-- A frame of unknown ethertype (V-D3). -/
def unknownFrame : List Byte :=
  [0x00, 0x00, 0x00, 0x00, 0x00, 0x00, 0x00, 0x00, 0x00, 0x00, 0x00, 0x00, 0x12, 0x34]

/-! Commands (each one step, on the spec's vectors). -/

/-- V-C1. -/
theorem test_csumCompute :
    nextIs (exec .csumCompute (holding [0x00, 0x01, 0xF2, 0x03, 0xF4, 0xF5, 0xF6, 0xF7] 8)) (fun t =>
      t.result = 0x0D22 ∧ t.err = none ∧ t.busy = false ∧ t.trace.length = 8) = true := by decide

/-- V-C6: an odd length. -/
theorem test_csumCompute_odd :
    nextIs (exec .csumCompute (holding [0x01, 0x02, 0x03] 3)) (fun t => t.result = 0xFDFB) = true := by decide

/-- V-C10 with the checksum embedded. -/
theorem test_csumVerify :
    nextIs (exec .csumVerify (holding [0x45, 0x00, 0x00, 0x73, 0x00, 0x00, 0x40, 0x00, 0x40, 0x11, 0xB8, 0x61,
      0xC0, 0xA8, 0x00, 0x01, 0xC0, 0xA8, 0x00, 0xC7] 20)) (fun t => t.result = 1) = true := by decide

/-- V-C2: the empty range is not valid. -/
theorem test_csumVerify_empty : nextIs (exec .csumVerify (holding [] 0)) (fun t => t.result = 0) = true := by decide

/-- V-R2. -/
theorem test_regRead_memory :
    nextIs (exec .regRead (port { started 0x10 0x08 0 with mmioAnswers := [0x80080783] } .memoryMapped 0xFEBC0000))
      (fun t => t.result = 0x80080783 ∧ t.trace = [.bus (.mmioRead 0xFEBC0008 0x80080783),
        .log (.regAccess 0x08 .read 0x80080783)]) = true := by decide

/-- V-R6. -/
theorem test_regRead_port :
    nextIs (exec .regRead (port { started 0x10 0x08 0 with portAnswers := [0x11223344] } .portMapped 0xFFF8))
      (fun t => t.result = 0x11223344 ∧ t.trace = [.bus (.portWrite 0xFFF8 0x08), .bus (.portRead 0xFFFC 0x11223344),
        .log (.regAccess 0x08 .read 0x11223344)]) = true := by decide

/-- V-R9. -/
theorem test_regWrite :
    nextIs (exec .regWrite (port (started 0x11 0xD0 0xD4) .portMapped 0xC000)) (fun t =>
      t.trace = [.bus (.portWrite 0xC000 0xD0), .bus (.portWrite 0xC004 0xD4), .log (.regAccess 0xD0 .write 0xD4)]) =
      true := by decide

/-- V-R8: a port base above 0xFFF8. -/
theorem test_regWrite_range :
    nextIs (exec .regWrite (port (started 0x11 0xD0 0xD4) .portMapped 0x0001C000)) (fun t =>
      t.err = some .portRange ∧ t.trace = []) = true := by decide

/-- V-R10. -/
theorem test_regFlag_set :
    nextIs (exec (.regFlag true) (port { started 0x112 0 0x60 with mmioAnswers := [0x08] } .memoryMapped 0xFEBC0000))
      (fun t => t.result = 0x68 ∧ t.trace = [.bus (.mmioRead 0xFEBC0000 0x08), .log (.regAccess 0 .read 0x08),
        .bus (.mmioWrite 0xFEBC0000 0x68), .log (.regAccess 0 .write 0x68)]) = true := by decide

/-- P4, the second REG_FLAG. -/
theorem test_regFlag_clear :
    nextIs (exec (.regFlag false) (port { started 0x12 0 0x08 with portAnswers := [0x49] } .portMapped 0xC000))
      (fun t => t.result = 0x41 ∧ t.trace = [.bus (.portWrite 0xC000 0), .bus (.portRead 0xC004 0x49),
        .log (.regAccess 0 .read 0x49), .bus (.portWrite 0xC000 0), .bus (.portWrite 0xC004 0x41),
        .log (.regAccess 0 .write 0x41)]) = true := by decide

/-- V-F3: the second chunk of a MAC address. -/
theorem test_fieldGet_chunk :
    nextIs (exec (.fieldGet 0 0 1) (holding echoRequest 0)) (fun t => t.result = 0x3456) = true := by decide

/-- V-F6: a nibble. -/
theorem test_fieldGet_nibble :
    nextIs (exec (.fieldGet 2 2 0) { holding echoRequest 0 with arg0 := 0x300E }) (fun t => t.result = 5) = true := by decide

/-- V-F11: only value[3:0] is used and the other nibble stays. -/
theorem test_fieldSet_nibble :
    nextIs (exec (.fieldSet 2 1 0) { holding echoRequest 0xFFFFFFF6 with arg0 := 0x300E }) (fun t =>
      t.mem.read 0x300E = 0x65 ∧ t.mem.read 0x300F = 0x00) = true := by decide

/-- V-F12: only the low 8 bits are used. -/
theorem test_fieldSet_truncates :
    nextIs (exec (.fieldSet 3 0 0) { holding echoRequest 0x100 with arg0 := 0x3022 }) (fun t =>
      t.mem.bytes 0x3021 3 = [0x02, 0x00, 0x00]) = true := by decide

/-- V-D4. -/
theorem test_classify_arp :
    nextIs (exec .classify (frame arpRequest 60)) (fun t => t.classReg = 0x11 ∧ t.hdroff = 0x0000000E) = true := by decide

/-- V-D22. -/
theorem test_classify_ipv6 :
    nextIs (exec .classify (frame (ipv6Frame 0x11) 62)) (fun t => t.classReg = 0x06 ∧ t.hdroff = 0x0036000E) = true := by
  decide

/-- P2's bytes, by ARP_REPLY. -/
theorem test_arpReply :
    nextIs (exec .arpReply (frame arpRequest 60)) (fun t =>
      t.mem.bytes 0x3000 42 = arpAnswer ∧ t.txAddr = 0x3000 ∧ t.txLen = 42 ∧ t.txReq = true) = true := by decide +kernel

/-- V-D27. -/
theorem test_arpReply_short :
    nextIs (exec .arpReply (frame arpRequest 41)) (fun t => t.err = some .frameShort ∧ t.mem.bytes 0x3000 42 = arpRequest) =
      true := by decide +kernel

/-- V-D29 with V-D20's frame: no configuration is needed, the ICMP length is odd. -/
theorem test_icmpEchoReply_odd :
    nextIs (exec .icmpEchoReply (holding oddRequest 60)) (fun t =>
      t.mem.bytes 0x3018 2 = [0x10, 0x5A] ∧ t.mem.bytes 0x3022 4 = [0x00, 0x00, 0xF3, 0x34] ∧ t.txLen = 60) = true := by
  decide +kernel

/-- V-D26. -/
theorem test_icmpEchoReply_malformed :
    nextIs (exec .icmpEchoReply (holding arpRequest 60)) (fun t => t.err = some .malformed) = true := by decide +kernel

/-- P3. -/
theorem test_dispatch_echo :
    nextIs (exec .dispatch (frame echoRequest 60)) (fun t =>
      t.mem.bytes 0x3000 50 = echoAnswer ∧ t.classReg = 0x22 ∧ t.hdroff = 0x0022000E ∧ t.txLen = 60 ∧
        t.logStream.length = 3) = true := by decide +kernel

/-- V-D33. -/
theorem test_dispatch_tcp :
    nextIs (exec .dispatch (frame (ipv4Frame 0x45 0x24 0x06 0x08) 60)) (fun t =>
      t.classReg = 0x03 ∧ t.txReq = false ∧ t.mem.bytes 0x3000 50 = ipv4Frame 0x45 0x24 0x06 0x08 ∧
        t.logStream.length = 3) = true := by decide +kernel

/-! One event at a time. -/

/-- R43, R171: an ARP reply makes 76 events before its PostTx (the swaps of 6, 6 and 4 bytes make 32 reads and
32 writes, and 2 + 6 + 4 more bytes are written). After the PostTx STATUS shows BUSY = 1 with TX_REQ = 1. -/
theorem test_busy_with_txReq :
    nextIs (step { frame arpRequest 42 with
      cmd := some 0x31, progress := List.replicate 76 0, inputs := [.blockEvent] }) (fun t =>
        t.status.extractLsb' 4 2 = 3 ∧ t.trace = [.postTx 0x3000 42] ∧ t.progress.length = 77) = true := by decide +kernel

/-- R60: the first event of a classification is the read of the first ethertype byte. -/
theorem test_first_event :
    nextIs (step { frame arpRequest 60 with inputs := [.blockEvent] }) (fun t =>
      t.busy ∧ t.trace = [.ramRead 0x300C 0x08] ∧ t.progress = [8]) = true := by decide

/-- R63: a block read of a raced byte finds an unspecified value, a new one at each read. -/
theorem test_raced_read (s : State) (a : Nat) (h : a ∈ s.raced) :
    s.answer (.read a) = (Config.freeByte s.draws a).setWidth 32 ∧
      (s.perform (.read a)).answer (.read a) = (Config.freeByte (s.draws + 1) a).setWidth 32 := by
  simp [State.answer, State.ramByte, State.perform, State.effect, h]

/-- R63: the host's store comes two events later; its byte is raced before the first of them. -/
theorem test_race_ahead :
    nextIs (step { summing with inputs := [.blockEvent, .blockEvent, .deviceTurn, .store 0x3002 4 0] }) (fun t =>
      t.raced = [0x3002, 0x3003] ∧ t.trace = [.ramRead 0x3000 0x01]) = true := by decide

/-- R63: four reads and the end of the command come before the store, which is then no race. -/
theorem test_no_race_after_the_end :
    nextIs (step { summing with inputs := List.replicate 5 .blockEvent ++ [.store 0x3002 4 0] }) (fun t =>
      t.raced = []) = true := by decide

/-- R236, R140: a FIELD command uses all six bytes of a MAC address, whichever chunk it names. -/
theorem test_field_range :
    (∀ k < 6, usesByte (.fieldGet 0 1 0) (holding [] 0) (0x3006 + k) = true) ∧
      usesByte (.fieldGet 0 1 0) (holding [] 0) 0x300C = false := by decide

/-- R243: a host access that gets no step does not keep the command in progress from its end. -/
theorem test_stuck_host_while_busy :
    nextIs (step { started 1 0 0 with inputs := [.load 0xF0000001 1] }) (fun t =>
      t.busy = false ∧ t.result = 0xFFFF ∧ t.inputs = [.load 0xF0000001 1]) = true := by decide

/-- R21, R230: a stuck host does not keep the platform from a reset. -/
theorem test_stuck_host_before_reset :
    nextIs (step { started 1 0 0 with inputs := [.load 0xF0000001 1, .poll, .reset] }) (fun t =>
      t.inputs = [.reset, .load 0xF0000001 1, .poll] ∧ t.busy) = true := by decide

/-! The window, steps and reset. -/

/-- V-E8: the illegal word 0 after reset. -/
theorem test_illegal_word : nextIs (step (State.reset.withFetchWord 32 0)) (fun t => t.status = 0x81) = true := by decide

/-- V-R1: a register read before configuration. -/
theorem test_not_configured : nextIs (step (State.reset.withFetchWord 32 0x10)) (fun t => t.status = 0x83) = true := by decide

/-- V-E10. -/
theorem test_overrun :
    nextIs (step { started 1 0 0 with inputs := [.store 0xF0000008 4 7] }) (fun t =>
      t.arg0 = 0 ∧ t.overrun = true ∧ t.busy = true) = true := by decide

/-- V-R13. -/
theorem test_rpBar :
    nextIs (step { State.reset with inputs := [.store 0xF0000038 4 0xC001] }) (fun t =>
      t.rpBase = 0xC000 ∧ t.rpMode = .portMapped ∧ t.status = 0x400) = true := by decide

/-- V-E14. -/
theorem test_hostMacHi :
    nextIs (step { State.reset with hostMacHi := 0xFFFF, macHiSet := true, inputs := [.load 0xF0000028 4] }) (fun t =>
      t.hostReads = [0xFFFF]) = true := by decide

/-- R69: a 16-bit host store puts the low byte at the lower address. -/
theorem test_host_store :
    nextIs (step { State.reset with inputs := [.store 0x1000 2 0x61B8] }) (fun t =>
      t.mem.bytes 0x1000 2 = [0xB8, 0x61]) = true := by decide

/-- R89: the expansion of `field.get a, 2, 11`. -/
theorem test_pseudo :
    (Pseudo.fieldGet 0x400E 2 11 0).expand = [.wr .arg0 0x400E, .cmd 0x000B2020, .poll] := by decide

/-! Witnesses: for each obligation with hypotheses, concrete data that meet them, clause by clause and at
the ends of the ranges. `waiting` has the given inputs, `started` has a command in progress. -/

/-- After reset, with inputs to come. -/
def waiting (ins : List Input) : State := { State.reset with inputs := ins }

/-- A command of length `n` at the top of a RAM that is admitted up to 2^32. -/
def atTop (addr n : Word) : State := { started 1 addr n with ram := [⟨0, 2 ^ 32⟩] }

theorem witness_DecodeOfEncodeIsTheCommand :
    (Instr.fieldGet 6 5 3).wellFormed = true ∧ (Instr.fieldSet 1 8 0).wellFormed = true ∧
    (Instr.regFlag false).wellFormed = true := by decide

theorem witness_LegalWordsAreEncodings : decode 0x03056020 = .ok (.fieldGet 6 5 3) := rfl

theorem witness_IllegalWordsEndWithIllegalCmd :
    (started 0x02000020 0 0).inputs = [] ∧ (started 0x02000020 0 0).cmd = some 0x02000020 ∧
    (∃ e, decode 0x02000020 = .error e) := ⟨rfl, rfl, _, rfl⟩

theorem witness_StepRunsTheDecodedCommand :
    (started 1 0 0).cmd = some 1 ∧ decode 1 = .ok .csumCompute ∧ (started 1 0 0).inputs = [] ∧
    ({ started 1 0 0 with inputs := [.blockTurn] } : State).inputs = .blockTurn :: [] ∧
    ({ started 1 0 0 with inputs := [.poll] } : State).inputs = .poll :: [] := ⟨rfl, rfl, rfl, rfl, rfl⟩

/-- A command with an event to make, and one with none left; a host that keeps its duty; a store to the byte
that the next event reads, and a load of one that FIELD_SET of the low nibble of IPv4 byte 0 reads. -/
theorem witness_CommandsRunOneEventAtATime :
    ({ frame arpRequest 60 with inputs := [.blockEvent] } : State).cmd = some 0x33 ∧ decode 0x33 = .ok .dispatch ∧
    ({ frame arpRequest 60 with inputs := [.blockEvent] } : State).inputs = .blockEvent :: [] ∧
    ({ started 1 0 0 with inputs := [.blockEvent] } : State).cmd = some 1 ∧ decode 1 = .ok .csumCompute ∧
    ({ started 1 0 0 with inputs := [.blockEvent] } : State).inputs = .blockEvent :: [] ∧
    summing.KeepsDuty .csumCompute [.deviceTurn, .blockEvent, .blockTurn, .store 0x3000 1 0] ∧
    (let s : State := { summing with inputs := [.blockEvent, .store 0x3000 1 0] }
     s.touchesWindow 0x3000 1 = false ∧ s.inBounds 0x3000 1 = true ∧ usesByte .csumCompute s 0x3000 = true ∧
     ∃ t c, step s = .next t ∧ t.trace = s.trace ++ [.ramRead 0x3000 c]) ∧
    (let s : State := { holding [0x45] 1 with cmd := some 0x00022021, inputs := [.blockEvent, .load 0x3000 1] }
     decode 0x00022021 = .ok (.fieldSet 2 2 0) ∧ writesRam (.fieldSet 2 2 0) = true ∧
     s.touchesWindow 0x3000 1 = false ∧ s.inBounds 0x3000 1 = true ∧ usesByte (.fieldSet 2 2 0) s 0x3000 = true ∧
     ∃ t c, step s = .next t ∧ t.trace = s.trace ++ [.ramRead 0x3000 c]) := by
  exact ⟨rfl, rfl, rfl, rfl, rfl, rfl, trivial, ⟨by decide, by decide, by decide, _, _, rfl, rfl⟩, rfl, rfl, by decide,
    by decide, by decide, _, _, rfl, rfl⟩

theorem witness_CmdWriteAcceptsTheCommand :
    (waiting [.store 0xF0000000 4 0x33]).busy = false ∧
    (waiting [.store 0xF0000000 4 0x33]).inputs =
      .store (waiting [.store 0xF0000000 4 0x33]).blkBase 4 (0x33 : Word).toNat :: [] := ⟨rfl, rfl⟩

theorem witness_WritesWhileBusyAreDropped :
    ∀ k ∈ [0, 1, 14, 15, 63],
      ({ started 1 0 0 with inputs := [.store (0xF0000000 + 4 * k) 4 9] } : State).busy = true ∧ k < 64 ∧
      ({ started 1 0 0 with inputs := [.store (0xF0000000 + 4 * k) 4 9] } : State).inputs =
        .store ((started 1 0 0).blkBase + 4 * k) 4 9 :: [] := by decide

theorem witness_ReadOnlyAndReservedOffsets :
    (∀ k ∈ [1, 4, 8, 15, 63], k < 64 ∧ 4 * k ∉ [0x00, 0x08, 0x0C, 0x24, 0x28, 0x2C, 0x30, 0x34, 0x38] ∧
      (waiting [.store (0xF0000000 + 4 * k) 4 9]).inputs =
        .store ((waiting []).blkBase + 4 * k) 4 9 :: []) ∧
    (∀ k ∈ [0, 14, 63], k < 64 ∧ (4 * k = 0x00 ∨ 0x38 ≤ 4 * k) ∧
      (waiting [.load (0xF0000000 + 4 * k) 4]).inputs = .load ((waiting []).blkBase + 4 * k) 4 :: []) := by decide

/-- Each of the seven registers. -/
theorem witness_HostWritesLoadTheRegisters :
    (∀ k ∈ [2, 3, 9, 10, 11, 12, 13],
      (waiting [.store (0xF0000000 + 4 * k) 4 7]).busy = false ∧
      (waiting [.store (0xF0000000 + 4 * k) 4 7]).inputs =
        .store ((waiting []).blkBase + 4 * k) 4 (7 : Word).toNat :: []) := by decide

theorem witness_RpBarLoadsTheRegisterPort :
    (waiting [.store 0xF0000038 4 0xC001]).busy = false ∧
    (waiting [.store 0xF0000038 4 0xC001]).inputs = .store ((waiting []).blkBase + 0x38) 4 (0xC001 : Word).toNat :: [] ∧
    (waiting [.load 0xF0000038 4]).inputs = .load ((waiting []).blkBase + 0x38) 4 :: [] := by decide

/-- The values of spec/70_reset_and_hazards.md R234. -/
theorem witness_BootSequenceConfigures :
    let s := waiting [.store 0xF0000024 4 0x0A555502, .store 0xF0000028 4 0x52, .store 0xF000002C 4 0x54123456,
      .store 0xF0000038 4 0xFEBC0000]
    s.busy = false ∧
    s.inputs = [.store (s.blkBase + 0x24) 4 (0x0A555502 : Word).toNat, .store (s.blkBase + 0x28) 4 (0x52 : Word).toNat,
      .store (s.blkBase + 0x2C) 4 (0x54123456 : Word).toNat, .store (s.blkBase + 0x38) 4 (0xFEBC0000 : Word).toNat] := by
  decide

/-- With the block idle, and with a command in progress; the last conjunct has a reset behind the access. -/
theorem witness_OtherWindowAccessesAreStuck :
    ∀ p ∈ [(0, 1), (0, 2), (2, 4), (255, 1), (255, 4)],
      p.1 < 256 ∧ 0 < p.2 ∧ (p.2 ≠ 4 ∨ p.1 % 4 ≠ 0) ∧
      (waiting [.store (0xF0000000 + p.1) p.2 1]).inputs = .store ((waiting []).blkBase + p.1) p.2 1 :: [] ∧
      (waiting [.load (0xF0000000 + p.1) p.2]).inputs = .load ((waiting []).blkBase + p.1) p.2 :: [] ∧
      (waiting [.load (0xF0000000 + p.1) p.2]).busy = false ∧
      ({ started 1 0 0 with inputs := [.load (0xF0000000 + p.1) p.2] } : State).inputs =
        .load ((started 1 0 0).blkBase + p.1) p.2 :: [] ∧
      ({ started 1 0 0 with inputs := [.load (0xF0000000 + p.1) p.2] } : State).busy = true ∧
      ([] : List Input).all Input.isHost = true ∧ [Input.poll].all Input.isHost = true ∧ Input.reset.isHost = false ∧
      ({ started 1 0 0 with inputs := [.load (0xF0000000 + p.1) p.2, .poll, .reset] } : State).inputs =
        .load ((started 1 0 0).blkBase + p.1) p.2 :: ([.poll] ++ .reset :: []) := by decide

theorem witness_StatusFields :
    (State.reset.failed .busFault).err = some .busFault ∧ (State.reset.failed .malformed).err = some .malformed ∧
    State.reset.err = none := ⟨rfl, rfl, rfl⟩

theorem witness_HostReadsOfTheWindow :
    (let s : State := { started 1 5 6 with inputs := [.load (0xF0000000 + 4 * 3) 4] }
     s.inputs = .load (s.blkBase + 4 * 3) 4 :: [] ∧ (3, (6 : Word)) ∈ [(1, s.status), (2, s.arg0), (3, s.arg1)]) ∧
    (let s : State := waiting [.load (0xF0000000 + 4 * 8) 4]
     s.inputs = .load (s.blkBase + 4 * 8) 4 :: [] ∧ s.busy = false ∧
     (8, (0 : Word)) ∈ [(4, s.result), (5, s.classReg), (6, s.hdroff), (7, s.txAddr), (8, s.txLen.setWidth 32)]) ∧
    (let s : State := { configured State.reset with inputs := [.load (0xF0000000 + 4 * 9) 4] }
     s.inputs = .load (s.blkBase + 4 * 9) 4 :: [] ∧ (9, true, (0x0A555502 : Word)) ∈ [(9, s.ipSet, s.hostIp)]) := by
  decide

theorem witness_ResetOfAnIdleBlock :
    (waiting [.reset]).busy = false ∧ (waiting [.reset]).inputs = .reset :: [] := ⟨rfl, rfl⟩

/-- The last conjunct: a byte that the command would have to write is one of its pending events, the rest are not. -/
theorem witness_ResetDuringACommand :
    ({ frame arpRequest 42 with inputs := [.reset] } : State).busy = true ∧
    ({ frame arpRequest 42 with inputs := [.reset] } : State).inputs = .reset :: [] ∧
    0x302A ∉ ({ frame arpRequest 42 with inputs := [.reset] } : State).raced ∧
    ({ frame arpRequest 42 with inputs := [.reset] } : State).writeRange.contains 0x302A = false ∧
    ({ frame arpRequest 42 with inputs := [.reset] } : State).writeRange.contains 0x3029 = true := by decide +kernel

theorem witness_StickyBitsStayUntilReset :
    ∃ t, step { State.reset with overrun := true, stickyErr := true } = .next t ∧
      (∀ rest, ({ State.reset with overrun := true, stickyErr := true } : State).inputs ≠ .reset :: rest) ∧
      ({ State.reset with overrun := true, stickyErr := true } : State).overrun = true ∧
      ({ State.reset with overrun := true, stickyErr := true } : State).stickyErr = true :=
  ⟨_, rfl, by simp [State.reset], rfl, rfl⟩

theorem witness_EveryCommandCompletes : (started 0x33 0 0).busy = true ∧ (started 0x33 0 0).inputs = [] := ⟨rfl, rfl⟩

/-- For ErrorsArePrecise and EachCommandRaisesOnlyItsErrors. -/
theorem witness_a_command_fails :
    Instr.regRead.wellFormed = true ∧ (started 0x10 8 0).Fresh ∧
    exec .regRead (started 0x10 8 0) = .next ((started 0x10 8 0).failed .notConfigured) ∧
    ((started 0x10 8 0).failed .notConfigured).err = some .notConfigured := ⟨rfl, ⟨rfl, rfl⟩, rfl, rfl⟩

theorem witness_LengthCommandsCheckInOrder :
    (started 1 0 0x10000).Fresh ∧ (started 1 0 0x10000).lenHigh ≠ 0 ∧
    (started 0x30 0 60).Fresh ∧ ((started 0x30 0 60).lenHigh = 0 ∧ (started 0x30 0 60).hostIpSet = false ∧ (started 0x30 0 60).hostMacSet = false) ∧
    (configured (started 0x33 0xFFFFFFF0 0x20)).Fresh ∧ ((configured (started 0x33 0xFFFFFFF0 0x20)).lenHigh = 0 ∧
      (configured (started 0x33 0xFFFFFFF0 0x20)).inBounds (configured (started 0x33 0xFFFFFFF0 0x20)).addr
        (configured (started 0x33 0xFFFFFFF0 0x20)).len = false ∧
      (configured (started 0x33 0xFFFFFFF0 0x20)).hostIpSet = true ∧
      (configured (started 0x33 0xFFFFFFF0 0x20)).hostMacSet = true) := by decide

/-- For the statements about whatever a command answers: CommandsLeaveOperandsAndConfiguration,
CommandsWriteOnlyTheirResultRegisters, TransmitRequestIsTheLastEvent, CommandsWriteRamOnlyInTheirRange. A
command that posts a request and one that does not. -/
theorem witness_commands_answer :
    nextIs (exec .arpReply (frame arpRequest 42)) (fun t => t.txReq) = true ∧
    nextIs (exec .csumCompute (started 1 0 0)) (fun t => !t.txReq) = true ∧
    (frame arpRequest 42).Fresh ∧ (started 1 0 0).Fresh ∧
    (frame arpRequest 42).txReq = false ∧ (started 1 0 0).txReq = false ∧
    usesByte .arpReply (frame arpRequest 42) 0x302A = false ∧ writesRam .csumCompute = false := by decide +kernel

/-- For CsumComputeReturnsTheChecksum and CsumVerifyReportsValidity (V-C16, V-C17). -/
theorem witness_checksum_ranges :
    (started 1 0 0x10000).Fresh ∧ (atTop 0xFFFFFFF0 0x10).Fresh ∧ (atTop 0xFFFFFFF0 0x20).Fresh ∧
    (started 1 0 0x10000).arg1.toNat ≥ 2 ^ 16 ∧
    ((atTop 0xFFFFFFF0 0x20).arg1.toNat < 2 ^ 16 ∧
      (atTop 0xFFFFFFF0 0x20).inBounds (atTop 0xFFFFFFF0 0x20).arg0.toNat (atTop 0xFFFFFFF0 0x20).arg1.toNat = false) ∧
    ((atTop 0xFFFFFFF0 0x10).arg1.toNat < 2 ^ 16 ∧
      (atTop 0xFFFFFFF0 0x10).inBounds (atTop 0xFFFFFFF0 0x10).arg0.toNat (atTop 0xFFFFFFF0 0x10).arg1.toNat = true) := by
  decide

theorem witness_FoldLaws :
    0 < 1 ∧ 0xFFFFFFFF < 2 ^ 32 ∧ ([0x01, 0x02] : List Byte).length % 2 = 0 ∧
    (List.replicate 65535 (0xFF : Byte)).length ≤ 65535 :=
  ⟨by decide, by decide, by decide, le_of_eq List.length_replicate⟩

theorem witness_EmbeddedChecksumIsValid :
    ([] : List Byte).length % 2 = 0 ∧ ([0x11, 0x22, 0x33] : List Byte).length % 2 = 1 := by decide

theorem witness_SingleBitFlipIsDetected :
    0 < 8 ∧ 7 < 8 ∧ valid (([] : List Byte) ++ [0xFF] ++ [0xFF]) = true ∧ valid ([0xFF] ++ [0xFF] ++ []) = true := by decide

theorem witness_SwappedFieldsKeepTheWordSum :
    ([] : List Byte).length % 2 = 0 ∧ ([0x01, 0x02] : List Byte).length % 2 = 0 ∧
    ([0x01, 0x02] : List Byte).length = ([0x03, 0x04] : List Byte).length := by decide

/-- Both ends of the range can hold the field. -/
theorem witness_ComputeEmbedVerifyOnTheMachine :
    (holding [0x00, 0x00, 0x45, 0x67] 4).Fresh ∧
    (holding [0x00, 0x00, 0x45, 0x67] 4).mem.wf ∧ (holding [0x00, 0x00, 0x45, 0x67] 4).arg1.toNat < 2 ^ 16 ∧
    (holding [0x00, 0x00, 0x45, 0x67] 4).inBounds (holding [0x00, 0x00, 0x45, 0x67] 4).arg0.toNat
      (holding [0x00, 0x00, 0x45, 0x67] 4).arg1.toNat = true ∧
    0 % 2 = 0 ∧ 0 + 2 ≤ (holding [0x00, 0x00, 0x45, 0x67] 4).arg1.toNat ∧
    (holding [0x00, 0x00, 0x45, 0x67] 4).mem.bytes ((holding [0x00, 0x00, 0x45, 0x67] 4).arg0.toNat + 0) 2 = [0, 0] ∧
    2 + 2 ≤ (holding [0x45, 0x67] 4).arg1.toNat ∧ (holding [0x45, 0x67] 4).mem.bytes (0x3000 + 2) 2 = [0, 0] := by decide

/-- V-R3, V-R5, V-R7 and a state before configuration. -/
theorem witness_RegisterPortErrors :
    (started 0x10 8 0).Fresh ∧ (started 0x10 8 0).rpSet = false ∧
    (let s := port (started 0x10 0x37 0) .memoryMapped 0xFEBC0000
     s.Fresh ∧ s.rpSet = true ∧ s.rpMode = .memoryMapped ∧ (s.rpBase.toNat + s.arg0.toNat) % 4 ≠ 0) ∧
    (let s := port (started 0x10 0x10 0) .memoryMapped 0xFFFFFFF0
     s.Fresh ∧ s.rpSet = true ∧ s.rpMode = .memoryMapped ∧ 2 ^ 32 < s.rpBase.toNat + s.arg0.toNat + 4) ∧
    (let s := port (started 0x10 0 0) .portMapped 0xFFF9
     s.Fresh ∧ s.rpSet = true ∧ s.rpMode = .portMapped ∧ 0xFFF8 < s.rpBase.toNat) := by decide

/-- For RegReadReturnsTheDeviceAnswer, RegWriteWritesTheDevice and RegFlagSetsOrClearsTheMask: the last cell and
the highest port base (V-R4, V-R6). -/
theorem witness_register_port_runs :
    (let s := port { started 0x10 0x0C 0 with mmioAnswers := [7] } .memoryMapped 0xFFFFFFF0
     s.Fresh ∧ s.rpSet = true ∧ s.rpMode = .memoryMapped ∧ (s.rpBase.toNat + s.arg0.toNat) % 4 = 0 ∧
     s.rpBase.toNat + s.arg0.toNat + 4 ≤ 2 ^ 32 ∧ s.mmioAnswers = 7 :: []) ∧
    (let s := port { started 0x10 0x0C 0 with portAnswers := [7] } .portMapped 0xFFF8
     s.Fresh ∧ s.rpSet = true ∧ s.rpMode = .portMapped ∧ s.rpBase.toNat ≤ 0xFFF8 ∧ s.portAnswers = 7 :: []) := by decide

/-- For FieldGetReadsTheField, FieldSetWritesTheField and FieldSetThenFieldGetReadsItBack: a byte field's last
chunk, both nibbles, and a chunk that passes the end of the address space (V-F18). -/
theorem witness_fields :
    (atTop 0xFFFFFFF4 0).Fresh ∧ (atTop 0xFFFFFFD8 0).Fresh ∧ (atTop 0xFFFFFFFF 0).Fresh ∧
    (atTop 0xFFFFFFF4 0).mem.wf ∧
    layout 6 5 = some ⟨24, 16, .bytes⟩ ∧ validSelector 6 5 3 = true ∧
    (atTop 0xFFFFFFD8 0).inBounds ((atTop 0xFFFFFFD8 0).arg0.toNat + 24 + 4 * 3) (min 4 (16 - 4 * 3)) = true ∧
    layout 2 10 = some ⟨12, 4, .bytes⟩ ∧ validSelector 2 10 0 = true ∧
    (atTop 0xFFFFFFF4 0).inBounds ((atTop 0xFFFFFFF4 0).arg0.toNat + 12 + 4 * 0) (min 4 (4 - 4 * 0)) = false ∧
    layout 2 1 = some ⟨0, 1, .highNibble⟩ ∧ validSelector 2 1 0 = true ∧
    layout 2 2 = some ⟨0, 1, .lowNibble⟩ ∧ validSelector 2 2 0 = true ∧
    (atTop 0xFFFFFFFF 0).inBounds ((atTop 0xFFFFFFFF 0).arg0.toNat + 0 + 4 * 0) (min 4 (1 - 4 * 0)) = true := by decide

theorem witness_FieldSetThenFieldGetReadsItBack :
    (holding [0x45] 6).Fresh ∧ (holding [0x45] 6).mem.wf ∧
    ∃ t, exec (.fieldSet 2 2 0) (holding [0x45] 6) = .next t ∧ t.err = none := ⟨⟨rfl, rfl⟩, by decide, _, rfl, rfl⟩

/-! Frames. Every witness below is a `frame` or `holding` state, whose command has made no access. -/

theorem witness_frames_are_fresh (bs : List Byte) (n : Word) : (frame bs n).Fresh ∧ (holding bs n).Fresh :=
  ⟨⟨rfl, rfl⟩, rfl, rfl⟩

theorem witness_ClassifyOfAnArpFrame :
    (frame arpRequest 42).FrameOK ∧ (frame arpRequest 42).hostIpSet = true ∧
    (frame arpRequest 42).Ethertype 0x0806 ∧ 42 ≤ (frame arpRequest 42).len :=
  ⟨⟨by decide, by decide⟩, rfl, ⟨by decide, by decide⟩, by decide⟩

/-- TCP and UDP at their shortest, and another protocol with nothing behind its header. -/
theorem witness_ClassifyOfAnIpv4Frame :
    (let s := frame (ipv4Frame 0x45 0x24 0x06 0x08) 54
     s.FrameOK ∧ s.hostIpSet = true ∧ s.Ipv4Header 5 ∧ s.mem.read (s.addr + 23) = 0x06 ∧ 14 + 4 * 5 + 20 ≤ s.len) ∧
    (let s := frame (ipv4Frame 0x45 0x24 0x11 0x08) 42
     s.FrameOK ∧ s.hostIpSet = true ∧ s.Ipv4Header 5 ∧ s.mem.read (s.addr + 23) = 0x11 ∧ 14 + 4 * 5 + 8 ≤ s.len) ∧
    (let s := frame (ipv4Frame 0x45 0x24 0x2F 0x08) 34
     s.FrameOK ∧ s.hostIpSet = true ∧ s.Ipv4Header 5 ∧ s.mem.read (s.addr + 23) ∉ [0x01, 0x06, 0x11]) :=
  ⟨⟨⟨by decide, by decide⟩, rfl, ⟨⟨by decide, by decide⟩, by decide, by decide, by decide, by decide⟩, by decide, by decide⟩,
   ⟨⟨by decide, by decide⟩, rfl, ⟨⟨by decide, by decide⟩, by decide, by decide, by decide, by decide⟩, by decide, by decide⟩,
   ⟨⟨by decide, by decide⟩, rfl, ⟨⟨by decide, by decide⟩, by decide, by decide, by decide, by decide⟩, by decide⟩⟩

/-- F_ICMP at exactly its IPv4 length: an echo request to this host. -/
theorem witness_echo_request :
    (frame echoRequest 50).mem.wf ∧ (frame echoRequest 50).FrameOK ∧ (frame echoRequest 50).hostIpSet = true ∧
    (frame echoRequest 50).hostMacSet = true ∧ (frame echoRequest 50).Ipv4Header 5 ∧
    (frame echoRequest 50).mem.read ((frame echoRequest 50).addr + 23) = 0x01 ∧
    14 + 4 * 5 + 8 ≤ (frame echoRequest 50).len ∧ (frame echoRequest 50).EchoRequest 5 ∧
    (frame echoRequest 50).EchoGeometry 5 16 :=
  have h : (frame echoRequest 50).Ipv4Header 5 :=
    ⟨⟨by decide, by decide⟩, by decide, by decide, by decide, by decide⟩
  ⟨by decide, ⟨by decide, by decide⟩, rfl, rfl, h, by decide, by decide,
    ⟨h, by decide, by decide, by decide, by decide⟩,
    ⟨by decide, by decide, by decide, by decide, by decide, by decide⟩⟩

/-- For ClassifyOfAnIcmpFrame: the first clause is met by `witness_echo_request`; here is an echo reply message. -/
theorem witness_ClassifyOfAnIcmpFrame :
    let s := frame (ipv4Frame 0x45 0x24 0x01 0x00) 42
    s.FrameOK ∧ s.hostIpSet = true ∧ s.Ipv4Header 5 ∧ s.mem.read (s.addr + 23) = 0x01 ∧ 14 + 4 * 5 + 8 ≤ s.len ∧
      ¬ s.EchoRequest 5 :=
  ⟨⟨by decide, by decide⟩, rfl, ⟨⟨by decide, by decide⟩, by decide, by decide, by decide, by decide⟩, by decide,
    by decide, fun h => absurd h.2.2.2.1 (by decide)⟩

theorem witness_ClassifyOfOtherFrames :
    (let s := frame (ipv6Frame 0x11) 62
     s.FrameOK ∧ s.hostIpSet = true ∧ s.Ethertype 0x86DD ∧ 62 ≤ s.len ∧ s.mem.read (s.addr + 20) = 0x11) ∧
    (let s := frame (ipv6Frame 0x3A) 54
     s.FrameOK ∧ s.Ethertype 0x86DD ∧ 54 ≤ s.len ∧ s.mem.read (s.addr + 20) ≠ 0x11) ∧
    (let s := frame unknownFrame 14
     s.FrameOK ∧ s.Ethertype 0x1234 ∧ 0x1234 ∉ [0x0806, 0x0800, 0x86DD]) :=
  ⟨⟨⟨by decide, by decide⟩, rfl, ⟨by decide, by decide⟩, by decide, by decide⟩,
   ⟨⟨by decide, by decide⟩, ⟨by decide, by decide⟩, by decide, by decide⟩,
   ⟨⟨by decide, by decide⟩, ⟨by decide, by decide⟩, by decide⟩⟩

/-- Each size check of CLASSIFY and DISPATCH just fails (V-D1, V-D5, V-D9 to V-D11, V-D13, V-D16, V-D17, V-D23, V-D25). -/
theorem witness_ShortAndMalformedFramesAreRefused :
    ((frame unknownFrame 13).FrameOK ∧ (frame unknownFrame 13).hostIpSet = true ∧
      (frame unknownFrame 13).hostMacSet = true ∧ (frame unknownFrame 13).len < 14) ∧
    ((frame arpRequest 41).Ethertype 0x0806 ∧ (frame arpRequest 41).len < 42) ∧
    ((frame (ipv6Frame 0x3A) 53).Ethertype 0x86DD ∧ (frame (ipv6Frame 0x3A) 53).len < 54) ∧
    ((frame (ipv6Frame 0x11) 61).Ethertype 0x86DD ∧ (frame (ipv6Frame 0x11) 61).len < 62 ∧
      (frame (ipv6Frame 0x11) 61).mem.read (0x3000 + 20) = 0x11) ∧
    ((frame echoRequest 33).Ethertype 0x0800 ∧ (frame echoRequest 33).len < 34) ∧
    (let s := frame (ipv4Frame 0x44 0x24 0x01 0x08) 60
     s.Ethertype 0x0800 ∧ 34 ≤ s.len ∧ (s.mem.read (s.addr + 14)).toNat % 16 < 5) ∧
    (let s := frame (ipv4Frame 0x4F 0x24 0x01 0x08) 60
     s.Ethertype 0x0800 ∧ 34 ≤ s.len ∧ (s.mem.read (s.addr + 14)).toNat % 16 = 15 ∧ 5 ≤ 15 ∧ s.len < 14 + 4 * 15) ∧
    (let s := frame (ipv4Frame 0x45 0x24 0x11 0x08) 41
     s.Ethertype 0x0800 ∧ s.len < 14 + 4 * 5 + 8 ∧ s.mem.read (s.addr + 23) ∈ [0x01, 0x11]) ∧
    (let s := frame (ipv4Frame 0x45 0x24 0x06 0x08) 53
     s.Ethertype 0x0800 ∧ s.len < 14 + 4 * 5 + 20 ∧ s.mem.read (s.addr + 23) = 0x06) :=
  ⟨⟨⟨by decide, by decide⟩, rfl, rfl, by decide⟩, ⟨⟨by decide, by decide⟩, by decide⟩, ⟨⟨by decide, by decide⟩, by decide⟩,
   ⟨⟨by decide, by decide⟩, by decide, by decide⟩, ⟨⟨by decide, by decide⟩, by decide⟩,
   ⟨⟨by decide, by decide⟩, by decide, by decide⟩, ⟨⟨by decide, by decide⟩, by decide, by decide, by decide, by decide⟩,
   ⟨⟨by decide, by decide⟩, by decide, by decide⟩, ⟨⟨by decide, by decide⟩, by decide, by decide⟩⟩

/-- CLASSIFY alone needs no configured MAC. -/
theorem witness_ShortAndMalformed_without_a_mac :
    let s : State := { frame unknownFrame 13 with macHiSet := false }
    s.Fresh ∧ s.FrameOK ∧ s.hostIpSet = true ∧ s.hostMacSet = false ∧ (Instr.classify = .dispatch → s.hostMacSet = true) ∧
      s.len < 14 := ⟨⟨rfl, rfl⟩, ⟨by decide, by decide⟩, rfl, rfl, by decide, by decide⟩

/-- The last two clauses: an echo request whose TOTAL_LEN is too small, and one whose TOTAL_LEN passes the frame. -/
theorem witness_ShortAndMalformed_lengths :
    (let s := frame (ipv4Frame 0x45 0x1B 0x01 0x08) 60
     s.EchoRequest 5 ∧ s.mem.readBE (s.addr + 16) 2 < 4 * 5 + 8) ∧
    (let s := frame (ipv4Frame 0x45 0x2F 0x01 0x08) 60
     s.EchoRequest 5 ∧ 4 * 5 + 8 ≤ s.mem.readBE (s.addr + 16) 2 ∧ s.len < 14 + s.mem.readBE (s.addr + 16) 2) :=
  ⟨⟨⟨⟨⟨by decide, by decide⟩, by decide, by decide, by decide, by decide⟩, by decide, by decide, by decide, by decide⟩, by decide⟩,
   ⟨⟨⟨⟨by decide, by decide⟩, by decide, by decide, by decide, by decide⟩, by decide, by decide, by decide, by decide⟩, by decide,
     by decide⟩⟩

/-- For ArpReplyRewritesTheFrame and DispatchAnswersAnArpRequest. -/
theorem witness_arp_request :
    (frame arpRequest 42).mem.wf ∧ (frame arpRequest 42).FrameOK ∧ (frame arpRequest 42).hostIpSet = true ∧
    (frame arpRequest 42).hostMacSet = true ∧ 42 ≤ (frame arpRequest 42).len ∧ (frame arpRequest 41).len < 42 ∧
    (frame arpRequest 41).FrameOK ∧ (frame arpRequest 42).ArpRequest :=
  ⟨by decide, ⟨by decide, by decide⟩, rfl, rfl, by decide, by decide, ⟨by decide, by decide⟩,
    ⟨⟨by decide, by decide⟩, by decide, by decide, by decide⟩⟩

/-- For IcmpEchoReplyRewritesTheFrame, without any configuration; DispatchAnswersAnEchoRequest has `witness_echo_request`. -/
theorem witness_IcmpEchoReplyRewritesTheFrame :
    (holding echoRequest 50).mem.wf ∧ (holding echoRequest 50).FrameOK ∧ (holding echoRequest 50).EchoGeometry 5 16 :=
  ⟨by decide, ⟨by decide, by decide⟩, ⟨by decide, by decide, by decide, by decide, by decide, by decide⟩⟩

theorem witness_IcmpEchoReplyErrors :
    ((holding echoRequest 33).FrameOK ∧ (holding echoRequest 33).len < 34) ∧
    (34 ≤ (holding arpRequest 60).len ∧
      ((holding arpRequest 60).mem.read ((holding arpRequest 60).addr + 14)).toNat % 16 < 5) ∧
    (let s := holding echoRequest 41
     34 ≤ s.len ∧ (s.mem.read (s.addr + 14)).toNat % 16 = 5 ∧ s.len < 14 + 4 * 5 + 8) ∧
    (let s := holding (ipv4Frame 0x45 0x1B 0x01 0x08) 42
     (s.mem.read (s.addr + 14)).toNat % 16 = 5 ∧ 14 + 4 * 5 + 8 ≤ s.len ∧ s.mem.readBE (s.addr + 16) 2 < 4 * 5 + 8) ∧
    (let s := holding echoRequest 49
     14 + 4 * 5 + 8 ≤ s.len ∧ 4 * 5 + 8 ≤ s.mem.readBE (s.addr + 16) 2 ∧ s.len < 14 + s.mem.readBE (s.addr + 16) 2) :=
  ⟨⟨⟨by decide, by decide⟩, by decide⟩, by decide, by decide, by decide, by decide⟩

/-- For DispatchLogsAndDropsOtherFrames and ClassifyWritesOnlyLegalCodes: a frame of each class with no action. -/
theorem witness_frames_without_a_reply :
    ∀ p ∈ [(unknownFrame, (14 : Word), 0), (arpRequest.set 41 0x03, 42, 1), (ipv4Frame 0x45 0x24 0x01 0x00, 42, 2),
        (ipv4Frame 0x45 0x24 0x06 0x08, 54, 3), (ipv4Frame 0x45 0x24 0x11 0x08, 42, 4),
        (ipv4Frame 0x45 0x24 0x2F 0x08, 34, 5), (ipv6Frame 0x11, 62, 6), (ipv6Frame 0x3A, 54, 7)],
      (frame p.1 p.2.1).hostMacSet = true ∧
      nextIs (exec .classify (frame p.1 p.2.1)) (fun t => t.err = none ∧ t.classReg.toNat = p.2.2) = true := by decide +kernel

/-! The host and RAM. -/

/-- Accesses just below the window, over the last admitted byte, and of any width. -/
theorem witness_HostAccessesToRam :
    ∀ p ∈ [(0x0, 1), (0x7FFFFFFF, 1), (0x3001, 4)],
      (waiting [.store p.1 p.2 5]).mem.wf ∧ (waiting [.store p.1 p.2 5]).busy = false ∧
      (waiting [.store p.1 p.2 5]).raced = [] ∧
      (waiting [.store p.1 p.2 5]).touchesWindow p.1 p.2 = false ∧
      (waiting [.store p.1 p.2 5]).inBounds p.1 p.2 = true ∧
      (waiting [.store p.1 p.2 5]).inputs = .store p.1 p.2 5 :: [] ∧
      (waiting [.load p.1 p.2]).busy = false ∧ (waiting [.load p.1 p.2]).raced = [] ∧
      (waiting [.load p.1 p.2]).touchesWindow p.1 p.2 = false ∧ (waiting [.load p.1 p.2]).inBounds p.1 p.2 = true ∧
      (waiting [.load p.1 p.2]).inputs = .load p.1 p.2 :: [] := by decide

/-- A store across the end of the frame; a load of bytes in front of it, and of a range that a command which
writes no RAM uses. -/
theorem witness_HostAccessesWhileBusyRaceOnUsedBytes :
    (let s : State := { holding echoRequest 50 with inputs := [.store 0x3030 4 5] }
     s.cmd = some 0x33 ∧ s.touchesWindow 0x3030 4 = false ∧ s.inBounds 0x3030 4 = true ∧
     s.inputs = .store 0x3030 4 5 :: [] ∧ usesByte .dispatch s 0x3031 = true ∧ usesByte .dispatch s 0x3032 = false) ∧
    decode 0x33 = .ok .dispatch ∧
    (let s : State := { holding echoRequest 50 with inputs := [.load 0x2FFE 4] }
     s.touchesWindow 0x2FFE 4 = false ∧ s.inBounds 0x2FFE 4 = true ∧ s.inputs = .load 0x2FFE 4 :: [] ∧
     writesRam .dispatch = true ∧ usesByte .dispatch s 0x2FFF = false ∧ usesByte .dispatch s 0x3000 = true) ∧
    (let s : State := { summing with inputs := [.load 0x3000 4] }
     s.cmd = some 1 ∧ decode 1 = .ok .csumCompute ∧ s.touchesWindow 0x3000 4 = false ∧ s.inBounds 0x3000 4 = true ∧
     nextIs (step s) (fun t => t.raced = []) = true) := by
  exact ⟨by decide, rfl, by decide, rfl, rfl, by decide, by decide, by decide⟩

/-- For EveryStepKeepsTheInvariant and EveryStepOnlyAppendsToTheLog. -/
theorem witness_a_sound_state_steps : State.reset.Inv ∧ ∃ t, step State.reset = .next t :=
  ⟨by constructor <;> decide, _, rfl⟩

end Sys2Proof.Tests
end

section
/-! PROOFS, family 00_scope: what no command and no step touches. -/

namespace Sys2Proof.Machine

/-! No command touches the operands, the configuration or the surroundings. -/

/-- What a command can change, from every state: its own progress, STATUS.ERR, STATUS.TX_REQ and STICKY_ERR, the
result registers, RAM, and what the block's accesses use up. Every other field stays (spec/10_state.md R48,
spec/60_exceptions.md R208). -/
theorem exec_frame {i : Instr} {s t : State} (h : exec i s = .next t) :
    t = { s with
      cmd := t.cmd, progress := t.progress, err := t.err, stickyErr := t.stickyErr, txReq := t.txReq
      result := t.result, classReg := t.classReg, hdroff := t.hdroff, txAddr := t.txAddr, txLen := t.txLen
      trace := t.trace, mem := t.mem, raced := t.raced, mmioAnswers := t.mmioAnswers
      portAnswers := t.portAnswers, draws := t.draws } := by
  obtain ⟨u, r, hran, -, hexec⟩ := exec_cases i s
  rw [hexec] at h
  cases h
  have hu := hran.rest
  have ht := u.conclude_rest r
  generalize u.conclude r = t at ht ⊢
  rw [ht, hu]

/-- Settles O25: a command changes only the fields that `exec_frame` lists. -/
theorem commandsLeaveOperandsAndConfiguration : Obligations.CommandsLeaveOperandsAndConfiguration := by
  intro i s t h
  rw [exec_frame h]
  exact ⟨rfl, rfl, rfl, rfl, rfl, rfl, rfl, rfl, rfl, rfl, rfl, rfl, rfl, rfl, rfl, rfl, rfl, rfl⟩

/-! Every step keeps the platform's parameters and what has happened. -/

/-- From `s` to `t` the platform's parameters stay, and the events that have happened, before the last reset and
since, are followed by further ones (spec/00_scope.md R8, spec/70_reset_and_hazards.md R230). -/
structure State.Extends (s t : State) : Prop where
  ram : t.ram = s.ram
  blkBase : t.blkBase = s.blkBase
  events : ∃ evs, t.earlier ++ t.trace = s.earlier ++ s.trace ++ evs

theorem State.Extends.of_eq {s t : State} (hr : t.ram = s.ram) (hb : t.blkBase = s.blkBase)
    (he : t.earlier = s.earlier) (ht : t.trace = s.trace) : s.Extends t :=
  ⟨hr, hb, [], by rw [he, ht, List.append_nil]⟩

theorem State.Extends.trans {s t u : State} (h1 : s.Extends t) (h2 : t.Extends u) : s.Extends u := by
  obtain ⟨evs1, e1⟩ := h1.events
  obtain ⟨evs2, e2⟩ := h2.events
  exact ⟨h2.ram.trans h1.ram, h2.blkBase.trans h1.blkBase, evs1 ++ evs2, by rw [e2, e1, List.append_assoc]⟩

/-- The inputs still to come play no part in it. -/
theorem State.Extends.of_inputs {s t : State} {ins : List Input} (h : State.Extends { s with inputs := ins } t) :
    s.Extends t :=
  ⟨h.ram, h.blkBase, h.events⟩

/-- What the sink is given are the log events among the events that have happened (spec/60_exceptions.md R217). -/
theorem State.Extends.sinkEvents {s t : State} (h : s.Extends t) : ∃ new, t.sinkEvents = s.sinkEvents ++ new := by
  obtain ⟨evs, e⟩ := h.events
  exact ⟨evs.filterMap Event.log?, by rw [State.sinkEvents, e, List.filterMap_append, State.sinkEvents]⟩

/-! The block's moves. -/

theorem State.Ran.toExtends {P : Access → Prop} {s t : State} (h : s.Ran P t) : s.Extends t := by
  obtain ⟨evs, ht, -⟩ := h.events
  have he : t.earlier = s.earlier := by rw [h.rest]
  exact ⟨h.ram, by rw [h.rest], evs, by rw [he, ht, List.append_assoc]⟩

theorem State.conclude_extends (s : State) (r : Except Err Result) : s.Extends (s.conclude r) := by
  rw [s.conclude_rest r]
  exact .of_eq rfl rfl rfl rfl

theorem State.tick_extends (s : State) : s.Extends s.tick := .of_eq rfl rfl rfl rfl

theorem State.blockStep_extends {s t : State} (h : s.blockStep = .next t) : s.Extends t := by
  rcases State.blockStep_cases h with ⟨-, rfl⟩ | ⟨-, rfl⟩ | ⟨w, i, u, r, -, -, hran, -, rfl⟩
  · exact s.tick_extends
  · exact .of_eq rfl rfl rfl rfl
  · exact hran.toExtends.trans (u.conclude_extends r)

theorem State.blockEvent_extends {s t : State} (h : s.blockEvent = .next t) : s.Extends t := by
  rcases State.blockEvent_cases h with
    ⟨-, rfl⟩ | ⟨-, rfl⟩ | ⟨w, i, r, -, -, -, rfl⟩ | ⟨w, i, x, bs, u, -, -, hx, rfl, -, rfl⟩
  · exact s.tick_extends
  · exact .of_eq rfl rfl rfl rfl
  · exact s.conclude_extends r
  · have h1 : s.Extends { s with raced := bs } := .of_eq rfl rfl rfl rfl
    exact (h1.trans (State.perform_ran _ hx).toExtends).trans (.of_eq rfl rfl rfl rfl)

/-! The host's moves. -/

theorem State.windowWrite_extends (s : State) (r : WinReg) (v : Word) : s.Extends (s.windowWrite r v) := by
  rcases s.windowWrite_cases r v with ⟨-, -, h⟩ | ⟨-, -, h⟩ | ⟨-, h⟩ <;> rw [h]
  · exact .of_eq rfl rfl rfl rfl
  · exact .of_eq rfl rfl rfl rfl
  · cases r <;> exact .of_eq rfl rfl rfl rfl

theorem State.hostStore_extends {s t : State} {a w v : Nat} (h : s.hostStore a w v = .next t) : s.Extends t := by
  rcases State.hostStore_next h with ⟨r, rfl⟩ | ⟨-, rfl⟩ | ⟨ins, rfl⟩ | ⟨-, hblock⟩
  · exact (s.windowWrite_extends r _).trans (State.tick_extends _)
  · exact .of_eq rfl rfl rfl rfl
  · exact .of_eq rfl rfl rfl rfl
  · exact (State.blockStep_extends hblock).of_inputs

theorem State.hostLoad_extends {s t : State} {a w : Nat} (h : s.hostLoad a w = .next t) : s.Extends t := by
  rcases State.hostLoad_next h with ⟨vs, rfl⟩ | ⟨-, rfl⟩ | ⟨ins, rfl⟩ | ⟨-, hblock⟩
  · exact .of_eq rfl rfl rfl rfl
  · exact .of_eq rfl rfl rfl rfl
  · exact .of_eq rfl rfl rfl rfl
  · exact (State.blockStep_extends hblock).of_inputs

/-! Reset. -/

theorem Prog.all_true (p : Prog) : p.All fun _ => True := by
  induction p with
  | done r => exact trivial
  | raise e => exact trivial
  | act x k ih => exact ⟨trivial, ih⟩

theorem State.interrupted_extends (s : State) : s.Extends s.interrupted :=
  (Prog.runFor_ran _ s s.rest.all_true).toExtends.trans (.of_eq rfl rfl rfl rfl)

/-- A reset empties the log stream but moves its events to those before the reset. -/
theorem State.afterReset_extends (s : State) : s.Extends s.afterReset :=
  ⟨rfl, rfl, [], rfl⟩

theorem State.platformReset_extends (s : State) : s.Extends s.platformReset := by
  unfold State.platformReset
  split
  · exact s.interrupted_extends.trans s.interrupted.afterReset_extends
  · exact s.afterReset_extends

/-! Every step. -/

theorem State.inputStep_extends {s t : State} {i : Input} (h : s.inputStep i = .next t) : s.Extends t := by
  cases i with
  | store a w v => exact State.hostStore_extends h
  | load a w => exact State.hostLoad_extends h
  | poll =>
    simp only [State.inputStep] at h
    split at h
    · exact (State.blockStep_extends h).of_inputs
    · cases h
      exact .of_eq rfl rfl rfl rfl
  | blockTurn => exact State.blockStep_extends h
  | blockEvent => exact State.blockEvent_extends h
  | deviceTurn =>
    cases h
    exact s.tick_extends
  | reset =>
    cases h
    exact s.platformReset_extends

theorem step_extends {s t : State} (h : step s = .next t) : s.Extends t := by
  cases hi : s.inputs with
  | nil =>
    rw [step_of_nil hi] at h
    exact State.blockStep_extends h
  | cons i rest =>
    rw [step_of_cons hi] at h
    exact (State.inputStep_extends h).of_inputs

/-- Settles O60: every step extends the events that have happened. -/
theorem everyStepOnlyAppendsToTheLog : Obligations.EveryStepOnlyAppendsToTheLog := by
  intro s t h
  have hext := step_extends h
  exact ⟨hext.ram, hext.blkBase, hext.sinkEvents⟩

end Sys2Proof.Machine
end

section
/-! PROOFS, family 10_state: what a step can do, said once, and what every step keeps. -/

namespace Sys2Proof.Machine

/-! What a step can do. -/

/-- What one step can do to a machine from whose list the step's input has been taken, a reset apart: the block
makes its turn or one event, the host writes to the window or to RAM or loads from RAM, or only the model's own
fields of inputs, host reads and draws change (spec/20_memory.md R49). -/
inductive State.Moves (s : State) : State → Prop where
  | quiet (ins : List Input) (reads : List Nat) (n : Nat) : s.Moves { s with inputs := ins, hostReads := reads, draws := n }
  | turn {t : State} (h : s.blockStep = .next t) : s.Moves t
  | event {t : State} (h : s.blockEvent = .next t) : s.Moves t
  | window (r : WinReg) (v : Word) : s.Moves (s.windowWrite r v).tick
  | write {a w : Nat} (v : Nat) (h : s.inBounds a w = true) : s.Moves (s.hostWrite a w v).tick
  | read {a w : Nat} (h : s.inBounds a w = true) : s.Moves (s.hostRead a w).tick

theorem State.hostStore_moves {s t : State} {a w v : Nat} (h : s.hostStore a w v = .next t) :
    ∃ ins, State.Moves { s with inputs := ins } t := by
  rcases State.hostStore_next h with ⟨r, rfl⟩ | ⟨hb, rfl⟩ | ⟨ins, rfl⟩ | ⟨-, hblock⟩
  · exact ⟨s.inputs, .window r _⟩
  · exact ⟨s.inputs, .write v hb⟩
  · exact ⟨ins, .quiet ins s.hostReads s.draws⟩
  · exact ⟨_, .turn hblock⟩

theorem State.hostLoad_moves {s t : State} {a w : Nat} (h : s.hostLoad a w = .next t) :
    ∃ ins, State.Moves { s with inputs := ins } t := by
  rcases State.hostLoad_next h with ⟨vs, rfl⟩ | ⟨hb, rfl⟩ | ⟨ins, rfl⟩ | ⟨-, hblock⟩
  · exact ⟨s.inputs, .quiet s.inputs vs (s.draws + 1)⟩
  · exact ⟨s.inputs, .read hb⟩
  · exact ⟨ins, .quiet ins s.hostReads s.draws⟩
  · exact ⟨_, .turn hblock⟩

theorem State.inputStep_moves {s t : State} {i : Input} (h : s.inputStep i = .next t) :
    (∃ ins, State.Moves { s with inputs := ins } t) ∨ (i = .reset ∧ t = s.platformReset) := by
  cases i with
  | store a w v => exact .inl (State.hostStore_moves h)
  | load a w => exact .inl (State.hostLoad_moves h)
  | poll =>
    simp only [State.inputStep] at h
    split at h
    · exact .inl ⟨_, .turn h⟩
    · cases h
      exact .inl ⟨s.inputs, .quiet s.inputs (s.hostReads ++ [s.status.toNat]) (s.draws + 1)⟩
  | blockTurn => exact .inl ⟨s.inputs, .turn h⟩
  | blockEvent => exact .inl ⟨s.inputs, .event h⟩
  | deviceTurn =>
    cases h
    exact .inl ⟨s.inputs, .quiet s.inputs s.hostReads (s.draws + 1)⟩
  | reset =>
    cases h
    exact .inr ⟨rfl, rfl⟩

/-- A step makes one of the moves of `State.Moves`, whatever its inputs, or is a reset. -/
theorem step_moves {s t : State} (h : step s = .next t) :
    (∃ ins, State.Moves { s with inputs := ins } t) ∨
      ∃ rest, s.inputs = .reset :: rest ∧ t = State.platformReset { s with inputs := rest } := by
  cases hi : s.inputs with
  | nil =>
    rw [step_of_nil hi] at h
    exact .inl ⟨s.inputs, .turn h⟩
  | cons i rest =>
    rw [step_of_cons hi] at h
    rcases State.inputStep_moves h with hm | ⟨rfl, rfl⟩
    · exact .inl hm
    · exact .inr ⟨rest, rfl, rfl⟩

/-! RAM in canonical form that lists only admitted addresses (spec/20_memory.md R51, R55). -/

/-- The part of the invariant that speaks of RAM. -/
def State.RamSound (s : State) : Prop := s.mem.wf ∧ ∀ c ∈ s.mem, s.memOK c.1 = true

theorem State.RamSound.wf {s : State} (h : s.RamSound) : s.mem.wf := h.1
theorem State.RamSound.admitted {s : State} (h : s.RamSound) : ∀ c ∈ s.mem, s.memOK c.1 = true := h.2

theorem State.Inv.ramSound {s : State} (h : s.Inv) : s.RamSound := ⟨h.memWf, h.memAdmitted⟩

/-- Accesses that write only admitted bytes keep it. -/
theorem State.RamSound.ran {P : Access → Prop} {s t : State} (h : s.RamSound) (hran : s.Ran P t)
    (hP : ∀ a b, P (.write a b) → s.memOK a = true) : t.RamSound := by
  refine ⟨hran.wf h.wf, fun c hc => ?_⟩
  rw [State.memOK_congr hran.ram]
  exact (hran.cells c hc).elim (hP _ _) (h.admitted c)

/-- So do unspecified values at admitted bytes. -/
theorem State.RamSound.freeBytes {s t : State} {d : Nat} {as : List Nat} (h : s.RamSound) (hram : t.ram = s.ram)
    (hmem : t.mem = freeBytes d s.mem as) (ha : ∀ a ∈ as, s.memOK a = true) : t.RamSound := by
  refine ⟨hmem ▸ freeBytes_wf as h.wf, fun c hc => ?_⟩
  rw [State.memOK_congr hram]
  rw [hmem] at hc
  exact (mem_freeBytes hc).elim (ha _) (h.admitted c)

theorem State.RamSound.hostWrite {s : State} {a w : Nat} (v : Nat) (h : s.RamSound) (hb : s.inBounds a w = true) :
    (s.hostWrite a w v).RamSound := by
  refine ⟨Memory.wf_writeBytes _ h.wf a, fun c hc => ?_⟩
  rw [State.memOK_congr (s.hostWrite_ram a w v)]
  rw [State.hostWrite_mem] at hc
  rcases Memory.mem_writeBytes hc with ⟨h1, h2⟩ | hc
  · exact State.inBounds_memOK' hb h1 (by simpa using h2)
  · exact h.admitted c hc

/-! The invariant of the state, move by move. -/

/-- The invariant of an idle block: what it says of a command in progress holds of none. -/
theorem State.Inv.of_idle {s : State} (hm : s.RamSound) (hclass : s.classReg.toNat < 64)
    (hsticky : s.err ≠ none → s.stickyErr = true) (hc : s.cmd = none) (hp : s.progress = []) (hr : s.raced = []) :
    s.Inv where
  memWf := hm.wf
  memAdmitted := hm.admitted
  classBits := hclass
  busyErr := by simp [State.busy, hc]
  busyTx := by simp [State.busy, hc]
  errSticky := hsticky
  progressBusy h := absurd hp h
  racedBusy h := absurd hr h
  racedAdmitted := by simp [hr]
  writtenAdmitted := by simp [State.pastEvents, hp, writtenBytes]

/-- A change of RAM that keeps it sound, of raced bytes to other admitted ones, and of fields of which the invariant
does not speak, keeps the invariant. -/
theorem State.Inv.congr {s t : State} (h : s.Inv) (hm : t.RamSound)
    (hr : ∀ a ∈ t.raced, s.memOK a = true ∧ s.busy = true)
    (ht : t = { t with
      ram := s.ram, classReg := s.classReg, cmd := s.cmd, err := s.err, progress := s.progress, txReq := s.txReq
      stickyErr := s.stickyErr, trace := s.trace }) : t.Inv := by
  have hram : t.ram = s.ram := by rw [ht]
  have hbusy : t.busy = s.busy := by rw [ht]; rfl
  have hpast : t.pastEvents = s.pastEvents := by rw [ht]; rfl
  have herr : t.err = s.err := by rw [ht]
  have hprogress : t.progress = s.progress := by rw [ht]
  have htx : t.txReq = s.txReq := by rw [ht]
  have hsticky : t.stickyErr = s.stickyErr := by rw [ht]
  have hclass : t.classReg = s.classReg := by rw [ht]
  exact {
    memWf := hm.wf
    memAdmitted := hm.admitted
    classBits := hclass ▸ h.classBits
    busyErr := by rw [hbusy, herr]; exact h.busyErr
    busyTx := by rw [hbusy, hprogress, htx]; exact h.busyTx
    errSticky := by rw [herr, hsticky]; exact h.errSticky
    progressBusy := by rw [hbusy, hprogress]; exact h.progressBusy
    racedBusy := fun hne => by
      obtain ⟨a, ha⟩ := List.exists_mem_of_ne_nil _ hne
      exact hbusy.trans (hr a ha).2
    racedAdmitted := fun a ha => (State.memOK_congr hram a).trans (hr a ha).1
    writtenAdmitted := fun a ha => (State.memOK_congr hram a).trans (h.writtenAdmitted a (hpast ▸ ha)) }

theorem State.Inv.raced_admitted_busy {s : State} (h : s.Inv) : ∀ a ∈ s.raced, s.memOK a = true ∧ s.busy = true :=
  fun a ha => ⟨h.racedAdmitted a ha, h.racedBusy (List.ne_nil_of_mem ha)⟩

/-- The end of a command after accesses that write only admitted bytes. -/
theorem State.Inv.conclude {P : Access → Prop} {s u : State} (h : s.Inv) (hran : s.Ran P u)
    (hP : ∀ a b, P (.write a b) → s.memOK a = true) (r : Except Err Result) : (u.conclude r).Inv := by
  have hrest := u.conclude_rest r
  obtain ⟨herr, hsticky⟩ := u.conclude_err r
  have hclass : u.classReg = s.classReg := by rw [hran.rest]
  have hraced : ∀ a ∈ u.raced, u.memOK a = true := fun a ha =>
    (State.memOK_congr hran.ram a).trans (h.racedAdmitted a (hran.raced ▸ ha))
  refine .of_idle ((h.ramSound.ran hran hP).freeBytes (d := u.draws) (by rw [hrest]) (by rw [hrest]) hraced) ?_ ?_
    (by rw [hrest]) (by rw [hrest]) (by rw [hrest])
  · rcases u.conclude_classBits r with hc | hc
    · rw [hc, hclass]
      exact h.classBits
    · exact hc
  · rw [herr, hsticky]
    cases r with
    | error e => exact fun _ => rfl
    | ok r => exact fun hne => absurd rfl hne

theorem State.Inv.raise {s : State} (h : s.Inv) (e : Err) : (s.raise e).Inv :=
  .of_idle h.ramSound h.classBits (fun _ => rfl) rfl rfl rfl

theorem MayAccess.write_admitted {i : Instr} {s : State} (a : Nat) (b : Byte) (h : MayAccess i s (.write a b)) :
    s.memOK a = true := h.2.2

theorem State.Inv.quiet {s : State} (h : s.Inv) (ins : List Input) (reads : List Nat) (n : Nat) :
    State.Inv { s with inputs := ins, hostReads := reads, draws := n } :=
  h.congr h.ramSound h.raced_admitted_busy rfl

theorem State.Inv.tick {s : State} (h : s.Inv) : s.tick.Inv := h.quiet _ _ _

theorem State.Inv.blockStep {s t : State} (h : s.Inv) (ht : s.blockStep = .next t) : t.Inv := by
  rcases State.blockStep_cases ht with ⟨-, rfl⟩ | ⟨-, rfl⟩ | ⟨w, i, u, r, -, -, hran, -, rfl⟩
  · exact h.tick
  · exact h.raise _
  · exact h.conclude hran MayAccess.write_admitted r

/-- `s` after the access `x`, which comes next in its command. -/
def State.afterAccess (s : State) (x : Access) : State :=
  { s.perform x with progress := s.progress ++ [s.answer x] }

theorem State.afterAccess_pastEvents (s : State) (x : Access) :
    (s.afterAccess x).pastEvents = s.pastEvents ++ [x.event (s.answer x)] :=
  s.pastEvents_perform x

/-- One access more of a command in progress. -/
theorem State.Inv.afterAccess {s : State} (h : s.Inv) {x : Access} (hb : s.busy = true)
    (hx : ∀ a b, x = .write a b → s.memOK a = true) : (s.afterAccess x).Inv := by
  have hran := s.perform_ran (P := (· = x)) rfl
  have hm := h.ramSound.ran hran fun a b hw => hx a b hw.symm
  have hbusy : (s.perform x).busy = true := by rw [State.busy, hran.cmd]; exact hb
  have hok : ∀ a, (s.perform x).memOK a = s.memOK a := State.memOK_congr hran.ram
  exact {
    memWf := hm.wf
    memAdmitted := hm.admitted
    classBits := (s.perform_classReg x).symm ▸ h.classBits
    busyErr := fun _ => (s.perform_err x).trans (h.busyErr hb)
    busyTx := fun _ hp => absurd hp (List.append_ne_nil_of_right_ne_nil _ (List.cons_ne_nil _ _))
    errSticky := fun he => (s.perform_stickyErr x).trans (h.errSticky (s.perform_err x ▸ he))
    progressBusy := fun _ => hbusy
    racedBusy := fun _ => hbusy
    racedAdmitted := fun a ha => (hok a).trans (h.racedAdmitted a (s.perform_raced x ▸ ha))
    writtenAdmitted := fun a ha => by
      rw [State.afterAccess_pastEvents] at ha
      obtain ⟨b, hmem⟩ := mem_writtenBytes.1 ha
      refine (hok a).trans ?_
      rcases List.mem_append.1 hmem with hpast | hlast
      · exact h.writtenAdmitted a (mem_writtenBytes.2 ⟨b, hpast⟩)
      · cases x <;> cases List.mem_singleton.1 hlast
        exact hx _ _ rfl }

theorem State.Inv.blockEvent {s t : State} (h : s.Inv) (ht : s.blockEvent = .next t) : t.Inv := by
  rcases State.blockEvent_cases ht with
    ⟨-, rfl⟩ | ⟨-, rfl⟩ | ⟨w, i, r, -, -, -, rfl⟩ | ⟨w, i, x, bs, u, hc, -, hx, rfl, hbs, rfl⟩
  · exact h.tick
  · exact h.raise _
  · exact h.conclude (.refl (fun _ => False) s) (fun _ _ hf => hf.elim) r
  · have hb : s.busy = true := by simp [State.busy, hc]
    have hu : State.Inv { s with raced := bs } :=
      h.congr h.ramSound (fun a ha => ⟨((hbs a).2 ha).elim (h.racedAdmitted a) id, hb⟩) rfl
    exact hu.afterAccess hb fun a b hw => MayAccess.write_admitted a b (hw ▸ hx)

theorem State.Inv.accept {s : State} (h : s.Inv) (w : Word) : (s.accept w).Inv where
  memWf := h.memWf
  memAdmitted := h.memAdmitted
  classBits := h.classBits
  busyErr _ := rfl
  busyTx _ _ := rfl
  errSticky he := absurd rfl he
  progressBusy hp := absurd rfl hp
  racedBusy hr := absurd rfl hr
  racedAdmitted a ha := absurd ha List.not_mem_nil
  writtenAdmitted a ha := by simp [State.pastEvents, writtenBytes] at ha

theorem State.Inv.windowWrite {s : State} (h : s.Inv) (r : WinReg) (v : Word) : (s.windowWrite r v).Inv := by
  rcases s.windowWrite_cases r v with ⟨-, -, hw⟩ | ⟨-, -, hw⟩ | ⟨-, hw⟩ <;> rw [hw]
  · exact h.congr h.ramSound h.raced_admitted_busy rfl
  · exact h
  · cases r with
    | cmd => exact h.accept v
    | _ => exact h.congr h.ramSound h.raced_admitted_busy rfl

theorem State.Inv.hostWrite {s : State} {a w : Nat} (v : Nat) (h : s.Inv) (hb : s.inBounds a w = true) :
    (s.hostWrite a w v).Inv := by
  refine h.congr (h.ramSound.hostWrite v hb) (fun b hr => ?_) rfl
  rcases State.mem_hostWrite_raced.1 hr with hr | ⟨⟨h1, h2⟩, hf⟩
  · exact h.raced_admitted_busy b hr
  · exact ⟨State.inBounds_memOK' hb h1 h2, State.inFlight_busy hf⟩

theorem State.Inv.hostRead {s : State} {a w : Nat} (h : s.Inv) (hb : s.inBounds a w = true) :
    (s.hostRead a w).Inv := by
  refine h.congr h.ramSound (fun b hr => ?_) rfl
  rcases State.mem_hostRead_raced.1 hr with hr | ⟨⟨h1, h2⟩, hf⟩
  · exact h.raced_admitted_busy b hr
  · exact ⟨State.inBounds_memOK' hb h1 h2, State.inFlightWritten_busy hf⟩

/-! Reset (spec/70_reset_and_hazards.md R230, R231). -/

/-- What is left of a command writes only admitted bytes. -/
theorem State.rest_writes_admitted (s : State) : s.rest.All fun x => ∀ a b, x = .write a b → s.memOK a = true := by
  unfold State.rest
  cases s.current with
  | none => exact trivial
  | some i =>
    exact ((program_all i s).resume s.progress).mono fun x hx a b hw => MayAccess.write_admitted a b (hw ▸ hx)

/-- A command in progress has written, and would write, only admitted bytes. -/
theorem State.Inv.writeRange_admitted {s : State} (h : s.Inv) : ∀ a ∈ s.writeRange, s.memOK a = true := by
  intro a ha
  obtain ⟨b, hb⟩ := mem_writtenBytes.1 ha
  rcases List.mem_append.1 hb with hpast | hpending
  · exact h.writtenAdmitted a (mem_writtenBytes.2 ⟨b, hpast⟩)
  · obtain ⟨evs, htrace, hevs⟩ := (Prog.runAll_ran s s.rest_writes_admitted).events
    rw [State.pendingEvents, htrace, List.drop_left] at hpending
    obtain ⟨x, v, hx, he⟩ := hevs _ hpending
    cases x <;> cases he
    exact hx _ _ rfl

theorem State.Inv.interrupted_ramSound {s : State} (h : s.Inv) : s.interrupted.RamSound := by
  have hran := Prog.runFor_ran (Config.stopPoint s.draws % (s.pendingEvents.length + 1)) s s.rest_writes_admitted
  refine (h.ramSound.ran hran fun a b hw => hw a b rfl).freeBytes rfl rfl fun a ha => ?_
  rw [State.memOK_congr hran.ram]
  exact (List.mem_append.1 ha).elim (h.writeRange_admitted a) (h.racedAdmitted a)

theorem State.RamSound.afterReset {s : State} (h : s.RamSound) : s.afterReset.Inv :=
  .of_idle h (by decide : (0 : Word).toNat < 64) (fun he => absurd rfl he) rfl rfl rfl

theorem State.Inv.platformReset {s : State} (h : s.Inv) : s.platformReset.Inv := by
  unfold State.platformReset
  split
  · exact h.interrupted_ramSound.afterReset
  · exact h.ramSound.afterReset

theorem State.Moves.inv {s t : State} (hm : s.Moves t) (h : s.Inv) : t.Inv := by
  cases hm with
  | quiet ins reads n => exact h.quiet ins reads n
  | turn ht => exact h.blockStep ht
  | event ht => exact h.blockEvent ht
  | window r v => exact (h.windowWrite r v).tick
  | write v hb => exact (h.hostWrite v hb).tick
  | read hb => exact (h.hostRead hb).tick

/-- Settles O59: every move and every reset keeps the invariant. -/
theorem everyStepKeepsTheInvariant : Obligations.EveryStepKeepsTheInvariant := by
  intro s t h hstep
  rcases step_moves hstep with ⟨ins, hm⟩ | ⟨rest, -, rfl⟩
  · exact hm.inv (h.quiet ins _ _)
  · exact (h.quiet rest s.hostReads s.draws).platformReset

/-- Settles O58: the block is idle after reset and no RAM byte is listed. -/
theorem resetMeetsTheInvariant : Obligations.ResetMeetsTheInvariant :=
  .of_idle ⟨Memory.wf_nil, fun _ hc => absurd hc List.not_mem_nil⟩ (by decide : (0 : Word).toNat < 64)
    (fun he => absurd rfl he) rfl rfl rfl

/-! The sticky bits (spec/10_state.md R28). -/

/-- OVERRUN and STICKY_ERR are set in `t` if they are in `s`. -/
structure State.StickyKept (s t : State) : Prop where
  overrun : s.overrun = true → t.overrun = true
  stickyErr : s.stickyErr = true → t.stickyErr = true

theorem State.StickyKept.of_eq {s t : State} (ho : t.overrun = s.overrun) (hs : t.stickyErr = s.stickyErr) :
    s.StickyKept t :=
  ⟨fun h => ho.trans h, fun h => hs.trans h⟩

/-- The end of a command may set STICKY_ERR and touches OVERRUN not at all. -/
theorem State.Ran.conclude_stickyKept {P : Access → Prop} {s u : State} (hran : s.Ran P u) (r : Except Err Result) :
    s.StickyKept (u.conclude r) where
  overrun h := by rw [u.conclude_rest r, hran.rest]; exact h
  stickyErr h := by
    rw [(u.conclude_err r).2]
    cases r with
    | error e => rfl
    | ok r => rw [hran.rest]; exact h

theorem State.windowWrite_stickyKept (s : State) (r : WinReg) (v : Word) : s.StickyKept (s.windowWrite r v) := by
  rcases s.windowWrite_cases r v with ⟨-, -, hw⟩ | ⟨-, -, hw⟩ | ⟨-, hw⟩ <;> rw [hw]
  · exact ⟨fun _ => rfl, id⟩
  · exact .of_eq rfl rfl
  · cases r <;> exact .of_eq rfl rfl

theorem State.Moves.stickyKept {s t : State} (hm : s.Moves t) : s.StickyKept t := by
  cases hm with
  | quiet ins reads n => exact .of_eq rfl rfl
  | turn ht =>
    rcases State.blockStep_cases ht with ⟨-, rfl⟩ | ⟨-, rfl⟩ | ⟨w, i, u, r, -, -, hran, -, rfl⟩
    · exact .of_eq rfl rfl
    · exact ⟨id, fun _ => rfl⟩
    · exact hran.conclude_stickyKept r
  | event ht =>
    rcases State.blockEvent_cases ht with
      ⟨-, rfl⟩ | ⟨-, rfl⟩ | ⟨w, i, r, -, -, -, rfl⟩ | ⟨w, i, x, bs, u, -, -, -, rfl, -, rfl⟩
    · exact .of_eq rfl rfl
    · exact ⟨id, fun _ => rfl⟩
    · exact (State.Ran.refl (fun _ => True) s).conclude_stickyKept r
    · exact .of_eq (State.perform_overrun _ x) (State.perform_stickyErr _ x)
  | window r v => exact ⟨(s.windowWrite_stickyKept r v).overrun, (s.windowWrite_stickyKept r v).stickyErr⟩
  | write v hb => exact .of_eq rfl rfl
  | read hb => exact .of_eq rfl rfl

/-- Settles O20: every move keeps both bits. -/
theorem stickyBitsStayUntilReset : Obligations.StickyBitsStayUntilReset := by
  intro s t h hno
  rcases step_moves h with ⟨ins, hm⟩ | ⟨rest, hreset, -⟩
  · exact ⟨hm.stickyKept.overrun, hm.stickyKept.stickyErr⟩
  · exact absurd hreset (hno rest)

end Sys2Proof.Machine
end

section
/-! PROOFS, family 10_state: a command run by the block, in one step or one event at a time. -/

namespace Sys2Proof.Machine

/-! The block's turn. -/

/-- The block's turn on a legal word runs the command it decodes to. -/
theorem State.blockStep_decoded {s : State} {w : Word} {i : Instr} (hc : s.cmd = some w) (hd : decode w = .ok i) :
    s.blockStep = exec i s := by
  simp only [State.blockStep_busy hc, hd]

theorem State.busy_of_cmd {s : State} {w : Word} (hc : s.cmd = some w) : s.busy = true := by simp [State.busy, hc]

/-- Settles O6: with no input left, at its turn and while the host polls, the block makes its turn. -/
theorem stepRunsTheDecodedCommand : Obligations.StepRunsTheDecodedCommand := by
  intro s w i hc hd
  refine ⟨fun hi => ?_, fun rest hi => ?_, fun rest hi => ?_⟩
  · exact (step_of_nil hi).trans (State.blockStep_decoded hc hd)
  · exact (step_of_cons hi).trans (State.blockStep_decoded (s := { s with inputs := rest }) hc hd)
  · have hb : State.busy { s with inputs := rest } = true := State.busy_of_cmd hc
    have hs : ({ s with inputs := .poll :: rest } : State) = s := by rw [← hi]
    rw [step_of_cons hi, State.inputStep, if_pos hb, hs]
    exact State.blockStep_decoded hc hd

/-- What the block's turn leaves of a command in progress: none, with STICKY_ERR as spec/60_exceptions.md R204 and
R205 say. -/
theorem State.blockStep_completes {s t : State} (hb : s.busy = true) (h : s.blockStep = .next t) :
    t.busy = false ∧ (t.err = none → t.stickyErr = s.stickyErr) ∧ (t.err ≠ none → t.stickyErr = true) := by
  rcases State.blockStep_cases h with ⟨hc, -⟩ | ⟨-, rfl⟩ | ⟨w, i, u, r, -, -, hran, -, rfl⟩
  · simp [State.busy, hc] at hb
  · exact ⟨rfl, fun he => absurd he (by simp), fun _ => rfl⟩
  · obtain ⟨herr, hsticky⟩ := u.conclude_err r
    refine ⟨by rw [u.conclude_rest r]; rfl, ?_⟩
    rw [herr, hsticky]
    cases r with
    | error e => exact ⟨fun he => absurd he (by simp), fun _ => rfl⟩
    | ok r => exact ⟨fun _ => by rw [hran.rest], fun he => absurd rfl he⟩

/-- The block is never stuck. -/
theorem State.blockStep_next (s : State) : ∃ t, s.blockStep = .next t := by
  cases hc : s.cmd with
  | none => exact ⟨s.tick, by rw [State.blockStep, hc]⟩
  | some w =>
    rw [State.blockStep_busy hc]
    cases decode w with
    | error e => exact ⟨_, rfl⟩
    | ok i => exact exec_next i s

/-- Settles O21: with no input left the block makes its turn. -/
theorem everyCommandCompletes : Obligations.EveryCommandCompletes := by
  intro s hb hi
  obtain ⟨t, ht⟩ := s.blockStep_next
  exact ⟨t, (step_of_nil hi).trans ht, State.blockStep_completes hb ht⟩

/-! One event at a time (spec/20_memory.md R60, R63). -/

theorem State.current_of_cmd {s : State} {w : Word} {i : Instr} (hc : s.cmd = some w) (hd : decode w = .ok i) :
    s.current = some i := by
  simp only [State.current, hc, hd]

theorem State.blockEvent_decoded {s : State} {w : Word} {i : Instr} (hc : s.cmd = some w) (hd : decode w = .ok i) :
    s.blockEvent = .next ((State.foresee s.inputs.length ((program i s).resume s.progress) s).nextEvent
      ((program i s).resume s.progress)) := by
  simp only [State.blockEvent, hc, hd]

theorem Prog.runAll_inputs (p : Prog) (s : State) : (p.runAll s).2.inputs = s.inputs := by
  rw [(Prog.runAll_ran s p.all_true).rest]

theorem State.conclude_inputs (s : State) (r : Except Err Result) : (s.conclude r).inputs = s.inputs := by
  rw [s.conclude_rest r]

/-- A command of which no access is left runs by completing. -/
theorem exec_of_ended {i : Instr} {s : State} {r : Except Err Result}
    (hp : ((program i s).resume s.progress).runAll s = (r, s)) : exec i s = .next (s.conclude r) := by
  rw [exec_eq, State.execute, hp]

/-- Once a command has made its next access, with nothing raced anew, what is left of it makes what it would have made. -/
theorem exec_after_access {i : Instr} {s : State} {x : Access} {k : Word → Prog}
    (hp : (program i s).resume s.progress = .act x k) :
    exec i (s.afterAccess x) = exec i s := by
  have hrest : (program i s).resume (s.progress ++ [s.answer x]) = k (s.answer x) := Prog.resume_act _ _ hp
  have hrun := Prog.runAll_congr (s.perform x).inputs (s.progress ++ [s.answer x]) (k (s.answer x)) (s.perform x)
  rw [exec_eq, exec_eq, State.execute, State.execute, State.afterAccess, program_perform, hp]
  simp only [hrest, Prog.runAll]
  rw [hrun, State.conclude_congr, ← Prog.runAll_inputs (k (s.answer x)), ← State.conclude_inputs]

/-- The byte that a block read of a raced byte returns is the one drawn for that read. -/
theorem State.event_read_raced {s : State} {x : Access} {b : Nat} {c : Byte} (hr : b ∈ s.raced)
    (h : x.event (s.answer x) = .ramRead b c) : c = Config.freeByte s.draws b := by
  cases x <;> cases h
  simp [State.answer, State.ramByte, hr]

/-- A byte on which the host's next action races is raced before the block's next event. -/
theorem State.mem_foresee_of_host {s : State} {i : Instr} {x : Access} {k : Word → Prog} {later : List Input}
    {a width b : Nat} (hi : s.current = some i)
    (hin : (∃ v, s.inputs = .store a width v :: later) ∨ (s.inputs = .load a width :: later ∧ writesRam i = true))
    (htouch : s.touchesWindow a width = false) (hbounds : s.inBounds a width = true) (h1 : a ≤ b) (h2 : b < a + width)
    (huse : usesByte i s b = true) : b ∈ (State.foresee s.inputs.length (.act x k) s).raced := by
  have htouch' : (s.perform x).touchesWindow a width = false := by
    simpa only [State.touchesWindow, State.perform_blkBase] using htouch
  have hbounds' : (s.perform x).inBounds a width = true :=
    (State.inBounds_congr (s.perform_ram x) a width).trans hbounds
  obtain ⟨hflight, hwritten⟩ :=
    State.inFlight_congr (s.perform_cmd x) (s.perform_arg0 x) (s.perform_arg1 x) b
  have hahead : b ∈ s.racesAhead (.act x k) (.blockEvent :: s.inputs) := by
    rcases hin with ⟨v, hin⟩ | ⟨hin, hw⟩ <;>
      simp only [hin, State.racesAhead, htouch', hbounds', Bool.false_eq_true, if_false, if_true]
    · refine (State.mem_racesAhead _ _ _ _).1 (State.mem_hostWrite_raced.2 (.inr ⟨⟨h1, h2⟩, hflight.trans ?_⟩))
      simpa only [State.inFlight, hi] using huse
    · refine (State.mem_racesAhead _ _ _ _).1 (State.mem_hostRead_raced.2 (.inr ⟨⟨h1, h2⟩, hwritten.trans ?_⟩))
      simpa only [State.inFlightWritten, hi, hw, Bool.true_and] using huse
  have hlength : s.inputs.length = later.length + 1 := by
    rcases hin with ⟨v, hin⟩ | ⟨hin, -⟩ <;> rw [hin, List.length_cons]
  rw [hlength]
  exact State.raced_of_racesAhead hahead _

/-- One event of a command: it completes as it would in one step, or makes its next access from the state in which the
races to come are noted. -/
theorem State.blockEvent_next {s : State} {w : Word} {i : Instr} (hc : s.cmd = some w) (hd : decode w = .ok i) :
    (∃ r, s.blockEvent = .next (s.conclude r) ∧ exec i s = .next (s.conclude r)) ∨
      ∃ x k, (program i s).resume s.progress = .act x k ∧
        s.blockEvent = .next ((State.foresee s.inputs.length (.act x k) s).afterAccess x) := by
  have hevent := State.blockEvent_decoded hc hd
  cases hp : (program i s).resume s.progress with
  | done r =>
    rw [hp, State.foresee_ended _ (by simp)] at hevent
    exact .inl ⟨.ok r, hevent, exec_of_ended (by rw [hp]; rfl)⟩
  | raise e =>
    rw [hp, State.foresee_ended _ (by simp)] at hevent
    exact .inl ⟨.error e, hevent, exec_of_ended (by rw [hp]; rfl)⟩
  | act x k =>
    rw [hp] at hevent
    exact .inr ⟨x, k, rfl, hevent⟩

/-- Settles O7: a command with no access left completes; an event is the next access, made once the races to come have
been noted. -/
theorem commandsRunOneEventAtATime : Obligations.CommandsRunOneEventAtATime := by
  intro s w i rest hc hd hin
  let s' : State := { s with inputs := rest }
  have hcur : s'.current = some i := State.current_of_cmd (s := s') hc hd
  have hstep : step s = s'.blockEvent := step_of_cons hin
  rcases State.blockEvent_next (s := s') hc hd with ⟨r, hevent, hexec⟩ | ⟨x, k, hp, hevent⟩
  · have hrest := s'.conclude_rest r
    have htrace : (s'.conclude r).trace = s.trace := by rw [hrest]
    refine ⟨_, hstep.trans hevent, s'.conclude_inputs r, .inr ⟨by rw [hrest]; rfl, htrace, hexec⟩, ?_⟩
    intro a width later b c _ _ _ _ _ _ hread
    simp [htrace] at hread
  · obtain ⟨bs, hu, -⟩ := State.foresee_eq s'.inputs.length (.act x k) s'
    generalize hforesee : State.foresee s'.inputs.length (.act x k) s' = u at hevent hu
    have htrace : (u.afterAccess x).trace = s.trace ++ [x.event (u.answer x)] := by rw [hu]; rfl
    have hraced : (u.afterAccess x).raced = u.raced := u.perform_raced x
    refine ⟨_, hstep.trans hevent, ?_, .inl ⟨?_, ⟨_, htrace⟩, fun hr => ?_, fun hduty => ?_⟩, ?_⟩
    · exact (u.perform_inputs x).trans (by rw [hu])
    · exact (u.perform_cmd x).trans (by rw [hu]; exact hc)
    · have hus : u = s' := by
        rw [hraced, hu] at hr
        exact hu.trans (by rw [show bs = s.raced from hr])
      rw [hus]
      exact exec_after_access hp
    · have hnone := State.racesAhead_of_keepsDuty (s := s) (i := i) (State.current_of_cmd hc hd)
        (.blockEvent :: rest) s' (.act x k) rfl rfl rfl hduty
      rw [hraced, ← hforesee, State.foresee_of_racesAhead hnone]
    · intro a width later b c hnext htouch hbounds h1 h2 huse hread
      have hb : b ∈ u.raced := hforesee ▸ State.mem_foresee_of_host hcur hnext htouch hbounds h1 h2 huse
      rw [htrace, List.append_cancel_left_eq, List.singleton_inj] at hread
      rw [State.event_read_raced hb hread, hu]

end Sys2Proof.Machine
end

section
/-! PROOFS, family 10_state: the result registers, the transmit request and the classification. -/

namespace Sys2Proof.Machine

/-! The result registers (spec/10_state.md R48). -/

theorem postsReply_eq_true {i : Instr} : postsReply i = true ↔ i = .arpReply ∨ i = .icmpEchoReply ∨ i = .dispatch := by
  cases i <;> simp [postsReply]

/-- A command that posts no reply makes no access that touches TX_ADDR, TX_LEN and TX_REQ, and neither does its end. -/
theorem State.Ran.conclude_tx {i : Instr} {s u : State} {r : Except Err Result} (hran : s.Ran (MayAccess i s) u)
    (hend : MayEnd i r) (hp : postsReply i = false) :
    (u.conclude r).txAddr = s.txAddr ∧ (u.conclude r).txLen = s.txLen ∧ (u.conclude r).txReq = s.txReq := by
  obtain ⟨ha, hl, hq⟩ := hran.noPost fun a n h => by rw [MayAccess, hp] at h; cases h
  obtain ⟨ha', hl'⟩ := (State.conclude_results (u := u) hend).2.2.resolve_right (by simp [hp])
  exact ⟨ha'.trans ha, hl'.trans hl, (by rw [u.conclude_rest r] : _ = u.txReq).trans hq⟩

/-- Settles O26: accesses touch none of RESULT, CLASS and HDROFF, and the end of a command only those of its kind. -/
theorem commandsWriteOnlyTheirResultRegisters : Obligations.CommandsWriteOnlyTheirResultRegisters := by
  intro i s t h
  obtain ⟨u, r, hran, hend, hexec⟩ := exec_cases i s
  rw [hexec] at h
  cases h
  obtain ⟨hresult, hclass, -⟩ := State.conclude_results (u := u) hend
  refine ⟨fun hi => ?_, fun hi => ?_, fun hi => ?_⟩
  · have hno : leavesResult i (.value 0) = false := by
      rcases hi with rfl | ⟨hdr, field, chunk, rfl⟩ | rfl | rfl | rfl | rfl <;> rfl
    exact (hresult.resolve_right (by rw [hno]; exact Bool.false_ne_true)).trans (by rw [hran.rest])
  · obtain ⟨hc, ho⟩ := hclass.resolve_right (by simp [hi.1, hi.2])
    exact ⟨hc.trans (by rw [hran.rest]), ho.trans (by rw [hran.rest])⟩
  · have hno : postsReply i = false := by
      rw [← Bool.not_eq_true, postsReply_eq_true]
      tauto
    exact hran.conclude_tx hend hno

/-! The transmit request (spec/10_state.md R27, R37, spec/43_dispatch.md R176). -/

/-- No transmit request is among some events. -/
def NoPost (evs : List Event) : Prop := ∀ a n, Event.postTx a n ∉ evs

theorem NoPost.nil : NoPost [] := fun _ _ => List.not_mem_nil

theorem NoPost.append {xs ys : List Event} (hx : NoPost xs) (hy : NoPost ys) : NoPost (xs ++ ys) :=
  fun a n h => (List.mem_append.1 h).elim (hx a n) (hy a n)

theorem ReadsIn.noPost {m : Memory} {a n : Nat} {evs : List Event} (h : ReadsIn m a n evs) : NoPost evs :=
  fun _ _ he => by
    obtain ⟨k, -, -, hk⟩ := h _ he
    cases hk

theorem State.Rewrites.noPost {s t : State} {lo hi : Nat} (h : s.Rewrites t lo hi) :
    ∃ evs, t.trace = s.trace ++ evs ∧ NoPost evs := by
  obtain ⟨evs, ht, hevs⟩ := h.events
  refine ⟨evs, ht, fun a n he => ?_⟩
  obtain ⟨k, b, -, -, hk | hk⟩ := hevs _ he <;> cases hk

/-- What a command has done to the transmit registers by the end of its run from `s`: nothing, or its last event is the
request that stands in them. -/
structure State.PostsLast (s t : State) : Prop where
  raced : t.raced = s.raced
  events : ∃ evs, t.trace = s.trace ++ evs ∧
    ((t.txReq = s.txReq ∧ t.txAddr = s.txAddr ∧ t.txLen = s.txLen ∧ NoPost evs) ∨
      (t.txReq = true ∧ ∃ before, evs = before ++ [.postTx t.txAddr t.txLen] ∧ NoPost before))

theorem State.PostsLast.refl (s : State) : s.PostsLast s :=
  ⟨rfl, [], (List.append_nil _).symm, .inl ⟨rfl, rfl, rfl, .nil⟩⟩

/-- Events that are no transmit request may come before. -/
theorem State.PostsLast.of_saw {s t : State} {evs : List Event} (hno : NoPost evs) (h : (s.saw evs).PostsLast t) :
    s.PostsLast t := by
  obtain ⟨hr, evs', ht, hpost⟩ := h
  refine ⟨hr, evs ++ evs', by rw [ht, State.saw_trace, List.append_assoc], ?_⟩
  rcases hpost with ⟨hq, ha, hl, hno'⟩ | ⟨hq, before, rfl, hno'⟩
  · exact .inl ⟨hq, ha, hl, hno.append hno'⟩
  · exact .inr ⟨hq, evs ++ before, (List.append_assoc _ _ _).symm, hno.append hno'⟩

/-- A rewriting of RAM, then the request. -/
theorem State.Rewrites.postsLast {s t : State} {lo hi : Nat} (h : s.Rewrites t lo hi) (a : Word) (n : BitVec 16) :
    s.PostsLast (t.posted a n) := by
  obtain ⟨evs, ht, hno⟩ := h.noPost
  refine ⟨by rw [State.posted_raced, h.rest], evs ++ [.postTx a n], ?_, .inr ⟨rfl, evs, rfl, hno⟩⟩
  rw [← List.append_assoc, ← ht]
  rfl

/-- While the host keeps its duty, the program's run posts at most one request, as its last event. -/
def Prog.PostsLast (p : Prog) : Prop := ∀ s : State, s.raced = [] → s.PostsLast (p.runAll s).2

theorem Prog.PostsLast.done (r : Result) : (Prog.done r).PostsLast := fun s _ => .refl s
theorem Prog.PostsLast.raise (e : Err) : (Prog.raise e).PostsLast := fun s _ => .refl s

theorem Prog.PostsLast.check {α : Type} {c : Except Err α} {k : α → Prog} (h : ∀ a, c = .ok a → (k a).PostsLast) :
    (Prog.check c k).PostsLast := by
  cases c with
  | error e => exact .raise e
  | ok a => exact h a rfl

theorem Prog.PostsLast.reads {α : Type} {f n : Nat} {onErr : Err → Prog} {c : Memory → Except Err α}
    {p : (α → Prog) → Prog} {k : α → Prog} (hp : Prog.Reads f n onErr c p) (he : ∀ e, (onErr e).PostsLast)
    (hk : ∀ m a, c m = .ok a → (k a).PostsLast) : (p k).PostsLast := by
  intro s hr
  obtain ⟨evs, hevs, hrun⟩ := hp.run s hr
  rw [hrun]
  refine .of_saw hevs.noPost ?_
  cases hc : c s.mem with
  | error e => exact he e _ hr
  | ok a => exact hk _ a hc _ hr

theorem Prog.PostsLast.memRead {a n : Nat} {k : List Byte → Prog} (hk : ∀ bs, (k bs).PostsLast) :
    (Prog.memRead a n k).PostsLast :=
  .reads (f := a) (n := n) (onErr := .raise) (c := fun m => .ok (m.bytes a n)) (p := fun k => Prog.memRead a n k)
    (.bytes a n le_rfl le_rfl (c := fun bs _ => .ok bs) (p := fun bs k => k bs) fun bs => .pure bs) .raise fun _ bs _ => hk bs

theorem Prog.PostsLast.log {e : LogEvent} {p : Prog} (hp : p.PostsLast) : (Prog.log e p).PostsLast := by
  intro s hr
  rw [Prog.runAll_log]
  exact .of_saw (fun a n h => by cases List.mem_singleton.1 h) (hp _ hr)

theorem Prog.PostsLast.hdr {kind : HdrKind} {a w : Nat} {p : Prog} (hp : p.PostsLast) :
    (Prog.hdr kind a w p).PostsLast :=
  .memRead fun _ => .log hp

theorem Prog.PostsLast.emitLogs {info : FrameInfo} {f n : Nat} {p : Prog} (hp : p.PostsLast) :
    (Prog.emitLogs info f n p).PostsLast := by
  unfold Prog.emitLogs
  cases info.cls with
  | unknown => exact .memRead fun _ => .log hp
  | arp => exact .hdr (.hdr hp)
  | ipv4Icmp => exact .hdr (.hdr (.hdr hp))
  | ipv4Tcp => exact .hdr (.hdr (.hdr hp))
  | ipv4Udp => exact .hdr (.hdr (.hdr hp))
  | ipv4Other => exact .hdr (.hdr hp)
  | ipv6Udp => exact .hdr (.hdr (.hdr hp))
  | ipv6Other => exact .hdr (.hdr hp)

theorem State.arpReplyBody_postsLast (s : State) (r : Result) : (s.arpReplyBody r).PostsLast := by
  intro u hr
  rw [State.runAll_arpReplyBody s r hr]
  exact (u.arpRewrite_rewrites s.addr (length_bytesBE 6 _) (length_bytesBE 4 _)).postsLast _ _

theorem State.icmpEchoBody_postsLast {s : State} (r : Result) {m : Memory} {g : IcmpGeometry}
    (hg : icmpLayoutOf m s.addr s.len = .ok g) : (s.icmpEchoBody r g).PostsLast := by
  intro u hr
  rw [State.runAll_icmpEchoBody s r g hr]
  obtain ⟨h34, hihl, hl4, htl, hlen, rfl⟩ := icmpLayoutOf_eq_ok.1 hg
  exact (u.icmpRewrite_rewrites s.addr _ h34 (by dsimp only; omega) (by dsimp only; omega)
    (by dsimp only; omega)).postsLast _ _

theorem State.icmpEchoReply_postsLast (s : State) (r : Result) {onErr : Err → Prog} (he : ∀ e, (onErr e).PostsLast) :
    (Prog.icmpLayout s.addr s.len onErr fun g => s.icmpEchoBody r g).PostsLast :=
  .reads (Prog.icmpLayout_reads _ _ _) he fun _ _ hg => State.icmpEchoBody_postsLast r hg

/-- The commands that can reply post their request last (spec/43_dispatch.md R172, R175, R178). -/
theorem program_postsLast {i : Instr} (s : State) (h : postsReply i = true) : (program i s).PostsLast := by
  rcases postsReply_eq_true.1 h with rfl | rfl | rfl
  · refine .check fun _ _ => ?_
    split
    · exact .raise _
    · exact s.arpReplyBody_postsLast _
  · exact .check fun _ _ => s.icmpEchoReply_postsLast _ .raise
  · refine .check fun _ _ => .reads (Prog.classify_reads _ _ _) .raise fun m info hinfo => .emitLogs ?_
    unfold State.dispatchReply
    rcases classify_reply hinfo with hreply | ⟨hreply, -⟩ | ⟨g, hreply, hg⟩ <;> rw [hreply]
    · exact .done _
    · exact s.arpReplyBody_postsLast _
    · exact s.icmpEchoReply_postsLast _ fun _ => State.icmpEchoBody_postsLast _ hg

/-- The end of a command the host has kept its duty in makes no event and touches no transmit register. -/
theorem State.PostsLast.conclude {s u : State} (h : s.PostsLast u) (hr : s.raced = []) (r : Except Err Result) :
    s.PostsLast (u.conclude r) := by
  have hu : u.raced = [] := h.raced.trans hr
  obtain ⟨-, evs, ht, hpost⟩ := h
  cases r with
  | error e =>
    rw [State.conclude_error hu]
    exact ⟨hr.symm, evs, ht, hpost⟩
  | ok r =>
    rw [State.conclude_ok hu]
    refine ⟨hr.symm, evs, (u.deliver_trace r).trans ht, ?_⟩
    simpa using hpost

/-- The accesses of a command that posts no reply are no transmit requests. -/
theorem State.Ran.postsLast {i : Instr} {s u : State} (hran : s.Ran (MayAccess i s) u) (hp : postsReply i = false) :
    s.PostsLast u := by
  have hno : ∀ a n, ¬ MayAccess i s (.postTx a n) := fun a n h => by rw [MayAccess, hp] at h; cases h
  obtain ⟨evs, ht, hevs⟩ := hran.events
  obtain ⟨ha, hl, hq⟩ := hran.noPost hno
  refine ⟨hran.raced, evs, ht, .inl ⟨hq, ha, hl, fun a n he => ?_⟩⟩
  obtain ⟨x, v, hx, hv⟩ := hevs _ he
  cases x <;> cases hv
  exact hno _ _ hx

theorem exec_postsLast {i : Instr} {s t : State} (hs : s.Fresh) (h : exec i s = .next t) : s.PostsLast t := by
  rw [exec_eq, State.execute_fresh hs] at h
  cases h
  refine State.PostsLast.conclude ?_ hs.2 _
  cases hp : postsReply i
  · exact (Prog.runAll_ran s (program_all i s)).postsLast hp
  · exact program_postsLast s hp s hs.2

/-- Settles O27: a command posts at most one request, as its last event. -/
theorem transmitRequestIsTheLastEvent : Obligations.TransmitRequestIsTheLastEvent := by
  intro i s t hs h htx
  obtain ⟨evs, ht, ⟨hq, ha, hl, hno⟩ | hpost⟩ := (exec_postsLast hs h).events
  · exact ⟨evs, ht, .inl ⟨hq.trans htx, ha, hl, hno⟩⟩
  · exact ⟨evs, ht, .inr hpost⟩

/-! Classification (spec/10_state.md R35, R36). -/

/-- A class with no action, or one of the two that ask for a reply with its action. -/
def FrameInfo.Legal (info : FrameInfo) : Prop :=
  info.reply = .none ∨ (info.cls = .arp ∧ info.reply = .arp) ∨ (info.cls = .ipv4Icmp ∧ ∃ g, info.reply = .icmpEcho g)

theorem classifyArpOf_legal {m : Memory} {ip : List Byte} {f n : Nat} {info : FrameInfo}
    (h : classifyArpOf m ip f n = .ok info) : info.Legal := by
  unfold classifyArpOf at h
  split_ifs at h <;> cases h
  · exact .inr (.inl ⟨rfl, rfl⟩)
  · exact .inl rfl

theorem classifyIcmpOf_legal {m : Memory} {ip : List Byte} {f n l4 : Nat} {info : FrameInfo}
    (h : classifyIcmpOf m ip f n l4 = .ok info) : info.Legal := by
  unfold classifyIcmpOf at h
  split_ifs at h
  · split at h <;> cases h
    exact .inr (.inr ⟨rfl, _, rfl⟩)
  · cases h
    exact .inl rfl

theorem classifyIpv4Of_legal {m : Memory} {ip : List Byte} {f n : Nat} {info : FrameInfo}
    (h : classifyIpv4Of m ip f n = .ok info) : info.Legal := by
  unfold classifyIpv4Of classifyProtocolOf at h
  split_ifs at h
  · exact classifyIcmpOf_legal h
  all_goals
    cases h
    exact .inl rfl

/-- `Classify` answers an action only with the class it belongs to (spec/43_dispatch.md R163, R165). -/
theorem classifyOf_legal {m : Memory} {ip : List Byte} {f n : Nat} {info : FrameInfo}
    (h : classifyOf m ip f n = .ok info) : info.Legal := by
  unfold classifyOf at h
  split_ifs at h
  · exact classifyArpOf_legal h
  · exact classifyIpv4Of_legal h
  · exact .inl (classifyIpv6_reply h)
  · cases h
    exact .inl rfl

theorem FrameInfo.Legal.classWord {info : FrameInfo} (h : info.Legal) :
    (classWord info).toNat < 8 ∨ classWord info = 0x11 ∨ classWord info = 0x22 := by
  have hword := classWord_toNat info
  rcases h with hr | ⟨hc, hr⟩ | ⟨hc, g, hr⟩
  · left
    rw [hword, hr]
    cases info.cls <;> decide
  · rw [hc, hr] at hword
    exact .inr (.inl (BitVec.eq_of_toNat_eq hword))
  · rw [hc, hr] at hword
    exact .inr (.inr (BitVec.eq_of_toNat_eq hword))

/-- How CLASSIFY ends while the host keeps its duty: with an error, or with the word of what its frame's bytes are
classified as, after reads of its frame alone (spec/43_dispatch.md R169). -/
theorem exec_classify {s t : State} (hs : s.Fresh) (h : exec .classify s = .next t) :
    t.err ≠ none ∨ ∃ evs info, ReadsIn s.mem s.addr s.len evs ∧
      classifyOf s.mem s.hostIpBytes s.addr s.len = .ok info ∧ t = ((s.saw evs).setClass info).ended := by
  rw [exec_eq, State.execute_fresh hs] at h
  simp only [program, State.classifyCommand, Prog.runAll_check] at h
  cases hcheck : s.frameCheck true false with
  | error e =>
    rw [hcheck] at h
    cases h
    exact .inl (by rw [State.conclude_error hs.2]; exact Option.some_ne_none e)
  | ok _ =>
    obtain ⟨evs, hevs, hrun⟩ := (Prog.classify_reads s.hostIpBytes s.addr s.len).run s hs.2
    have hraced : (s.saw evs).raced = [] := hs.2
    rw [hcheck] at h
    simp only [hrun] at h
    cases hinfo : classifyOf s.mem s.hostIpBytes s.addr s.len with
    | error e =>
      rw [hinfo] at h
      cases h
      refine .inl ?_
      simp only [Prog.runAll]
      rw [State.conclude_error hraced]
      exact Option.some_ne_none e
    | ok info =>
      rw [hinfo] at h
      cases h
      refine .inr ⟨evs, info, hevs, rfl, ?_⟩
      simp only [Prog.runAll]
      rw [State.conclude_ok hraced]
      rfl

/-- Settles O54: CLASSIFY is reads of its frame, then the legal word of what `classifyOf` answers. -/
theorem classifyWritesOnlyLegalCodes : Obligations.ClassifyWritesOnlyLegalCodes := by
  intro s t hs h hok
  obtain ⟨evs, info, hevs, hinfo, rfl⟩ := (exec_classify hs h).resolve_left (not_not_intro hok)
  exact ⟨⟨evs, hevs, rfl⟩, (classifyOf_legal hinfo).classWord⟩

end Sys2Proof.Machine
end

section
/-! PROOFS, family 10_state: the host's accesses to the register window, STATUS and reset. -/

namespace Sys2Proof.Machine

/-! The steps of a host that keeps to the admitted accesses of the window. -/

theorem step_window_store {s : State} {k v : Nat} {rest : List Input} (hk : k < 64)
    (hin : s.inputs = .store (s.blkBase + 4 * k) 4 v :: rest) :
    step s = .next (State.windowWrite { s with inputs := rest } (regAt (4 * k)) (BitVec.ofNat 32 v)).tick :=
  (step_of_cons hin).trans (State.hostStore_window { s with inputs := rest } v hk)

theorem State.windowValue_inputs (s : State) (ins : List Input) (r : WinReg) :
    State.windowValue { s with inputs := ins } r = s.windowValue r := by
  cases r <;> rfl

theorem step_window_load {s : State} {k : Nat} {v : Word} {rest : List Input} (hk : k < 64)
    (hin : s.inputs = .load (s.blkBase + 4 * k) 4 :: rest) (hv : s.windowValue (regAt (4 * k)) = v) :
    step s = .next { s with inputs := rest, draws := s.draws + 1, hostReads := s.hostReads ++ [v.toNat] } := by
  subst hv
  refine (step_of_cons hin).trans ((State.hostLoad_window { s with inputs := rest } hk).trans ?_)
  rw [State.windowValue_inputs]
  rfl

theorem State.windowWrite_idle {s : State} (hb : s.busy = false) (r : WinReg) (v : Word) :
    s.windowWrite r v = s.idleWrite r v := by
  simp [State.windowWrite, hb]

/-- On an idle block a host write of a word has its register's own effect (spec/10_state.md R22). -/
theorem step_idle_store {s : State} {k : Nat} {v : Word} {rest : List Input} (hb : s.busy = false) (hk : k < 64)
    (hin : s.inputs = .store (s.blkBase + 4 * k) 4 v.toNat :: rest) :
    step s = .next (State.idleWrite { s with inputs := rest } (regAt (4 * k)) v).tick := by
  rw [step_window_store hk hin, State.windowWrite_idle (s := { s with inputs := rest }) hb, BitVec.ofNat_toNat,
    BitVec.setWidth_eq]

theorem State.windowWrite_busy {s : State} (hb : s.busy = true) (r : WinReg) (v : Word) :
    s.windowWrite r v = { s with overrun := s.overrun || r.writable } := by
  rcases s.windowWrite_cases r v with ⟨-, hr, hw⟩ | ⟨-, hr, hw⟩ | ⟨hi, -⟩
  · rw [hw, hr, Bool.or_true]
  · rw [hw, hr, Bool.or_false]
  · rw [hb] at hi
    cases hi

theorem State.windowWrite_readOnly {r : WinReg} (hr : r.writable = false) (s : State) (v : Word) :
    s.windowWrite r v = s := by
  rcases s.windowWrite_cases r v with ⟨-, hr', -⟩ | ⟨-, -, hw⟩ | ⟨-, hw⟩
  · rw [hr] at hr'
    cases hr'
  · exact hw
  · rw [hw]
    cases r <;> simp_all [State.idleWrite, WinReg.writable]

/-- The offsets of the writable registers (spec/10_state.md R22, R44). -/
theorem writable_regAt : ∀ k < 64, (regAt (4 * k)).writable =
    decide (4 * k ∈ [0x00, 0x08, 0x0C, 0x24, 0x28, 0x2C, 0x30, 0x34, 0x38]) := by decide

/-- The offsets of the registers that read as 0 (spec/10_state.md R22, R41, R42). -/
theorem regAt_readsZero : ∀ k < 64, 4 * k = 0x00 ∨ 0x38 ≤ 4 * k → regAt (4 * k) ∈ [WinReg.cmd, .rpBar, .reserved] := by
  decide

theorem State.windowValue_readsZero (s : State) {r : WinReg} (h : r ∈ [WinReg.cmd, .rpBar, .reserved]) :
    s.windowValue r = 0 := by
  simp only [List.mem_cons, List.not_mem_nil, or_false] at h
  rcases h with rfl | rfl | rfl <;> rfl

/-- Settles O8: CMD is the register at offset 0. -/
theorem cmdWriteAcceptsTheCommand : Obligations.CmdWriteAcceptsTheCommand :=
  fun _ _ _ hb hin => step_idle_store (k := 0) hb (by decide) hin

/-- Settles O9: the offset decides whether the register is writable. -/
theorem writesWhileBusyAreDropped : Obligations.WritesWhileBusyAreDropped := by
  intro s k v rest hb hk hin
  rw [step_window_store hk hin, State.windowWrite_busy (s := { s with inputs := rest }) hb, writable_regAt k hk]
  rfl

/-- Settles O10: the offset decides whether the register is writable, and whether it reads as 0. -/
theorem readOnlyAndReservedOffsets : Obligations.ReadOnlyAndReservedOffsets := by
  intro s k rest hk
  refine ⟨fun v hno hin => ?_, fun hzero hin => ?_⟩
  · have hr : (regAt (4 * k)).writable = false := (writable_regAt k hk).trans (decide_eq_false hno)
    rw [step_window_store hk hin, State.windowWrite_readOnly hr]
    rfl
  · exact step_window_load hk hin (s.windowValue_readsZero (regAt_readsZero k hk hzero))

/-! The registers a host write loads. -/

/-- The host's MAC is its octets in wire order (spec/10_state.md R30). -/
theorem State.hostMacBytes_eq (s : State) : s.hostMacBytes =
    [s.hostMacHi.extractLsb' 8 8, s.hostMacHi.extractLsb' 0 8, s.hostMacLo.extractLsb' 24 8,
      s.hostMacLo.extractLsb' 16 8, s.hostMacLo.extractLsb' 8 8, s.hostMacLo.extractLsb' 0 8] := by
  have hhi := s.hostMacHi.isLt
  have hlo := s.hostMacLo.isLt
  simp only [State.hostMacBytes, bytesBE, s.hostMac_toNat, List.cons.injEq, and_true]
  refine ⟨?_, ?_, ?_, ?_, ?_, ?_⟩ <;> apply BitVec.eq_of_toNat_eq <;>
    simp only [BitVec.toNat_ofNat, BitVec.extractLsb'_toNat, Nat.shiftRight_eq_div_pow] <;> omega

/-- The host's IP address is its octets in wire order (spec/10_state.md R31). -/
theorem State.hostIpBytes_eq (s : State) : s.hostIpBytes =
    [s.hostIp.extractLsb' 24 8, s.hostIp.extractLsb' 16 8, s.hostIp.extractLsb' 8 8, s.hostIp.extractLsb' 0 8] := rfl

/-- Settles O11: each of the seven registers, then the octets of the host's identity, which no write is needed for. -/
theorem hostWritesLoadTheRegisters : Obligations.HostWritesLoadTheRegisters := by
  intro s t k v rest hb hin hmem
  refine ⟨?_, t.hostMacBytes_eq, t.hostIpBytes_eq⟩
  simp only [List.mem_cons, Prod.mk.injEq, List.not_mem_nil, or_false] at hmem
  rcases hmem with ⟨rfl, rfl⟩ | ⟨rfl, rfl⟩ | ⟨rfl, rfl⟩ | ⟨rfl, rfl⟩ | ⟨rfl, rfl⟩ | ⟨rfl, rfl⟩ | ⟨rfl, rfl⟩ <;>
    exact step_idle_store hb (by decide) hin

/-- Clearing bit 0 of a BAR0 value (spec/10_state.md R41). -/
theorem toNat_and_clearBit0 (b : Word) : (b &&& 0xFFFFFFFE).toNat = b.toNat / 2 * 2 := by
  have hmask : ∀ i (hi : i < 32), (0xFFFFFFFE : Word)[i] = !decide (i = 0) := by decide
  have hbits : b &&& (0xFFFFFFFE : Word) = (b >>> 1) <<< 1 := by
    ext i hi
    rw [BitVec.getElem_and, hmask i hi]
    cases i with
    | zero => simp
    | succ j => simp [Nat.add_comm 1 j, BitVec.getLsbD_eq_getElem hi]
  have hb := b.isLt
  rw [hbits, BitVec.toNat_shiftLeft, BitVec.toNat_ushiftRight, Nat.shiftRight_eq_div_pow, Nat.shiftLeft_eq]
  omega

/-- Settles O12: RP_BAR is the register at offset 0x38. -/
theorem rpBarLoadsTheRegisterPort : Obligations.RpBarLoadsTheRegisterPort := by
  intro s b rest
  refine ⟨fun hb hin => ⟨b &&& 0xFFFFFFFE, toNat_and_clearBit0 b, ?_⟩, fun hin => ?_⟩
  · exact step_idle_store (k := 14) hb (by decide) hin
  · exact step_window_load (k := 14) (v := 0) (by decide) hin rfl

/-! STATUS (spec/10_state.md R24, R29). -/

/-- A bit of STATUS from STATUS as a number. -/
theorem State.status_bit {s : State} {k : Nat} {b : Bool} (h : s.status.toNat / 2 ^ k % 2 = b.toNat) :
    s.status.getLsbD k = b := by
  rw [BitVec.getLsbD, Nat.testBit_eq_decide_div_mod_eq, h]
  cases b <;> rfl

/-- The codes of the errors (spec/60_exceptions.md R200). -/
theorem errCode_of_mem : ∀ p ∈ [(none, 0), (some Err.illegalCmd, 1), (some .busFault, 2), (some .notConfigured, 3),
    (some .regAddr, 4), (some .portRange, 5), (some .frameShort, 6), (some .malformed, 7)], errCode p.1 = p.2 := by
  decide

/-- Settles O13: each field of STATUS is read off STATUS as a number. -/
theorem statusFields : Obligations.StatusFields := by
  intro s
  have hstatus := s.status_toNat
  have herr := (errCode s.err).isLt
  have hbusy := s.busy.toNat_le
  have htx := s.txReq.toNat_le
  have hoverrun := s.overrun.toNat_le
  have hsticky := s.stickyErr.toNat_le
  have hip := s.hostIpSet.toNat_le
  have hmac := s.hostMacSet.toNat_le
  have hrp := s.rpSet.toNat_le
  refine ⟨fun p hp he => ?_, State.status_bit (b := s.busy) (by omega), State.status_bit (by omega),
    State.status_bit (by omega), State.status_bit (by omega), State.status_bit (b := s.hostIpSet) (by omega),
    State.status_bit (b := s.hostMacSet) (by omega), State.status_bit (b := s.rpSet) (by omega), by omega⟩
  rw [← errCode_of_mem p hp, ← he]
  apply BitVec.eq_of_toNat_eq
  rw [BitVec.extractLsb'_toNat, Nat.shiftRight_zero]
  omega

/-! A stuck host (spec/10_state.md R21, spec/70_reset_and_hazards.md R243). -/

/-- The inputs play no part in a command. -/
theorem exec_inputs {i : Instr} {s t : State} (h : exec i s = .next t) (ins : List Input) :
    exec i { s with inputs := ins } = .next { t with inputs := ins } := by
  have hprog : program i { s with inputs := ins } = program i s := program_congr s ins s.progress i
  have hrun : ∀ p : Prog, p.runAll { s with inputs := ins } =
      ((p.runAll s).1, { (p.runAll s).2 with inputs := ins, progress := s.progress }) :=
    fun p => Prog.runAll_congr ins s.progress p s
  rw [exec_eq, State.execute] at h ⊢
  cases h
  rw [hprog]
  dsimp only
  rw [hrun, State.conclude_congr]

/-- Nor in the block's turn. -/
theorem State.blockStep_inputs {s t : State} (h : s.blockStep = .next t) (ins : List Input) :
    State.blockStep { s with inputs := ins } = .next { t with inputs := ins } := by
  unfold State.blockStep at h ⊢
  dsimp only
  split at h
  · cases h
    rfl
  · split at h
    · cases h
      rfl
    · exact exec_inputs h ins

theorem State.inputs_blockStep {s t : State} (h : s.blockStep = .next t) : t.inputs = s.inputs := by
  have h' : s.blockStep = .next { t with inputs := s.inputs } := State.blockStep_inputs h s.inputs
  rw [h] at h'
  rw [Host.Outcome.next.inj h']

/-- A host access that begins in the window and is not a word at a 4-aligned offset is stuck. -/
theorem State.inputStep_notAdmitted {s : State} {offset width v : Nat} (ho : offset < 256) (hw : 0 < width)
    (hno : width ≠ 4 ∨ offset % 4 ≠ 0) {input : Input}
    (hi : input ∈ [Input.store (s.blkBase + offset) width v, .load (s.blkBase + offset) width]) :
    s.inputStep input = s.hostStuck input (.hostAccessNotAdmitted (s.blkBase + offset) width) := by
  have htouch := s.touchesWindow_offset ho hw
  have hadm : s.admittedWindow (s.blkBase + offset) width = false := by
    rw [← Bool.not_eq_true, s.admittedWindow_offset ho]
    omega
  simp only [List.mem_cons, List.not_mem_nil, or_false] at hi
  rcases hi with rfl | rfl
  · simp [State.inputStep, State.hostStore, htouch, hadm]
  · simp [State.inputStep, State.hostLoad, htouch, hadm]

/-- Settles O14: such an access is stuck, and a stuck host leaves the step to the other agents. -/
theorem otherWindowAccessesAreStuck : Obligations.OtherWindowAccessesAreStuck := by
  intro s offset width v rest ho hw hno input hi hin
  have hstuck := State.inputStep_notAdmitted (s := { s with inputs := rest }) ho hw hno hi
  rw [← step_of_cons hin] at hstuck
  have hs : ({ s with inputs := input :: rest } : State) = s := by rw [← hin]
  refine ⟨fun hall => ?_, fun hosts other later hrest hall hother => ?_⟩
  · rw [State.hostStuck, otherAgent_eq_none hall] at hstuck
    refine ⟨fun hb => ?_, fun hb => ?_⟩
    · exact hstuck.trans (if_neg (ne_true_of_eq_false hb))
    · have hturn : step s = s.blockStep := hstuck.trans ((if_pos hb).trans (by rw [hs]))
      obtain ⟨t, ht⟩ := s.blockStep_next
      exact ⟨t, hturn.trans ht, (State.blockStep_completes hb ht).1, State.inputs_blockStep ht,
        (step_of_nil rfl).trans (State.blockStep_inputs ht [])⟩
  · rw [hstuck, State.hostStuck, hrest, otherAgent_eq_some hall hother]

/-! Host reads of the window. -/

theorem State.whenIdle_of_idle {s : State} (hb : s.busy = false) (v : Word) : s.whenIdle v = v := by
  simp [State.whenIdle, hb]

theorem State.whenSet_of_set {s : State} {isSet : Bool} (h : isSet = true) (mask v : Word) :
    s.whenSet isSet mask v = v := if_pos h

theorem modeBit_word (m : MapMode) : ((modeBit m).setWidth 32 : Word) = if m = .portMapped then 1 else 0 := by
  cases m <;> rfl

/-- Settles O15: the value of each register that a read must return. -/
theorem hostReadsOfTheWindow : Obligations.HostReadsOfTheWindow := by
  intro s k v rest hin hv
  simp only [List.mem_cons, Prod.mk.injEq, List.not_mem_nil, or_false] at hv
  rcases hv with hany | ⟨hb, hresult⟩ | hset
  · rcases hany with ⟨rfl, rfl⟩ | ⟨rfl, rfl⟩ | ⟨rfl, rfl⟩ <;> exact step_window_load (by decide) hin rfl
  · rcases hresult with ⟨rfl, rfl⟩ | ⟨rfl, rfl⟩ | ⟨rfl, rfl⟩ | ⟨rfl, rfl⟩ | ⟨rfl, rfl⟩ <;>
      exact step_window_load (by decide) hin (State.whenIdle_of_idle hb _)
  · rcases hset with ⟨rfl, hset, rfl⟩ | ⟨rfl, hset, rfl⟩ | ⟨rfl, hset, rfl⟩ | ⟨rfl, hset, rfl⟩ | ⟨rfl, hset, rfl⟩ <;>
      refine step_window_load (by decide) hin ((State.whenSet_of_set hset.symm _ _).trans ?_)
    case inr.inr.inr.inr => exact modeBit_word s.rpMode
    all_goals rfl

/-! The boot sequence (spec/70_reset_and_hazards.md R233, R234). -/

theorem run_of_step {s t : State} (h : step s = .next t) (k : Nat) :
    Sys2Proof.core.run (k + 1) s = Sys2Proof.core.run k t := by
  have h' : Sys2Proof.core.step s = .next t := h
  simp only [Host.Core.run, h']

/-- Setting the three configuration bits of a number below 2^11. -/
theorem or_configBits {low high : Nat} (hl : low < 2 ^ 8) (hh : high < 8) :
    (2 ^ 8 * high + low) ||| 0x700 = 2 ^ 8 * 7 + low := by
  have hbits : ∀ high < 8, 2 ^ 8 * high ||| 0x700 = 2 ^ 8 * 7 := by decide
  rw [Nat.two_pow_add_eq_or_of_lt hl, Nat.or_right_comm, hbits high hh, Nat.two_pow_add_eq_or_of_lt hl]

/-- STATUS of a state that differs in its configuration bits, which are all set. -/
theorem State.status_configured {s t : State} (he : t.err = s.err) (hb : t.busy = s.busy) (hq : t.txReq = s.txReq)
    (ho : t.overrun = s.overrun) (hs : t.stickyErr = s.stickyErr) (hip : t.hostIpSet = true)
    (hmac : t.hostMacSet = true) (hrp : t.rpSet = true) : t.status = s.status ||| 0x700 := by
  have herr := (errCode s.err).isLt
  have hbusy := s.busy.toNat_le
  have htx := s.txReq.toNat_le
  have hoverrun := s.overrun.toNat_le
  have hsticky := s.stickyErr.toNat_le
  have hip' := s.hostIpSet.toNat_le
  have hmac' := s.hostMacSet.toNat_le
  have hrp' := s.rpSet.toNat_le
  have hor := or_configBits
    (low := (errCode s.err).toNat + 16 * s.busy.toNat + 32 * s.txReq.toNat + 64 * s.overrun.toNat + 128 * s.stickyErr.toNat)
    (high := s.hostIpSet.toNat + 2 * s.hostMacSet.toNat + 4 * s.rpSet.toNat) (by omega) (by omega)
  apply BitVec.eq_of_toNat_eq
  rw [BitVec.toNat_or, State.status_toNat t, he, hb, hq, ho, hs, hip, hmac, hrp]
  refine Eq.trans ?_ (hor.symm.trans ?_)
  · simp only [Bool.toNat_true]
    omega
  · congr 1
    rw [s.status_toNat]
    omega

/-- `s` after its next input, a write of `v` to the register `r` of the idle block. -/
def State.afterStore (s : State) (r : WinReg) (v : Word) : State :=
  (State.idleWrite { s with inputs := s.inputs.tail } r v).tick

@[simp] theorem State.afterStore_inputs (s : State) (r : WinReg) (v : Word) :
    (s.afterStore r v).inputs = s.inputs.tail := by
  cases r <;> rfl

@[simp] theorem State.afterStore_blkBase (s : State) (r : WinReg) (v : Word) :
    (s.afterStore r v).blkBase = s.blkBase := by
  cases r <;> rfl

@[simp] theorem State.afterStore_busy (s : State) {r : WinReg} (hr : r ≠ .cmd) (v : Word) :
    (s.afterStore r v).busy = s.busy := by
  cases r with
  | cmd => exact absurd rfl hr
  | _ => rfl

theorem run_afterStore {s : State} {k : Nat} {r : WinReg} {v : Word} (n : Nat) (hb : s.busy = false) (hk : k < 64)
    (hr : regAt (4 * k) = r) (hin : s.inputs = .store (s.blkBase + 4 * k) 4 v.toNat :: s.inputs.tail) :
    Sys2Proof.core.run (n + 1) s = Sys2Proof.core.run n (s.afterStore r v) :=
  hr ▸ run_of_step (step_idle_store hb hk hin) n

/-- Settles O16: each write has its register's own effect on the idle block. -/
theorem bootSequenceConfigures : Obligations.BootSequenceConfigures := by
  intro s ip hi lo b hb hin
  refine ⟨(((s.afterStore .hostIp ip).afterStore .hostMacHi hi).afterStore .hostMacLo lo).afterStore .rpBar b, ?run,
    by simp [hin], ?status⟩
  case run =>
    refine Eq.trans (run_afterStore (k := 9) (r := .hostIp) (v := ip) 3 hb (by decide) rfl (by simp [hin])) ?_
    refine Eq.trans (run_afterStore (k := 10) (r := .hostMacHi) (v := hi) 2 (by simpa using hb) (by decide) rfl
      (by simp [hin])) ?_
    refine Eq.trans (run_afterStore (k := 11) (r := .hostMacLo) (v := lo) 1 (by simpa using hb) (by decide) rfl
      (by simp [hin])) ?_
    exact run_afterStore (k := 14) (r := .rpBar) (v := b) 0 (by simpa using hb) (by decide) rfl (by simp [hin])
  case status =>
    apply State.status_configured
    case hb => simp
    all_goals simp [State.afterStore, State.idleWrite, State.hostIpSet, State.hostMacSet, State.rpSet]

/-! Reset. -/

/-- Settles O17: the fields of the state after reset. -/
theorem resetStateIsAsStated : Obligations.ResetStateIsAsStated := by
  refine ⟨by decide, rfl, rfl, rfl, rfl, rfl, rfl, rfl, rfl, rfl, rfl, rfl, rfl, rfl, rfl, fun r hr => ?_, rfl, rfl⟩
  simp only [List.mem_cons, List.not_mem_nil, or_false] at hr
  rcases hr with rfl | rfl | rfl <;> rfl

/-- Settles O18: an idle block is not interrupted. -/
theorem resetOfAnIdleBlock : Obligations.ResetOfAnIdleBlock := by
  intro s rest hb hin
  refine (step_of_cons hin).trans ?_
  exact congrArg Host.Outcome.next (if_neg (ne_true_of_eq_false hb))

end Sys2Proof.Machine
end

section
/-! PROOFS, family 20_memory: the RAM a command touches, and the host's accesses to RAM. -/

namespace Sys2Proof.Machine

/-! The RAM a command touches (spec/70_reset_and_hazards.md R236). -/

/-- With no byte raced, the end of a command writes no RAM. -/
theorem State.conclude_mem {u : State} (hr : u.raced = []) (r : Except Err Result) : (u.conclude r).mem = u.mem := by
  rw [u.conclude_rest r, hr]
  rfl

/-- The end of a command makes no event. -/
theorem State.conclude_trace (u : State) (r : Except Err Result) : (u.conclude r).trace = u.trace := by
  rw [u.conclude_rest r]

/-- RAM and the events after a command are what its accesses have left. -/
theorem exec_ran {i : Instr} {s t : State} (hr : s.raced = []) (h : exec i s = .next t) :
    ∃ u, s.Ran (MayAccess i s) u ∧ t.mem = u.mem ∧ t.trace = u.trace := by
  obtain ⟨u, r, hran, -, hexec⟩ := exec_cases i s
  rw [hexec] at h
  cases h
  exact ⟨u, hran, State.conclude_mem (hran.raced.trans hr) r, u.conclude_trace r⟩

/-- An access that reads or writes the RAM byte `a` is to an admitted byte of the command's range. -/
theorem MayAccess.ram {i : Instr} {s : State} {x : Access} {v : Word} {a : Nat} {b : Byte} (hx : MayAccess i s x)
    (he : Event.ramWrite a b = x.event v ∨ Event.ramRead a b = x.event v) :
    usesByte i s a = true ∧ s.memOK a = true := by
  cases x with
  | read k =>
    obtain he | he := he <;> cases he
    exact hx
  | write k c =>
    obtain he | he := he <;> cases he
    exact hx.2
  | _ => obtain he | he := he <;> cases he

/-- Settles O28: the command's accesses are those of `MayAccess`. -/
theorem commandsWriteRamOnlyInTheirRange : Obligations.CommandsWriteRamOnlyInTheirRange := by
  intro i s t hs h
  obtain ⟨u, hran, hmem, htrace⟩ := exec_ran hs.2 h
  obtain ⟨evs, hevs, hacc⟩ := hran.events
  refine ⟨fun a ha => ?_, fun hw => ?_, evs, htrace.trans hevs, fun a b hab => ?_⟩
  · have hno : ∀ b, ¬ MayAccess i s (.write a b) := fun b hx => Bool.false_ne_true (ha.symm.trans hx.2.1)
    rw [hmem, hran.outside a hno]
  · have hno : ∀ a b, ¬ MayAccess i s (.write a b) := fun a b hx => Bool.false_ne_true (hw.symm.trans hx.1)
    exact hmem.trans (hran.noWrite hno)
  · rcases hab with hab | hab <;> obtain ⟨x, v, hx, he⟩ := hacc _ hab
    · exact hx.ram (.inl he)
    · exact hx.ram (.inr he)

/-! The host's accesses to RAM. -/

theorem step_ram_store {s : State} {a w v : Nat} {rest : List Input} (htouch : s.touchesWindow a w = false)
    (hbounds : s.inBounds a w = true) (hin : s.inputs = .store a w v :: rest) :
    step s = .next (State.hostWrite { s with inputs := rest } a w v).tick :=
  (step_of_cons hin).trans (State.hostStore_ram { s with inputs := rest } htouch hbounds)

theorem step_ram_load {s : State} {a w : Nat} {rest : List Input} (htouch : s.touchesWindow a w = false)
    (hbounds : s.inBounds a w = true) (hin : s.inputs = .load a w :: rest) :
    step s = .next (State.hostRead { s with inputs := rest } a w).tick :=
  (step_of_cons hin).trans (State.hostLoad_ram { s with inputs := rest } htouch hbounds)

/-- A host load in which no byte is raced finds the bytes as they stand. -/
theorem State.map_hostByte {s : State} {a w : Nat} (h : ∀ b, a ≤ b → b < a + w → b ∉ (s.hostRead a w).raced) :
    (span a w).map s.hostByte = s.mem.bytes a w := by
  simp only [span, Memory.bytes, List.map_map]
  refine List.map_congr_left fun k hk => ?_
  have hk := List.mem_range.1 hk
  have hb := h (a + k) (by omega) (by omega)
  rw [State.mem_hostRead_raced] at hb
  exact if_neg fun hraced => hb (hraced.imp_right fun hf => ⟨by omega, hf⟩)

/-! While no command is in progress (spec/20_memory.md R64). -/

/-- Bytes that only a command in progress would race on are not raced on an idle block. -/
theorem State.race_of_idle {s : State} {f : Nat → Bool} (hb : s.busy = false) (hf : ∀ b, f b = true → s.busy = true)
    (u : State) (as : List Nat) : u.race (as.filter f) = u := by
  have hno : as.filter f = [] := List.filter_eq_nil_iff.2 fun b _ h => Bool.false_ne_true (hb.symm.trans (hf b h))
  rw [hno, State.race, List.filter_nil, List.append_nil]

/-- A host store on an idle block changes RAM alone. -/
theorem State.hostWrite_of_idle {s : State} (hb : s.busy = false) (a w v : Nat) :
    s.hostWrite a w v = { s with mem := s.mem.writeBytes a (bytesLE w v) } :=
  State.race_of_idle hb (fun _ => State.inFlight_busy) _ _

/-- A host load on an idle block records the bytes as they stand. -/
theorem State.hostRead_of_idle {s : State} (hb : s.busy = false) (hr : s.raced = []) (a w : Nat) :
    s.hostRead a w = { s with hostReads := s.hostReads ++ [leNat (s.mem.bytes a w)] } := by
  have hread : s.hostRead a w = { s with hostReads := s.hostReads ++ [leNat ((span a w).map s.hostByte)] } :=
    State.race_of_idle hb (fun _ => State.inFlightWritten_busy) _ _
  have hbytes : (span a w).map s.hostByte = s.mem.bytes a w :=
    State.map_hostByte fun b _ _ => by
      rw [hread, hr]
      exact List.not_mem_nil
  rw [hread, hbytes]

/-- A little-endian write of `w` bytes leaves the low `w` bytes of the number. -/
theorem Memory.leNat_bytes_writeBytes {m : Memory} (hm : m.wf) (a w v : Nat) :
    leNat ((m.writeBytes a (bytesLE w v)).bytes a w) = v % 2 ^ (8 * w) := by
  have h := Memory.bytes_writeBytes_same hm a (bytesLE w v)
  rw [length_bytesLE] at h
  rw [h, leNat_bytesLE]

/-- Settles O55: on an idle block the host races on no byte. -/
theorem hostAccessesToRam : Obligations.HostAccessesToRam := by
  intro s a w v rest hb hr htouch hbounds
  refine ⟨fun hwf hin => ?_, fun hin => ?_⟩
  · have hstep := step_ram_store htouch hbounds hin
    rw [State.hostWrite_of_idle (s := { s with inputs := rest }) hb] at hstep
    exact ⟨_, hstep, rfl, Memory.leNat_bytes_writeBytes hwf a w v,
      fun b hout => Memory.read_writeBytes_outside _ _ (by rwa [length_bytesLE])⟩
  · rw [step_ram_load htouch hbounds hin, State.hostRead_of_idle (s := { s with inputs := rest }) hb hr]
    rfl

/-! While a command is in progress (spec/20_memory.md R63). -/

theorem State.inFlight_of_current {s : State} {i : Instr} (h : s.current = some i) (b : Nat) :
    s.inFlight b = usesByte i s b := by
  simp only [State.inFlight, h]

theorem State.inFlightWritten_of_current {s : State} {i : Instr} (h : s.current = some i) (b : Nat) :
    s.inFlightWritten b = (writesRam i && usesByte i s b) := by
  simp only [State.inFlightWritten, h]

/-- Settles O56: the bytes that the command in progress uses are those of the command that the latched word decodes
to. -/
theorem hostAccessesWhileBusyRaceOnUsedBytes : Obligations.HostAccessesWhileBusyRaceOnUsedBytes := by
  intro s i w' a w v rest hc hd htouch hbounds
  let s' : State := { s with inputs := rest }
  have hcur : s'.current = some i := State.current_of_cmd (s := s') hc hd
  refine ⟨fun hin => ?_, fun hin => ?_⟩
  · refine ⟨(s'.hostWrite a w v).tick, step_ram_store htouch hbounds hin, rfl, fun b => ?_⟩
    refine State.mem_hostWrite_raced.trans ?_
    rw [State.inFlight_of_current hcur, and_assoc]
    rfl
  · refine ⟨(s'.hostRead a w).tick, leNat ((span a w).map s'.hostByte), step_ram_load htouch hbounds hin, rfl,
      fun b => ?_, fun hno => congrArg leNat (State.map_hostByte hno)⟩
    refine State.mem_hostRead_raced.trans ?_
    rw [State.inFlightWritten_of_current hcur, Bool.and_eq_true, and_assoc]
    rfl

end Sys2Proof.Machine
end

section
/-! PROOFS, family 30_encoding: the encoder and the decoder. Both read the same table: the OP values of
spec/30_encoding.md R83 and, for each command, the fields it uses (R84). -/

namespace Sys2Proof

/-! The fields of a command's word. -/

/-- EN in the word of a command (R84). -/
def Instr.enBit : Instr → BitVec 1
  | .regFlag enable => BitVec.ofBool enable
  | _ => 0

/-- The selector (HDR, FIELD, CHUNK) in the word of a command (R84). -/
def Instr.selector : Instr → BitVec 4 × BitVec 8 × BitVec 4
  | .fieldGet hdr field chunk => (hdr, field, chunk)
  | .fieldSet hdr field chunk => (hdr, field, chunk)
  | _ => (0, 0, 0)

/-- The selector in a word. -/
def selectorFields (w : Word) : BitVec 4 × BitVec 8 × BitVec 4 := (hdrField w, fieldField w, chunkField w)

theorem encode_eq (i : Instr) :
    encode i = commandWord (opcode i) i.enBit i.selector.1 i.selector.2.1 i.selector.2.2 := by
  cases i <;> rfl

@[simp] theorem opField_encode (i : Instr) : opField (encode i) = opcode i := by rw [encode_eq, opField_commandWord]
@[simp] theorem enField_encode (i : Instr) : enField (encode i) = i.enBit := by rw [encode_eq, enField_commandWord]
@[simp] theorem rsv0Field_encode (i : Instr) : rsv0Field (encode i) = 0 := by rw [encode_eq, rsv0Field_commandWord]
@[simp] theorem rsv1Field_encode (i : Instr) : rsv1Field (encode i) = 0 := by rw [encode_eq, rsv1Field_commandWord]
@[simp] theorem selectorFields_encode (i : Instr) : selectorFields (encode i) = i.selector := by
  rw [selectorFields, encode_eq, hdrField_commandWord, fieldField_commandWord, chunkField_commandWord]

/-- A command's word is the only one without reserved bits that has the command's fields. -/
theorem encode_eq_of_fields {w : Word} {i : Instr} (h0 : rsv0Field w = 0) (h1 : rsv1Field w = 0)
    (hop : opField w = opcode i) (hen : enField w = i.enBit) (hsel : selectorFields w = i.selector) : encode i = w := by
  rw [encode_eq, ← hop, ← hen, ← hsel]
  exact commandWord_fields h0 h1

/-! What the decoder answers. -/

/-- The OP values of R83. -/
def opValues : List Nat := [0x01, 0x02, 0x10, 0x11, 0x12, 0x20, 0x21, 0x30, 0x31, 0x32, 0x33]

theorem opcode_mem_opValues (i : Instr) : (opcode i).toNat ∈ opValues := by
  cases i <;> simp [opcode, opValues]

/-- Every OP value of R83 is a command's. -/
theorem exists_opcode_eq {op : BitVec 8} (h : op.toNat ∈ opValues) : ∃ i, op = opcode i := by
  have key : ∀ n ∈ opValues, ∃ i, n = (opcode i).toNat := by
    simp only [opValues, List.forall_mem_cons, List.not_mem_nil, false_implies, implies_true, and_true]
    exact ⟨⟨.csumCompute, rfl⟩, ⟨.csumVerify, rfl⟩, ⟨.regRead, rfl⟩, ⟨.regWrite, rfl⟩, ⟨.regFlag true, rfl⟩,
      ⟨.fieldGet 0 0 0, rfl⟩, ⟨.fieldSet 0 0 0, rfl⟩, ⟨.classify, rfl⟩, ⟨.arpReply, rfl⟩, ⟨.icmpEchoReply, rfl⟩,
      ⟨.dispatch, rfl⟩⟩
  obtain ⟨i, hi⟩ := key _ h
  exact ⟨i, BitVec.eq_of_toNat_eq hi⟩

/-- How the decoder reads the fields other than OP of a word that has the OP value of `i` (R84, R85). -/
def readAs (i : Instr) (w : Word) : Except DecodeError Instr :=
  match i with
  | .regFlag _ => flagCommand w
  | .fieldGet _ _ _ => fieldCommand w .fieldGet
  | .fieldSet _ _ _ => fieldCommand w .fieldSet
  | _ => plainCommand w i

/-- Decoding a word without reserved bits and with the OP value of a command. -/
theorem decode_eq_readAs {w : Word} {i : Instr} (h0 : rsv0Field w = 0) (h1 : rsv1Field w = 0)
    (hop : opField w = opcode i) : decode w = readAs i w := by
  cases i <;> simp [decode, h0, h1, hop, opcode, readAs]

theorem decode_of_reserved {w : Word} (h : rsv0Field w ≠ 0 ∨ rsv1Field w ≠ 0 ∨ (opField w).toNat ∉ opValues) :
    ∃ e, decode w = .error e := by
  by_cases hrsv : rsv0Field w ≠ 0 ∨ rsv1Field w ≠ 0
  · exact ⟨.reservedBits, if_pos hrsv⟩
  · have hop : (opField w).toNat ∉ opValues := by tauto
    refine ⟨.reservedOp, (if_neg hrsv).trans ?_⟩
    simp_all [opValues]

/-- A legal word has no reserved bit and the OP value of a command. -/
theorem opField_of_decode {w : Word} {j : Instr} (h : decode w = .ok j) :
    rsv0Field w = 0 ∧ rsv1Field w = 0 ∧ ∃ i, opField w = opcode i := by
  have hres : ¬(rsv0Field w ≠ 0 ∨ rsv1Field w ≠ 0 ∨ (opField w).toNat ∉ opValues) := fun hres => by
    obtain ⟨e, he⟩ := decode_of_reserved hres
    rw [h] at he
    cases he
  simp only [not_or, not_not] at hres
  obtain ⟨h0, h1, hop⟩ := hres
  exact ⟨h0, h1, exists_opcode_eq hop⟩

/-- The command that a word is read as has the OP value it is read with. -/
theorem opcode_of_readAs {w : Word} {i j : Instr} (h : readAs i w = .ok j) : opcode j = opcode i := by
  unfold readAs at h
  split at h
  · obtain ⟨-, -, -, rfl⟩ := flagCommand_eq_ok.1 h
    rfl
  · obtain ⟨-, -, rfl⟩ := fieldCommand_eq_ok.1 h
    rfl
  · obtain ⟨-, -, rfl⟩ := fieldCommand_eq_ok.1 h
    rfl
  · obtain ⟨-, -, -, -, rfl⟩ := plainCommand_eq_ok.1 h
    rfl

/-- A word is read as the command whose fields it has, if that command is well formed. -/
theorem readAs_self {w : Word} {i : Instr} :
    readAs i w = .ok i ↔ enField w = i.enBit ∧ selectorFields w = i.selector ∧ i.wellFormed = true := by
  have hflag (enable : Bool) : (enField w == 1#1) = enable ↔ enField w = BitVec.ofBool enable := by
    generalize enField w = en
    revert en enable
    decide
  cases i with
  | regFlag enable =>
    simp only [readAs, flagCommand_eq_ok, Instr.enBit, Instr.selector, Instr.wellFormed, selectorFields]
    grind
  | fieldGet hdr field chunk =>
    simp only [readAs, fieldCommand_eq_ok, Instr.enBit, Instr.selector, Instr.wellFormed, selectorFields]
    grind
  | fieldSet hdr field chunk =>
    simp only [readAs, fieldCommand_eq_ok, Instr.enBit, Instr.selector, Instr.wellFormed, selectorFields]
    grind
  | _ => simp [readAs, plainCommand_eq_ok, Instr.enBit, Instr.selector, Instr.wellFormed, selectorFields]

/-- The decoder in one line: a word is the command `i` exactly when its reserved fields are 0, its other fields
are those of `i`, and `i` is well formed (R85). -/
theorem decode_eq_ok {w : Word} {i : Instr} :
    decode w = .ok i ↔
      rsv0Field w = 0 ∧ rsv1Field w = 0 ∧ opField w = opcode i ∧ enField w = i.enBit ∧
        selectorFields w = i.selector ∧ i.wellFormed = true := by
  constructor
  · intro h
    obtain ⟨h0, h1, j, hj⟩ := opField_of_decode h
    have hi : opField w = opcode i := by
      rw [decode_eq_readAs h0 h1 hj] at h
      exact hj.trans (opcode_of_readAs h).symm
    rw [decode_eq_readAs h0 h1 hi] at h
    exact ⟨h0, h1, hi, readAs_self.1 h⟩
  · rintro ⟨h0, h1, hop, hfields⟩
    rw [decode_eq_readAs h0 h1 hop]
    exact readAs_self.2 hfields

/-- Settles O1: the word of a command has the command's fields. -/
theorem decodeOfEncodeIsTheCommand : Obligations.DecodeOfEncodeIsTheCommand := fun i hwf =>
  decode_eq_ok.2 ⟨rsv0Field_encode i, rsv1Field_encode i, opField_encode i, enField_encode i, selectorFields_encode i, hwf⟩

/-- Settles O2: a legal word has the fields of the command it decodes to, and so is its word. -/
theorem legalWordsAreEncodings : Obligations.LegalWordsAreEncodings := by
  intro w i h
  obtain ⟨h0, h1, hop, hen, hsel, hwf⟩ := decode_eq_ok.1 h
  exact ⟨hwf, encode_eq_of_fields h0 h1 hop hen hsel⟩

/-! Which words are illegal. -/

theorem decode_error_iff {w : Word} : (∃ e, decode w = .error e) ↔ ¬∃ i, decode w = .ok i := by
  cases decode w <;> simp

/-- The legal words by their bits: no reserved bit, an OP of R83, 0 in the fields the command does not use (R84), and a
valid selector in a FIELD command (R85). -/
theorem exists_decode_iff {w : Word} :
    (∃ i, decode w = .ok i) ↔
      rsv0Field w = 0 ∧ rsv1Field w = 0 ∧ (opField w).toNat ∈ opValues ∧
        ((opField w).toNat ≠ 0x12 → enField w = 0) ∧
        ((opField w).toNat ∈ [0x20, 0x21] →
          Machine.validSelector (hdrField w) (fieldField w) (chunkField w) = true) ∧
        ((opField w).toNat ∉ [0x20, 0x21] → hdrField w = 0 ∧ fieldField w = 0 ∧ chunkField w = 0) := by
  constructor
  · rintro ⟨i, h⟩
    obtain ⟨h0, h1, hop, hen, hsel, hwf⟩ := decode_eq_ok.1 h
    rw [hop]
    refine ⟨h0, h1, opcode_mem_opValues i, ?_⟩
    cases i <;> simp_all [opcode, Instr.enBit, Instr.selector, selectorFields, Instr.wellFormed]
  · rintro ⟨h0, h1, hop, hen, hvalid, hzero⟩
    obtain ⟨i, hi⟩ := exists_opcode_eq hop
    rw [decode_eq_readAs h0 h1 hi]
    rw [hi] at hen hvalid hzero
    cases i <;> simp_all [opcode, readAs, plainCommand_eq_ok, flagCommand_eq_ok, fieldCommand_eq_ok]

end Sys2Proof

namespace Sys2Proof.Machine

/-- The block's turn on an illegal word raises ILLEGAL_CMD and does nothing else (R85). -/
theorem State.blockStep_illegal {s : State} {w : Word} {e : DecodeError} (hc : s.cmd = some w)
    (hd : decode w = .error e) : s.blockStep = .next (s.failed .illegalCmd) := by
  simp only [State.blockStep_busy hc, hd]
  rfl

/-- Settles O3: the illegal words are those that are no command's, and with no input left the block makes its
turn. -/
theorem illegalWordsEndWithIllegalCmd : Obligations.IllegalWordsEndWithIllegalCmd := by
  refine fun w => ⟨?_, fun s hin hc ⟨e, hd⟩ => (step_of_nil hin).trans (State.blockStep_illegal hc hd)⟩
  change _ ↔ rsv0Field w ≠ 0 ∨ rsv1Field w ≠ 0 ∨ (opField w).toNat ∉ opValues ∨
    ((opField w).toNat ≠ 0x12 ∧ enField w ≠ 0) ∨
    ((opField w).toNat ∈ [0x20, 0x21] ∧ validSelector (hdrField w) (fieldField w) (chunkField w) = false) ∨
    ((opField w).toNat ∉ [0x20, 0x21] ∧ (hdrField w ≠ 0 ∨ fieldField w ≠ 0 ∨ chunkField w ≠ 0))
  rw [decode_error_iff, exists_decode_iff, ← Bool.not_eq_true]
  tauto

/-- Settles O5: the decoder computes each of the words. -/
theorem exampleWordsDecodeAsStated : Obligations.ExampleWordsDecodeAsStated :=
  ⟨rfl, rfl, rfl, rfl, ⟨_, rfl⟩, ⟨_, rfl⟩, ⟨_, rfl⟩⟩

/-! Pseudo-instructions. -/

/-- The word that R89 writes for a FIELD command is the word with EN = 0. -/
theorem selectorWord_eq (h : BitVec 4) (f : BitVec 8) (c : BitVec 4) (op : BitVec 8) :
    selectorWord h f c (op.setWidth 32) = commandWord op 0 h f c := by
  simp [selectorWord, commandWord]

/-- Settles O57: the words of R89 are those of R81 and R83. -/
theorem pseudoInstructionsIssueTheirCommand : Obligations.PseudoInstructionsIssueTheirCommand := by
  have hget (a h f c) : (Pseudo.fieldGet a h f c).expand = [.wr .arg0 a, .cmd (encode (.fieldGet h f c)), .poll] :=
    congrArg (command1 a) (selectorWord_eq h f c 0x20)
  have hset (a h f c v) :
      (Pseudo.fieldSet a h f c v).expand = [.wr .arg0 a, .wr .arg1 v, .cmd (encode (.fieldSet h f c)), .poll] :=
    congrArg (command2 a v) (selectorWord_eq h f c 0x21)
  exact ⟨fun _ _ => rfl, fun _ _ => rfl, fun _ => rfl, fun _ _ => rfl, fun _ _ => rfl, fun _ _ => rfl, hget, hset,
    fun _ _ => rfl, fun _ _ => rfl, fun _ _ => rfl, fun _ _ => rfl⟩

end Sys2Proof.Machine
end

section
/-! PROOFS, family 30_encoding: the common checks of the commands whose ARG1 is a length. -/

namespace Sys2Proof.Machine

/-- The commands whose ARG1 is a length (spec/30_encoding.md R82). -/
def lengthCommands : List Instr := [.csumCompute, .csumVerify, .classify, .arpReply, .icmpEchoReply, .dispatch]

/-- The command needs HOST_IP (spec/43_dispatch.md R161). -/
def needsIp (i : Instr) : Bool := decide (i ∈ [Instr.classify, .arpReply, .dispatch])

/-- The command needs HOST_MAC (spec/43_dispatch.md R161). -/
def needsMac (i : Instr) : Bool := decide (i ∈ [Instr.arpReply, .dispatch])

/-- The checksum commands make the checks of a frame command that needs no configuration. -/
theorem State.rangeCheck_eq_frameCheck (s : State) : s.rangeCheck = s.frameCheck false false := by
  simp [State.rangeCheck, State.frameCheck]

/-- A command with a length begins with the checks of its operands and of the configuration it needs. -/
theorem program_of_length {i : Instr} (hi : i ∈ lengthCommands) (s : State) :
    ∃ c k, program i s = .check c k ∧ c = s.frameCheck (needsIp i) (needsMac i) := by
  simp only [lengthCommands, List.mem_cons, List.not_mem_nil, or_false] at hi
  rcases hi with rfl | rfl | rfl | rfl | rfl | rfl
  · exact ⟨_, _, rfl, s.rangeCheck_eq_frameCheck⟩
  · exact ⟨_, _, rfl, s.rangeCheck_eq_frameCheck⟩
  · exact ⟨_, _, rfl, rfl⟩
  · exact ⟨_, _, rfl, rfl⟩
  · exact ⟨_, _, rfl, rfl⟩
  · exact ⟨_, _, rfl, rfl⟩

/-- A command with a length whose checks fail ends with their error and has no other effect. -/
theorem exec_of_frameCheck_error {i : Instr} {s : State} {e : Err} (hs : s.Fresh) (hi : i ∈ lengthCommands)
    (h : s.frameCheck (needsIp i) (needsMac i) = .error e) : exec i s = .next (s.failed e) := by
  obtain ⟨c, k, hprogram, hc⟩ := program_of_length hi s
  rw [exec_eq, hprogram, hc, State.execute_fresh hs, Prog.runAll_check, h]
  exact congrArg Host.Outcome.next (State.conclude_error hs.2 e)

/-! The checks, in their order (spec/60_exceptions.md R202). -/

theorem State.frameCheck_illegalCmd {s : State} (h : s.lenHigh ≠ 0) (needIp needMac : Bool) :
    s.frameCheck needIp needMac = .error .illegalCmd := if_pos h

theorem State.frameCheck_notConfigured {s : State} (h : s.lenHigh = 0) {needIp needMac : Bool}
    (hcfg : (needIp = true ∧ s.hostIpSet = false) ∨ (needMac = true ∧ s.hostMacSet = false)) :
    s.frameCheck needIp needMac = .error .notConfigured := by
  simp [State.frameCheck, h, hcfg]

theorem State.frameCheck_busFault {s : State} (h : s.lenHigh = 0) {needIp needMac : Bool}
    (hip : needIp = true → s.hostIpSet = true) (hmac : needMac = true → s.hostMacSet = true)
    (hin : s.inBounds s.addr s.len = false) : s.frameCheck needIp needMac = .error .busFault := by
  simp [State.frameCheck, h, hin]
  tauto

/-- Settles O24: every such command begins with the one `frameCheck`, told which configuration it needs. -/
theorem lengthCommandsCheckInOrder : Obligations.LengthCommandsCheckInOrder := by
  intro s hs
  have hbus {i : Instr} (h : s.lenHigh = 0) (hin : s.inBounds s.addr s.len = false) (hi : i ∈ lengthCommands)
      (hip : needsIp i = true → s.hostIpSet = true) (hmac : needsMac i = true → s.hostMacSet = true) :
      exec i s = .next (s.failed .busFault) :=
    exec_of_frameCheck_error hs hi (State.frameCheck_busFault h hip hmac hin)
  refine ⟨fun h i hi => ?_, fun h hip i hi => ?_, fun h hmac i hi => ?_, fun h hin => ⟨fun i hi => ?_, fun hip => ?_,
    fun hip hmac i hi => ?_⟩⟩
  · exact exec_of_frameCheck_error hs hi (State.frameCheck_illegalCmd h _ _)
  · obtain ⟨hlen, hneeds⟩ : i ∈ lengthCommands ∧ needsIp i = true := by
      revert i; decide
    exact exec_of_frameCheck_error hs hlen (State.frameCheck_notConfigured h (.inl ⟨hneeds, hip⟩))
  · obtain ⟨hlen, hneeds⟩ : i ∈ lengthCommands ∧ needsMac i = true := by
      revert i; decide
    exact exec_of_frameCheck_error hs hlen (State.frameCheck_notConfigured h (.inr ⟨hneeds, hmac⟩))
  · obtain ⟨hlen, hip, hmac⟩ : i ∈ lengthCommands ∧ needsIp i = false ∧ needsMac i = false := by
      revert i; decide
    exact hbus h hin hlen (by simp [hip]) (by simp [hmac])
  · exact hbus h hin (by decide) (fun _ => hip) (by simp [needsMac])
  · have hlen : i ∈ lengthCommands := by
      revert i; decide
    exact hbus h hin hlen (fun _ => hip) (fun _ => hmac)

end Sys2Proof.Machine
end

section
/-! PROOFS, family 40_register_port: the checks of the register port, its runs in both modes, and its commands. -/

namespace Sys2Proof.Machine

/-! A command that begins with checks. -/

/-- A command whose checks fail ends with their error and has no other effect. -/
theorem exec_of_check_error {α : Type} {i : Instr} {s : State} {c : Except Err α} {k : α → Prog} {e : Err}
    (hs : s.Fresh) (hprogram : program i s = .check c k) (hc : c = .error e) : exec i s = .next (s.failed e) := by
  rw [exec_eq, hprogram, State.execute_fresh hs, Prog.runAll_check, hc]
  exact congrArg Host.Outcome.next (State.conclude_error hs.2 e)

/-- A command whose checks hold, and the rest of which runs to a result, delivers that result. -/
theorem exec_of_check_ok {α : Type} {i : Instr} {s t : State} {c : Except Err α} {k : α → Prog} {a : α} {r : Result}
    (hs : s.Fresh) (hprogram : program i s = .check c k) (hc : c = .ok a)
    (hrun : (k a).runAll s = (Prog.done r).runAll t) (ht : t.raced = []) : exec i s = .next (t.deliver r).ended := by
  rw [exec_eq, hprogram, State.execute_fresh hs, Prog.runAll_check, hc]
  simp only [hrun, Prog.runAll, State.conclude_ok ht]

/-! The checks, in their order (spec/40_register_port.md R101, R102). -/

/-- The commands of the register port. -/
def portCommands (en : Bool) : List Instr := [.regRead, .regWrite, .regFlag en]

/-- A command of the register port begins with `regCheck`. -/
theorem program_of_port {i : Instr} {en : Bool} (hi : i ∈ portCommands en) (s : State) :
    ∃ k, program i s = .check s.regCheck k := by
  simp only [portCommands, List.mem_cons, List.not_mem_nil, or_false] at hi
  rcases hi with rfl | rfl | rfl
  · exact ⟨_, rfl⟩
  · exact ⟨_, rfl⟩
  · exact ⟨_, rfl⟩

theorem State.regCheck_notConfigured {s : State} (hset : s.rpSet = false) : s.regCheck = .error .notConfigured := by
  simp [State.regCheck, hset]

theorem State.regCheck_regAddr {s : State} (hset : s.rpSet = true) (hmode : s.rpMode = .memoryMapped)
    (h : (s.rpBase.toNat + s.arg0.toNat) % 4 ≠ 0 ∨ 2 ^ 32 < s.rpBase.toNat + s.arg0.toNat + 4) :
    s.regCheck = .error .regAddr := by
  simp only [State.regCheck, hset, hmode, Bool.not_true, Bool.false_eq_true, if_false]
  exact if_pos h

theorem State.regCheck_portRange {s : State} (hset : s.rpSet = true) (hmode : s.rpMode = .portMapped)
    (h : 0xFFF8 < s.rpBase.toNat) : s.regCheck = .error .portRange := by
  simp only [State.regCheck, hset, hmode, Bool.not_true, Bool.false_eq_true, if_false]
  exact if_pos h

theorem State.regCheck_memory {s : State} (hset : s.rpSet = true) (hmode : s.rpMode = .memoryMapped)
    (halign : (s.rpBase.toNat + s.arg0.toNat) % 4 = 0) (hfit : s.rpBase.toNat + s.arg0.toNat + 4 ≤ 2 ^ 32) :
    s.regCheck = .ok () :=
  State.regCheck_eq_ok.2 ⟨hset, .inl ⟨hmode, halign, hfit⟩⟩

theorem State.regCheck_port {s : State} (hset : s.rpSet = true) (hmode : s.rpMode = .portMapped)
    (hfit : s.rpBase.toNat ≤ 0xFFF8) : s.regCheck = .ok () :=
  State.regCheck_eq_ok.2 ⟨hset, .inr ⟨hmode, hfit⟩⟩

/-- Settles O36: each command of the register port begins with the one `regCheck`. -/
theorem registerPortErrors : Obligations.RegisterPortErrors := by
  intro s en hs i hi
  obtain ⟨k, hprogram⟩ := program_of_port hi s
  exact ⟨fun hset => exec_of_check_error hs hprogram (State.regCheck_notConfigured hset),
    fun hset hmode h => exec_of_check_error hs hprogram (State.regCheck_regAddr hset hmode h),
    fun hset hmode h => exec_of_check_error hs hprogram (State.regCheck_portRange hset hmode h)⟩

/-! Where the accesses go (spec/40_register_port.md R103). -/

theorem State.cell_eq (s : State) : s.cell = BitVec.ofNat 32 (s.rpBase.toNat + s.arg0.toNat) := by
  rw [BitVec.ofNat_add, BitVec.ofNat_toNat, BitVec.ofNat_toNat, BitVec.setWidth_eq, BitVec.setWidth_eq]
  rfl

theorem State.addressPort_eq (s : State) : s.addressPort = BitVec.ofNat 16 s.rpBase.toNat := by
  rw [BitVec.ofNat_toNat, State.addressPort, BitVec.setWidth_eq_extractLsb' (by decide)]

theorem State.dataPort_eq (s : State) : s.dataPort = BitVec.ofNat 16 (s.rpBase.toNat + 4) := by
  rw [State.dataPort, State.addressPort_eq, BitVec.ofNat_add]
  rfl

/-! What the device answers (spec/40_register_port.md R105). -/

theorem State.mmioAnswer_of_cons {s : State} {v : Word} {rest : List Word} (h : s.mmioAnswers = v :: rest) (a : Word) :
    s.mmioAnswer a = v := by
  simp only [State.mmioAnswer, h]

theorem State.portAnswer_of_cons {s : State} {v : Word} {rest : List Word} (h : s.portAnswers = v :: rest) (p : Port) :
    s.portAnswer p = v := by
  simp only [State.portAnswer, h]

/-- What the device answers at the data port, once the address port has been written. -/
def State.dataPortAnswer (s : State) : Word :=
  (s.saw [.bus (.portWrite s.addressPort s.reg)]).portAnswer s.dataPort

theorem State.dataPortAnswer_of_cons {s : State} {v : Word} {rest : List Word} (h : s.portAnswers = v :: rest) :
    s.dataPortAnswer = v :=
  State.portAnswer_of_cons (by simpa using h) _

/-! `RegRead` and `RegWrite` run, in each mode (spec/40_register_port.md R103, R104). -/

theorem State.runAll_regRead_memory {s : State} (hmode : s.rpMode = .memoryMapped) (k : Word → Prog) :
    (s.regRead k).runAll s = (k (s.mmioAnswer s.cell)).runAll
      (State.saw { s with mmioAnswers := s.mmioAnswers.tail }
        [.bus (.mmioRead s.cell (s.mmioAnswer s.cell)), .log (.regAccess s.reg .read (s.mmioAnswer s.cell))]) := by
  simp [State.regRead, hmode, Prog.runAll, State.answer, State.perform, State.effect, Access.event, State.saw]

theorem State.runAll_regRead_port {s : State} (hmode : s.rpMode = .portMapped) (k : Word → Prog) :
    (s.regRead k).runAll s = (k s.dataPortAnswer).runAll
      (State.saw { s with portAnswers := s.portAnswers.tail }
        [.bus (.portWrite s.addressPort s.reg), .bus (.portRead s.dataPort s.dataPortAnswer),
          .log (.regAccess s.reg .read s.dataPortAnswer)]) := by
  simp [State.regRead, hmode, Prog.runAll, State.answer, State.perform, State.effect, Access.event, State.saw,
    State.dataPortAnswer]

theorem State.runAll_regWrite_memory {s : State} (hmode : s.rpMode = .memoryMapped) (v : Word) (p : Prog) (t : State) :
    (s.regWrite v p).runAll t =
      p.runAll (t.saw [.bus (.mmioWrite s.cell v), .log (.regAccess s.reg .write v)]) := by
  simp [State.regWrite, hmode, Prog.runAll, State.perform, State.effect, Access.event, State.saw]

theorem State.runAll_regWrite_port {s : State} (hmode : s.rpMode = .portMapped) (v : Word) (p : Prog) (t : State) :
    (s.regWrite v p).runAll t =
      p.runAll (t.saw [.bus (.portWrite s.addressPort s.reg), .bus (.portWrite s.dataPort v),
        .log (.regAccess s.reg .write v)]) := by
  simp [State.regWrite, hmode, Prog.runAll, State.perform, State.effect, Access.event, State.saw]

/-- Settles O37: the checks hold, and `RegRead` makes the accesses of its mode. -/
theorem regReadReturnsTheDeviceAnswer : Obligations.RegReadReturnsTheDeviceAnswer := by
  refine ⟨rfl, fun s hs hset => ?_⟩
  rw [← State.cell_eq, ← State.addressPort_eq, ← State.dataPort_eq]
  refine ⟨fun hmode halign hfit => ⟨_, fun _ _ h => State.mmioAnswer_of_cons h s.cell, ?_⟩,
    fun hmode hfit => ⟨_, fun _ _ h => State.dataPortAnswer_of_cons h, ?_⟩⟩
  · exact exec_of_check_ok (i := .regRead) hs rfl (State.regCheck_memory hset hmode halign hfit)
      (State.runAll_regRead_memory hmode _) hs.2
  · exact exec_of_check_ok (i := .regRead) hs rfl (State.regCheck_port hset hmode hfit)
      (State.runAll_regRead_port hmode _) hs.2

/-- Settles O38: the checks hold, and `RegWrite` makes the accesses of its mode. -/
theorem regWriteWritesTheDevice : Obligations.RegWriteWritesTheDevice := by
  refine ⟨rfl, fun s hs hset => ?_⟩
  rw [← State.cell_eq, ← State.addressPort_eq, ← State.dataPort_eq]
  refine ⟨fun hmode halign hfit => ?_, fun hmode hfit => ?_⟩
  · exact exec_of_check_ok (i := .regWrite) hs rfl (State.regCheck_memory hset hmode halign hfit)
      (State.runAll_regWrite_memory hmode _ _ s) hs.2
  · exact exec_of_check_ok (i := .regWrite) hs rfl (State.regCheck_port hset hmode hfit)
      (State.runAll_regWrite_port hmode _ _ s) hs.2

/-- R109 bit by bit: the mask's bits become `enable`, the others stay. -/
theorem flagValue_getLsbD (enable : Bool) (v mask : Word) (k : Nat) :
    (flagValue enable v mask).getLsbD k = if mask.getLsbD k then enable else v.getLsbD k := by
  have hv : v.getLsbD k = true → k < 32 := BitVec.lt_of_getLsbD
  cases enable
  · cases hm : mask.getLsbD k <;> simp_all [flagValue]
  · cases hm : mask.getLsbD k <;> simp [flagValue, hm]

/-- Settles O39: the checks hold, and `RegWrite` of the flagged value follows `RegRead`. -/
theorem regFlagSetsOrClearsTheMask : Obligations.RegFlagSetsOrClearsTheMask := by
  refine ⟨rfl, rfl, fun s en hs hset => ?_⟩
  rw [← State.cell_eq, ← State.addressPort_eq, ← State.dataPort_eq]
  refine ⟨fun hmode halign hfit => ⟨_, _, fun _ _ h => State.mmioAnswer_of_cons h s.cell,
      flagValue_getLsbD en _ s.arg1, ?_⟩,
    fun hmode hfit => ⟨_, _, fun _ _ h => State.dataPortAnswer_of_cons h, flagValue_getLsbD en _ s.arg1, ?_⟩⟩
  · have hrun := State.runAll_regRead_memory hmode fun v =>
      s.regWrite (flagValue en v s.mask) (.done (.value (flagValue en v s.mask)))
    rw [State.runAll_regWrite_memory hmode, State.saw_saw] at hrun
    exact exec_of_check_ok (i := .regFlag en) hs rfl (State.regCheck_memory hset hmode halign hfit) hrun hs.2
  · have hrun := State.runAll_regRead_port hmode fun v =>
      s.regWrite (flagValue en v s.mask) (.done (.value (flagValue en v s.mask)))
    rw [State.runAll_regWrite_port hmode, State.saw_saw] at hrun
    exact exec_of_check_ok (i := .regFlag en) hs rfl (State.regCheck_port hset hmode hfit) hrun hs.2

end Sys2Proof.Machine
end

section
/-! PROOFS, family 41_checksum: the fold as a residue, the word sum byte by byte, what makes a range valid, and
the commands CSUM_COMPUTE and CSUM_VERIFY. -/

namespace Sys2Proof.Machine

/-! The fold is the residue modulo 0xFFFF, with 0xFFFF in the place of 0 unless the sum is 0 (spec/41_checksum.md
R121, R122). -/

theorem carryStep_eq (sum : Nat) : carryStep sum = sum % 65536 + sum / 65536 := by
  rw [carryStep, Nat.shiftRight_eq_div_pow, Nat.and_two_pow_sub_one_eq_mod sum 16]

theorem foldLoop_of_lt {sum : Nat} (h : sum < 65536) (fuel : Nat) : foldLoop fuel sum = sum := by
  cases fuel with
  | zero => rfl
  | succ fuel => exact if_pos (Nat.shiftRight_eq_zero sum 16 h)

theorem foldLoop_of_ge {sum : Nat} (h : 65536 ≤ sum) (fuel : Nat) :
    foldLoop (fuel + 1) sum = foldLoop fuel (sum % 65536 + sum / 65536) := by
  rw [← carryStep_eq]
  refine if_neg ?_
  rw [Nat.shiftRight_eq_div_pow]
  omega

/-- Each pass makes a sum of 65536 or more smaller, so `sum` passes are enough, and keeps it modulo 0xFFFF. -/
theorem foldLoop_eq_residue : ∀ {fuel sum : Nat}, sum ≤ fuel →
    foldLoop fuel sum = if sum = 0 then 0 else (sum - 1) % 0xFFFF + 1 := by
  intro fuel
  induction fuel with
  | zero =>
    intro sum h
    exact (Nat.le_zero.1 h).trans (if_pos (Nat.le_zero.1 h)).symm
  | succ fuel ih =>
    intro sum h
    by_cases hsum : sum < 65536
    · rw [foldLoop_of_lt hsum]
      split <;> omega
    · rw [foldLoop_of_ge (by omega), ih (by omega)]
      split_ifs <;> omega

theorem fold_eq_residue (sum : Nat) : fold sum = if sum = 0 then 0 else (sum - 1) % 0xFFFF + 1 :=
  foldLoop_eq_residue le_rfl

theorem fold_of_lt {sum : Nat} (h : sum < 65536) : fold sum = sum := foldLoop_of_lt h sum

/-- R121 as an equation: a pass of the loop does not change what the loop ends with. -/
theorem fold_eq_fold_pass (sum : Nat) :
    fold sum = if sum / 65536 = 0 then sum else fold (sum % 65536 + sum / 65536) := by
  simp only [fold_eq_residue]
  split_ifs <;> omega

theorem fold_le (sum : Nat) : fold sum ≤ 0xFFFF := by
  rw [fold_eq_residue]
  split <;> omega

theorem fold_eq_zero {sum : Nat} : fold sum = 0 ↔ sum = 0 := by
  rw [fold_eq_residue]
  split <;> omega

theorem fold_mod (sum : Nat) : fold sum % 0xFFFF = sum % 0xFFFF := by
  rw [fold_eq_residue]
  split <;> omega

theorem fold_eq_ffff {sum : Nat} : fold sum = 0xFFFF ↔ 0 < sum ∧ sum % 0xFFFF = 0 := by
  rw [fold_eq_residue]
  split <;> omega

theorem fold_add (x y : Nat) : fold (x + y) = fold (fold x + fold y) := by
  simp only [fold_eq_residue]
  split_ifs <;> omega

/-- A 32-bit sum is folded after two passes. -/
theorem foldLoop_two {sum : Nat} (h : sum < 2 ^ 32) : foldLoop 2 sum = fold sum := by
  by_cases h1 : sum < 65536
  · rw [foldLoop_of_lt h1, fold_of_lt h1]
  rw [foldLoop_of_ge (by omega), fold_eq_fold_pass, if_neg (by omega)]
  generalize hpass : sum % 65536 + sum / 65536 = pass
  by_cases h2 : pass < 65536
  · rw [foldLoop_of_lt h2, fold_of_lt h2]
  · rw [foldLoop_of_ge (by omega), foldLoop_of_lt (by omega), fold_eq_fold_pass, if_neg (by omega),
      fold_of_lt (by omega)]

/-- Adding the checksum of a sum to it (R123) makes it fold to 0xFFFF. -/
theorem fold_add_complement (sum : Nat) : fold (sum + (0xFFFF - fold sum)) = 0xFFFF := by
  rw [fold_eq_ffff, fold_eq_residue]
  split <;> omega

/-! The word sum, byte by byte (R120): a byte counts once at an even offset of the range and 256 times at an odd
one. -/

/-- What one unit of the byte at offset `k` of a range adds to the word sum. -/
def byteWeight (k : Nat) : Nat := if k % 2 = 0 then 1 else 256

/-- The part of a range's word sum that the bytes `b` from its offset `k` on make up. -/
def wordSumFrom : Nat → List Byte → Nat
  | _, [] => 0
  | k, b :: bs => byteWeight k * b.toNat + wordSumFrom (k + 1) bs

theorem byteWeight_of_even {k : Nat} (h : k % 2 = 0) : byteWeight k = 1 := if_pos h

theorem byteWeight_of_odd {k : Nat} (h : k % 2 = 1) : byteWeight k = 256 := if_neg (by omega)

theorem byteWeight_cases (k : Nat) : byteWeight k = 1 ∨ byteWeight k = 256 :=
  (Nat.mod_two_eq_zero_or_one k).imp byteWeight_of_even byteWeight_of_odd

theorem word_eq (lo hi : Byte) : lo.toNat ||| hi.toNat <<< 8 = lo.toNat + 256 * hi.toNat := by
  rw [Nat.or_comm, ← Nat.shiftLeft_add_eq_or_of_lt lo.isLt, Nat.shiftLeft_eq]
  omega

theorem wordSumFrom_even {k : Nat} (h : k % 2 = 0) (b : List Byte) : wordSumFrom k b = wordSum b := by
  induction b using wordSum.induct generalizing k with
  | case1 => rfl
  | case2 b => simp [wordSumFrom, wordSum, byteWeight_of_even h]
  | case3 lo hi rest ih =>
    rw [wordSum, word_eq, wordSumFrom, wordSumFrom, ih (by omega), byteWeight_of_even h, byteWeight_of_odd (by omega)]
    omega

theorem wordSum_eq_wordSumFrom (b : List Byte) : wordSum b = wordSumFrom 0 b := (wordSumFrom_even rfl b).symm

theorem wordSumFrom_append (b c : List Byte) (k : Nat) :
    wordSumFrom k (b ++ c) = wordSumFrom k b + wordSumFrom (k + b.length) c := by
  induction b generalizing k with
  | nil => simp [wordSumFrom]
  | cons x b ih =>
    simp only [List.cons_append, wordSumFrom, ih, List.length_cons, Nat.add_assoc, Nat.add_comm 1]

theorem wordSum_append {b : List Byte} (h : b.length % 2 = 0) (c : List Byte) :
    wordSum (b ++ c) = wordSum b + wordSum c := by
  rw [wordSum_eq_wordSumFrom, wordSumFrom_append, Nat.zero_add, wordSumFrom_even rfl, wordSumFrom_even h]

/-- Putting other bytes of the same number in the place of some changes the word sum by what they add. -/
theorem wordSum_replace {x y : List Byte} (h : x.length = y.length) (before after : List Byte) :
    wordSum (before ++ x ++ after) + wordSumFrom before.length y =
      wordSum (before ++ y ++ after) + wordSumFrom before.length x := by
  simp only [wordSum_eq_wordSumFrom, wordSumFrom_append, List.length_append, Nat.zero_add, h]
  omega

theorem wordSum_le (b : List Byte) : wordSum b ≤ 0xFFFF * (b.length / 2) + 0xFF * (b.length % 2) := by
  induction b using wordSum.induct with
  | case1 => exact Nat.zero_le _
  | case2 b => simpa [wordSum] using Nat.le_of_lt_succ b.isLt
  | case3 lo hi rest ih =>
    have hlo := lo.isLt
    have hhi := hi.isLt
    rw [wordSum, word_eq, List.length_cons, List.length_cons]
    omega

/-- Settles O31: the fold is a residue, and the word sum is bounded word by word. -/
theorem foldLaws : Obligations.FoldLaws := by
  refine ⟨fold_eq_fold_pass, fold_le, fun b hlen => ?_, fun _ => fold_eq_zero, fun sum hsum => ?_, fun _ => foldLoop_two,
    fun _ => fold_eq_ffff, fun _ c hlen => wordSum_append hlen c, fold_add⟩
  · have hle := wordSum_le b
    omega
  · exact ⟨Nat.pos_of_ne_zero (mt fold_eq_zero.1 hsum.ne'), fold_le sum, fold_mod sum⟩

/-- Settles O34: the two fields and the bytes between them all start at even offsets, before and after. -/
theorem swappedFieldsKeepTheWordSum : Obligations.SwappedFieldsKeepTheWordSum := by
  intro a x b y c ha hb hx hxy
  have hy : y.length % 2 = 0 := hxy ▸ hx
  simp only [List.append_assoc, wordSum_append ha, wordSum_append hb, wordSum_append hx, wordSum_append hy]
  omega

/-! What makes a range valid (R123). -/

theorem valid_iff_fold {b : List Byte} : valid b = true ↔ fold (wordSum b) = 0xFFFF := beq_iff_eq

theorem valid_iff {b : List Byte} : valid b = true ↔ 0 < wordSum b ∧ wordSum b % 0xFFFF = 0 :=
  valid_iff_fold.trans fold_eq_ffff

/-- A field that adds the checksum to the word sum makes its range valid. -/
theorem valid_of_field {before after : List Byte} {x y : Byte}
    (h : byteWeight before.length * x.toNat + byteWeight (before.length + 1) * y.toNat =
      checksum (before ++ [0, 0] ++ after)) : valid (before ++ [x, y] ++ after) = true := by
  have hreplace := wordSum_replace (x := [x, y]) (y := [0, 0]) rfl before after
  have hsum : wordSum (before ++ [x, y] ++ after) =
      wordSum (before ++ [0, 0] ++ after) + checksum (before ++ [0, 0] ++ after) := by
    have hzero : (0 : Byte).toNat = 0 := rfl
    simp only [wordSumFrom, hzero] at hreplace
    omega
  rw [valid_iff_fold, hsum]
  exact fold_add_complement _

theorem checksum_lt (b : List Byte) : checksum b < 2 ^ 16 := by
  unfold checksum
  omega

theorem lowByte_toNat (c : BitVec 16) : (c.extractLsb' 0 8).toNat = c.toNat % 256 := by
  rw [BitVec.extractLsb'_toNat, Nat.shiftRight_zero]

theorem highByte_toNat (c : BitVec 16) : (c.extractLsb' 8 8).toNat = c.toNat / 256 := by
  rw [BitVec.extractLsb'_toNat, Nat.shiftRight_eq_div_pow]
  omega

/-- Settles O32: at either parity of the offset the low byte lands where a byte weighs 1 and the high byte where it
weighs 256. -/
theorem embeddedChecksumIsValid : Obligations.EmbeddedChecksumIsValid := by
  intro before after c
  have hc : c.toNat = checksum (before ++ [0, 0] ++ after) :=
    (BitVec.toNat_ofNat _ _).trans (Nat.mod_eq_of_lt (checksum_lt _))
  refine ⟨fun h => valid_of_field ?_, fun h => valid_of_field ?_⟩
  · rw [byteWeight_of_even h, byteWeight_of_odd (by omega), lowByte_toNat, highByte_toNat]
    omega
  · rw [byteWeight_of_odd h, byteWeight_of_even (by omega), lowByte_toNat, highByte_toNat]
    omega

/-- A valid range in which one byte changes is no longer valid: the word sum changes by less than 0xFFFF. -/
theorem eq_of_valid_of_valid {before after : List Byte} {x y : Byte} (hx : valid (before ++ [x] ++ after) = true)
    (hy : valid (before ++ [y] ++ after) = true) : x = y := by
  have hreplace := wordSum_replace (x := [x]) (y := [y]) rfl before after
  obtain ⟨-, hx⟩ := valid_iff.1 hx
  obtain ⟨-, hy⟩ := valid_iff.1 hy
  have hxlt := x.isLt
  have hylt := y.isLt
  refine BitVec.eq_of_toNat_eq ?_
  simp only [wordSumFrom] at hreplace
  rcases byteWeight_cases before.length with hw | hw <;>
    (rw [hw] at hreplace; omega)

/-- Settles O33: the flipped byte is another byte. -/
theorem singleBitFlipIsDetected : Obligations.SingleBitFlipIsDetected := by
  intro before after b j hj hvalid
  refine Bool.eq_false_iff.2 fun hflip => ?_
  have hb : b ^^^ BitVec.twoPow 8 j = b := eq_of_valid_of_valid hflip hvalid
  have hbit := congrArg (BitVec.getLsbD · j) hb
  simp [hj] at hbit

/-! A checksum embedded in RAM (R127, even offset). -/

theorem Memory.bytes_append (m : Memory) (a n k : Nat) : m.bytes a (n + k) = m.bytes a n ++ m.bytes (a + n) k := by
  simp [Memory.bytes, List.range_add, Nat.add_assoc]

/-- A range of RAM, cut at a 2-byte field at its offset `k`. -/
theorem Memory.bytes_around_field (m : Memory) (a : Nat) {k n : Nat} (h : k + 2 ≤ n) :
    m.bytes a n = m.bytes a k ++ m.bytes (a + k) 2 ++ m.bytes (a + k + 2) (n - (k + 2)) := by
  rw [Nat.add_assoc, ← Memory.bytes_append, ← Memory.bytes_append, Nat.add_sub_cancel' h]

theorem bytesLE_two (v : Nat) :
    bytesLE 2 v = [(BitVec.ofNat 16 v).extractLsb' 0 8, (BitVec.ofNat 16 v).extractLsb' 8 8] := by
  have hlow : BitVec.ofNat 8 v = (BitVec.ofNat 16 v).extractLsb' 0 8 := by
    refine BitVec.eq_of_toNat_eq ?_
    rw [lowByte_toNat, BitVec.toNat_ofNat, BitVec.toNat_ofNat]
    omega
  have hhigh : BitVec.ofNat 8 (v >>> 8) = (BitVec.ofNat 16 v).extractLsb' 8 8 := by
    refine BitVec.eq_of_toNat_eq ?_
    rw [highByte_toNat, BitVec.toNat_ofNat, BitVec.toNat_ofNat, Nat.shiftRight_eq_div_pow]
    omega
  rw [← hlow, ← hhigh]
  rfl

/-- A range of RAM is valid once its checksum is stored in its zeroed field. -/
theorem Memory.valid_bytes_of_embedded {m : Memory} (hm : m.wf) {a n k : Nat} (hk : k % 2 = 0) (hkn : k + 2 ≤ n)
    (hzero : m.bytes (a + k) 2 = [0, 0]) :
    valid ((m.writeBytes (a + k) (bytesLE 2 (checksum (m.bytes a n)))).bytes a n) = true := by
  generalize hc : checksum (m.bytes a n) = c
  rw [Memory.bytes_around_field m a hkn, hzero] at hc
  have hbefore : (m.writeBytes (a + k) (bytesLE 2 c)).bytes a k = m.bytes a k :=
    Memory.bytes_writeBytes_disjoint m _ (.inl le_rfl)
  have hfield : (m.writeBytes (a + k) (bytesLE 2 c)).bytes (a + k) 2 = bytesLE 2 c :=
    Memory.bytes_writeBytes_same hm (a + k) _
  have hafter : (m.writeBytes (a + k) (bytesLE 2 c)).bytes (a + k + 2) (n - (k + 2)) =
      m.bytes (a + k + 2) (n - (k + 2)) :=
    Memory.bytes_writeBytes_disjoint m _ (.inr le_rfl)
  rw [Memory.bytes_around_field _ a hkn, hbefore, hfield, hafter, bytesLE_two, ← hc]
  exact (embeddedChecksumIsValid _ _).1 (by simpa using hk)

/-! The commands (R125, R126). -/

/-- A command that makes the checks of the checksum family and then delivers the value `f` of its range's bytes. -/
def ReadsItsRange (i : Instr) (f : List Byte → Word) : Prop :=
  ∀ s : State, program i s = .check s.rangeCheck fun _ => .memRead s.addr s.len fun b => .done (.value (f b))

theorem csumCompute_readsItsRange : ReadsItsRange .csumCompute fun b => BitVec.ofNat 32 (checksum b) := fun _ => rfl

theorem csumVerify_readsItsRange : ReadsItsRange .csumVerify fun b => flagWord (valid b) := fun _ => rfl

theorem State.len_of_lt {s : State} (h : s.arg1.toNat < 2 ^ 16) : s.len = s.arg1.toNat :=
  s.len_eq_mod.trans (Nat.mod_eq_of_lt h)

/-- `s` after a command that has read its range and ended with the result `v`. -/
def State.endedReading (s : State) (v : Word) : State :=
  { s.ended with result := v, trace := s.trace ++ ramReads s.mem s.arg0.toNat s.arg1.toNat }

theorem ReadsItsRange.illegalCmd {i : Instr} {f : List Byte → Word} (hi : ReadsItsRange i f) {s : State}
    (hs : s.Fresh) (h : s.arg1.toNat ≥ 2 ^ 16) : exec i s = .next (s.failed .illegalCmd) := by
  have hhigh : s.lenHigh ≠ 0 := mt State.lenHigh_eq_zero.1 (Nat.not_lt.2 h)
  exact exec_of_check_error hs (hi s) (s.rangeCheck_eq_frameCheck.trans (State.frameCheck_illegalCmd hhigh _ _))

theorem ReadsItsRange.busFault {i : Instr} {f : List Byte → Word} (hi : ReadsItsRange i f) {s : State}
    (hs : s.Fresh) (h : s.arg1.toNat < 2 ^ 16) (hin : s.inBounds s.arg0.toNat s.arg1.toNat = false) :
    exec i s = .next (s.failed .busFault) := by
  rw [← State.len_of_lt h] at hin
  exact exec_of_check_error hs (hi s) (s.rangeCheck_eq_frameCheck.trans
    (State.frameCheck_busFault (State.lenHigh_eq_zero.2 h) nofun nofun hin))

theorem ReadsItsRange.result {i : Instr} {f : List Byte → Word} (hi : ReadsItsRange i f) {s : State}
    (hs : s.Fresh) (h : s.arg1.toNat < 2 ^ 16) (hin : s.inBounds s.arg0.toNat s.arg1.toNat = true) :
    exec i s = .next (s.endedReading (f (s.mem.bytes s.arg0.toNat s.arg1.toNat))) := by
  rw [← State.len_of_lt h] at hin
  rw [State.endedReading, ← State.len_of_lt h]
  exact exec_of_check_ok hs (hi s) (State.rangeCheck_eq_ok (u := ()).2 ⟨State.lenHigh_eq_zero.2 h, hin⟩)
    (Prog.runAll_memRead _ _ _ hs.2) hs.2

/-- Settles O29: the value taken of the range is the checksum. -/
theorem csumComputeReturnsTheChecksum : Obligations.CsumComputeReturnsTheChecksum :=
  ⟨rfl, fun _ hs => ⟨csumCompute_readsItsRange.illegalCmd hs, csumCompute_readsItsRange.busFault hs,
    csumCompute_readsItsRange.result hs⟩⟩

theorem flagWord_valid (b : List Byte) : flagWord (valid b) = if fold (wordSum b) = 0xFFFF then 1 else 0 := by
  simp only [flagWord, valid_iff_fold]

/-- Settles O30: the value taken of the range says whether it is valid. -/
theorem csumVerifyReportsValidity : Obligations.CsumVerifyReportsValidity := by
  refine ⟨rfl, fun s hs => ?_⟩
  rw [← flagWord_valid]
  exact ⟨csumVerify_readsItsRange.illegalCmd hs, csumVerify_readsItsRange.busFault hs,
    csumVerify_readsItsRange.result hs⟩

/-- Settles O35: the range is valid once RESULT is stored, and the store leaves the operands and the admitted RAM. -/
theorem computeEmbedVerifyOnTheMachine : Obligations.ComputeEmbedVerifyOnTheMachine := by
  intro s k hs hm hlen hin hk hkn hzero
  have hresult : (BitVec.ofNat 32 (checksum (s.mem.bytes s.arg0.toNat s.arg1.toNat))).toNat =
      checksum (s.mem.bytes s.arg0.toNat s.arg1.toNat) :=
    (BitVec.toNat_ofNat _ _).trans (Nat.mod_eq_of_lt ((checksum_lt _).trans (by decide)))
  have hvalid := Memory.valid_bytes_of_embedded hm hk hkn hzero
  rw [← hresult] at hvalid
  exact ⟨_, _, csumCompute_readsItsRange.result hs hlen hin, csumVerify_readsItsRange.result ⟨rfl, rfl⟩ hlen hin, rfl,
    (congrArg flagWord hvalid :)⟩

end Sys2Proof.Machine
end

section
/-! PROOFS, family 42_header_codec: the field tables, the chunk that a selector names, and FIELD_GET and FIELD_SET. -/

namespace Sys2Proof.Machine

/-! The field tables (spec/42_header_codec.md R142 to R150). -/

/-- The FIELD numbers of each header kind. -/
theorem lt_length_headerFields_iff (hdr : BitVec 4) (k : Nat) :
    k < (headerFields hdr).length ↔
      (hdr = 0 ∧ k ≤ 2) ∨ (hdr = 1 ∧ k ≤ 8) ∨ (hdr = 2 ∧ k ≤ 11) ∨ (hdr = 3 ∧ k ≤ 3) ∨ (hdr = 4 ∧ k ≤ 7) ∨
        (hdr = 5 ∧ k ≤ 3) ∨ (hdr = 6 ∧ k ≤ 5) ∨ (hdr = 7 ∧ k ≤ 3) := by
  rcases Nat.lt_or_ge k 12 with hk | hk
  · revert k hdr; decide
  · have hlength : (headerFields hdr).length ≤ 12 := by revert hdr; decide
    omega

theorem layout_isSome_iff (hdr : BitVec 4) (field : BitVec 8) :
    (layout hdr field).isSome = true ↔ field.toNat < (headerFields hdr).length := by
  simp [layout]

theorem chunkCount_headerFields : ∀ (hdr : BitVec 4) (k : Nat) (h : k < (headerFields hdr).length),
    chunkCount (headerFields hdr)[k] =
      if (hdr = 0 ∧ k ≤ 1) ∨ (hdr = 1 ∧ (k = 5 ∨ k = 7)) then 2 else if hdr = 6 ∧ 4 ≤ k then 4 else 1 := by
  decide

theorem validSelector_iff {hdr : BitVec 4} {field : BitVec 8} {chunk : BitVec 4} :
    validSelector hdr field chunk = true ↔ ∃ l, layout hdr field = some l ∧ chunk.toNat < chunkCount l := by
  unfold validSelector
  cases layout hdr field <;> simp

/-- Settles O4: the tables by evaluation, the selectors by the number of fields and of chunks. -/
theorem validSelectorsAreTheTabledOnes : Obligations.ValidSelectorsAreTheTabledOnes := by
  refine ⟨?_, rfl, rfl, fun hdr field chunk => ⟨?_, ?_⟩⟩
  · simp only [List.forall_mem_cons]
    decide
  · rw [layout_isSome_iff, lt_length_headerFields_iff]
  · have h5 : field = 5 ↔ field.toNat = 5 := BitVec.toNat_inj (y := 5).symm
    have h7 : field = 7 ↔ field.toNat = 7 := BitVec.toNat_inj (y := 7).symm
    simp only [validSelector_iff, layout_isSome_iff, h5, h7]
    constructor
    · rintro ⟨l, hl, hc⟩
      obtain ⟨hk, rfl⟩ := List.getElem?_eq_some_iff.1 hl
      exact ⟨hk, chunkCount_headerFields hdr _ hk ▸ hc⟩
    · rintro ⟨hk, hc⟩
      exact ⟨_, List.getElem?_eq_getElem hk, (chunkCount_headerFields hdr _ hk).symm ▸ hc⟩

/-! The chunk of a valid selector (spec/42_header_codec.md R150, R151). -/

section
variable {hdr : BitVec 4} {field : BitVec 8} {chunk : BitVec 4} {l : FieldLayout}

theorem chunkCount_of_nibble (hk : l.kind ≠ .bytes) : chunkCount l = 1 := by
  unfold chunkCount
  cases h : l.kind with
  | bytes => exact absurd h hk
  | highNibble | lowNibble => rfl

/-- A nibble field is one byte of one chunk. -/
theorem chunk_of_nibble (hl : layout hdr field = some l) (hv : validSelector hdr field chunk = true)
    (hk : l.kind ≠ .bytes) : l.width = 1 ∧ chunk.toNat = 0 := by
  have hwidth : ∀ x : BitVec 4, ∀ l ∈ headerFields x, l.kind = .bytes ∨ l.width = 1 := by decide
  obtain ⟨l', hl', hc⟩ := validSelector_iff.1 hv
  obtain rfl : l = l' := Option.some.inj (hl.symm.trans hl')
  refine ⟨(hwidth hdr l (List.mem_of_getElem? hl)).resolve_left hk, ?_⟩
  rw [chunkCount_of_nibble hk] at hc
  omega

theorem chunkAddr_eq (hl : layout hdr field = some l) (hv : validSelector hdr field chunk = true) (h : Nat) :
    chunkAddr l h chunk = h + l.offset + 4 * chunk.toNat := by
  unfold chunkAddr
  cases hk : l.kind with
  | bytes => rfl
  | highNibble | lowNibble =>
    rw [(chunk_of_nibble hl hv (by simp [hk])).2]
    rfl

theorem chunkWidth_of_nibble (hk : l.kind ≠ .bytes) : chunkWidth l chunk = 1 := by
  unfold chunkWidth
  cases h : l.kind with
  | bytes => exact absurd h hk
  | highNibble | lowNibble => rfl

theorem chunkWidth_eq (hl : layout hdr field = some l) (hv : validSelector hdr field chunk = true) :
    chunkWidth l chunk = min 4 (l.width - 4 * chunk.toNat) := by
  by_cases hk : l.kind = .bytes
  · simp only [chunkWidth, hk]
  · obtain ⟨hwidth, hchunk⟩ := chunk_of_nibble hl hv hk
    rw [chunkWidth_of_nibble hk, hwidth, hchunk]
    rfl

theorem chunkWidth_le (l : FieldLayout) (chunk : BitVec 4) : chunkWidth l chunk ≤ 4 := by
  unfold chunkWidth
  split <;> omega

theorem State.fieldCheck_busFault {s : State} (hl : layout hdr field = some l)
    (hv : validSelector hdr field chunk = true)
    (hin : s.inBounds (chunkAddr l s.addr chunk) (chunkWidth l chunk) = false) :
    s.fieldCheck hdr field chunk = .error .busFault := by
  simp [State.fieldCheck, hl, hv, hin]

/-! FIELD_GET (spec/42_header_codec.md R152). -/

theorem fieldValue_le (kind : FieldKind) (bs : List Byte) : fieldValue kind bs ≤ beNat bs := by
  cases kind with
  | bytes => exact le_rfl
  | highNibble => exact Nat.div_le_self _ _
  | lowNibble => exact Nat.mod_le _ _

/-- The value of a chunk fits RESULT. -/
theorem fieldValue_lt (l : FieldLayout) (chunk : BitVec 4) (m : Memory) (a : Nat) :
    fieldValue l.kind (m.bytes a (chunkWidth l chunk)) < 2 ^ 32 := by
  have hlt := beNat_lt (m.bytes a (chunkWidth l chunk))
  rw [Memory.length_bytes] at hlt
  have hle : 2 ^ (8 * chunkWidth l chunk) ≤ 2 ^ 32 :=
    Nat.pow_le_pow_right (by decide) (by have := chunkWidth_le l chunk; omega)
  exact (fieldValue_le l.kind _).trans_lt (hlt.trans_le hle)

theorem exec_fieldGet_of_ok {s : State} (hs : s.Fresh) (hc : s.fieldCheck hdr field chunk = .ok l) :
    exec (.fieldGet hdr field chunk) s = .next { s.ended with
      result := BitVec.ofNat 32 (fieldValue l.kind (s.mem.bytes (chunkAddr l s.addr chunk) (chunkWidth l chunk)))
      trace := s.trace ++ ramReads s.mem (chunkAddr l s.addr chunk) (chunkWidth l chunk) } :=
  exec_of_check_ok (i := .fieldGet hdr field chunk) hs rfl hc (Prog.runAll_memRead _ _ _ hs.2) hs.2

/-! FIELD_SET (spec/42_header_codec.md R153). -/

theorem nibbleByte_true (byte value : Nat) : nibbleByte true byte value = 16 * (value % 16) + byte % 16 := rfl

theorem nibbleByte_false (byte value : Nat) : nibbleByte false byte value = 16 * (byte / 16) + value % 16 := rfl

/-- What a chunk of `w` bytes holds, as a number, once FIELD_SET of `v` has met the byte `old` there. -/
def storedValue (kind : FieldKind) (w old v : Nat) : Nat :=
  match kind with
  | .bytes => v % 2 ^ (8 * w)
  | .highNibble => nibbleByte true old v
  | .lowNibble => nibbleByte false old v

theorem storedValue_lt {kind : FieldKind} {w old : Nat} (hw : kind ≠ .bytes → w = 1) (hold : old < 256) (v : Nat) :
    storedValue kind w old v < 2 ^ (8 * w) := by
  cases kind with
  | bytes => exact Nat.mod_lt _ (by positivity)
  | highNibble =>
    obtain rfl := hw nofun
    simp only [storedValue, nibbleByte_true]
    omega
  | lowNibble =>
    obtain rfl := hw nofun
    simp only [storedValue, nibbleByte_false]
    omega

/-- The bits of the operand that a field of `kind` takes into a chunk of `w` bytes. -/
def fieldBits (kind : FieldKind) (w : Nat) : Nat := if kind = .bytes then 8 * w else 4

theorem fieldBits_le (l : FieldLayout) (chunk : BitVec 4) : fieldBits l.kind (chunkWidth l chunk) ≤ 32 := by
  have := chunkWidth_le l chunk
  unfold fieldBits
  split <;> omega

/-- The chunk that FIELD_SET has written has the operand, cut to the field's bits, as its value. -/
theorem fieldValue_of_storedValue {kind : FieldKind} {w old v : Nat} {bs : List Byte}
    (h : beNat bs = storedValue kind w old v) : fieldValue kind bs = v % 2 ^ fieldBits kind w := by
  cases kind with
  | bytes => exact h
  | highNibble =>
    rw [fieldValue, h, storedValue, nibbleByte_true, fieldBits, if_neg nofun]
    omega
  | lowNibble =>
    rw [fieldValue, h, storedValue, nibbleByte_false, fieldBits, if_neg nofun]
    omega

/-- `s` once FIELD_SET has read the byte of a nibble field and written the chunk. -/
def State.storedField (s : State) (l : FieldLayout) (chunk : BitVec 4) : State :=
  let a := chunkAddr l s.addr chunk
  let w := chunkWidth l chunk
  (s.saw (if l.kind = .bytes then [] else ramReads s.mem a 1)).memWrite a
    (bytesBE w (storedValue l.kind w (s.mem.read a).toNat s.arg1.toNat))

theorem exec_fieldSet_of_ok {s : State} (hs : s.Fresh) (hc : s.fieldCheck hdr field chunk = .ok l) :
    exec (.fieldSet hdr field chunk) s = .next (s.storedField l chunk).ended := by
  refine exec_of_check_ok (i := .fieldSet hdr field chunk) (t := s.storedField l chunk) (r := .nothing) hs rfl hc
    ?_ hs.2
  have hw := chunkWidth_of_nibble (l := l) (chunk := chunk)
  unfold State.storedField storedValue
  cases hk : l.kind with
  | bytes =>
    simp only [Prog.runAll_writeBE, State.saw_nil, if_true]
    rfl
  | highNibble | lowNibble =>
    simp only [Prog.runAll_readBE _ _ _ hs.2, Prog.runAll_writeBE, Memory.readBE_one, hw (by simp [hk])]
    rfl

theorem State.storedField_bytes {s : State} (hm : s.mem.wf) (l : FieldLayout) (chunk : BitVec 4) :
    (s.storedField l chunk).mem.bytes (chunkAddr l s.addr chunk) (chunkWidth l chunk) =
      bytesBE (chunkWidth l chunk) (storedValue l.kind (chunkWidth l chunk)
        (s.mem.read (chunkAddr l s.addr chunk)).toNat s.arg1.toNat) :=
  State.memWrite_bytes (s := s.saw _) hm _ (length_bytesBE _ _)

theorem State.beNat_storedField {s : State} (hm : s.mem.wf) (l : FieldLayout) (chunk : BitVec 4) :
    beNat ((s.storedField l chunk).mem.bytes (chunkAddr l s.addr chunk) (chunkWidth l chunk)) =
      storedValue l.kind (chunkWidth l chunk) (s.mem.read (chunkAddr l s.addr chunk)).toNat s.arg1.toNat := by
  rw [State.storedField_bytes hm, beNat_bytesBE]
  exact Nat.mod_eq_of_lt (storedValue_lt chunkWidth_of_nibble (BitVec.isLt _) _)

end

/-- Settles O40: the value taken of the chunk, by the kind of the field. -/
theorem fieldGetReadsTheField : Obligations.FieldGetReadsTheField := by
  intro s hdr field chunk l hs hl hv
  rw [← chunkAddr_eq hl hv, ← chunkWidth_eq hl hv]
  refine ⟨fun hin => ?_, fun hin => ⟨_, exec_fieldGet_of_ok hs (State.fieldCheck_eq_ok.2 ⟨hl, hv, hin⟩), ?_⟩⟩
  · exact exec_of_check_error (i := .fieldGet hdr field chunk) hs rfl (State.fieldCheck_busFault hl hv hin)
  · rw [BitVec.toNat_ofNat, Nat.mod_eq_of_lt (fieldValue_lt l chunk _ _)]
    unfold chunkAddr chunkWidth fieldValue
    cases l.kind with
    | bytes => rfl
    | highNibble => exact congrArg (· / 16) (s.mem.readBE_one _)
    | lowNibble => exact congrArg (· % 16) (s.mem.readBE_one _)

/-- Settles O41: the chunk's bytes hold the stored value, and the write leaves the others. -/
theorem fieldSetWritesTheField : Obligations.FieldSetWritesTheField := by
  intro s hdr field chunk l hs hm hl hv
  have hw := chunkWidth_of_nibble (l := l) (chunk := chunk)
  have hbytes := State.storedField_bytes hm l chunk
  have hvalue := State.beNat_storedField hm l chunk
  rw [← chunkAddr_eq hl hv, ← chunkWidth_eq hl hv]
  refine ⟨fun hin => ?_, fun hin => ⟨_, exec_fieldSet_of_ok hs (State.fieldCheck_eq_ok.2 ⟨hl, hv, hin⟩), rfl,
    fun b hb => ?_, ?_, ?_⟩⟩
  · exact exec_of_check_error (i := .fieldSet hdr field chunk) hs rfl (State.fieldCheck_busFault hl hv hin)
  · exact State.memWrite_read_outside (s.saw _) (by rw [length_bytesBE]; exact hb)
  · exact congrArg (_ ++ ramWrites _ ·) hbytes.symm
  · unfold storedValue at hvalue
    cases hk : l.kind with
    | bytes =>
      rw [hk] at hvalue
      exact hvalue
    | highNibble | lowNibble =>
      simp only [hk, hw (by simp [hk])] at hvalue
      exact (Memory.readBE_one _ _).symm.trans hvalue

/-- Settles O42: a FIELD_SET without error has written the chunk that FIELD_GET reads. -/
theorem fieldSetThenFieldGetReadsItBack : Obligations.FieldSetThenFieldGetReadsItBack := by
  intro s t hdr field chunk hs hm hexec herr
  cases hc : s.fieldCheck hdr field chunk with
  | error e =>
    rw [exec_of_check_error (i := .fieldSet hdr field chunk) hs rfl hc] at hexec
    cases hexec
    cases herr
  | ok l =>
    rw [exec_fieldSet_of_ok hs hc] at hexec
    cases hexec
    obtain ⟨hl, hv, hin⟩ := State.fieldCheck_eq_ok.1 hc
    have hc' : (s.storedField l chunk).ended.fieldCheck hdr field chunk = .ok l := hc
    refine ⟨_, exec_fieldGet_of_ok ⟨rfl, rfl⟩ hc', rfl, rfl, _, fieldBits_le l chunk, ?_, fun l' hl' => ?_⟩
    · rw [BitVec.toNat_ofNat, Nat.mod_eq_of_lt (fieldValue_lt l chunk _ _)]
      exact fieldValue_of_storedValue (State.beNat_storedField hm l chunk)
    · obtain rfl : l = l' := Option.some.inj (hl.symm.trans hl')
      exact congrArg (fieldBits l.kind) (chunkWidth_eq hl hv)

end Sys2Proof.Machine
end

section
/-! PROOFS, family 43_dispatch: classification, the bytes it reads, and the frames it refuses. -/

namespace Sys2Proof.Machine

/-! The reads of a classification (spec/43_dispatch.md R162 to R168, R173), in their order. -/

/-- The ranges of the frame that `Classify` has read when it answers `info`. -/
def FrameInfo.ranges (info : FrameInfo) : List (Nat × Nat) :=
  match info.cls with
  | .unknown => [(12, 2)]
  | .arp => [(12, 2), (20, 2), (38, 4)]
  | .ipv4Icmp =>
    [(12, 2), (14, 1), (23, 1), (info.l4, 1), (30, 4)] ++
      match info.reply with
      | .icmpEcho _ => [(14, 1), (16, 2)]
      | _ => []
  | .ipv4Tcp | .ipv4Udp | .ipv4Other => [(12, 2), (14, 1), (23, 1)]
  | .ipv6Udp | .ipv6Other => [(12, 2), (20, 1)]

/-- `s` after reads of some ranges of its frame. -/
def State.sawFrame (s : State) (rs : List (Nat × Nat)) : State := s.saw (s.frameReads rs)

section
variable {s : State} (hr : s.raced = []) {ip : List Byte} {info : FrameInfo}
include hr

theorem Prog.runAll_memRead_frame (rs : List (Nat × Nat)) (o w : Nat) (k : List Byte → Prog) :
    (Prog.memRead (s.addr + o) w k).runAll (s.sawFrame rs) =
      (k (s.mem.bytes (s.addr + o) w)).runAll (s.sawFrame (rs ++ [(o, w)])) := by
  unfold State.sawFrame
  rw [Prog.runAll_memRead _ _ _ (s := s.saw _) hr, State.saw_saw]
  simp [State.frameReads]

theorem Prog.runAll_readBE_frame (rs : List (Nat × Nat)) (o w : Nat) (k : Nat → Prog) :
    (Prog.readBE (s.addr + o) w k).runAll (s.sawFrame rs) =
      (k (s.mem.readBE (s.addr + o) w)).runAll (s.sawFrame (rs ++ [(o, w)])) :=
  Prog.runAll_memRead_frame hr rs o w _

theorem Prog.runAll_icmpLayout {g : IcmpGeometry} (h : icmpLayoutOf s.mem s.addr s.len = .ok g)
    (rs : List (Nat × Nat)) (onErr : Err → Prog) (k : IcmpGeometry → Prog) :
    (Prog.icmpLayout s.addr s.len onErr k).runAll (s.sawFrame rs) =
      (k g).runAll (s.sawFrame (rs ++ [(14, 1), (16, 2)])) := by
  obtain ⟨h34, hihl, hl4, htl, hlen, rfl⟩ := icmpLayoutOf_eq_ok.1 h
  unfold ihlOf at hihl hl4 htl ⊢
  unfold Prog.icmpLayout
  rw [if_neg (by omega), Prog.runAll_readBE_frame hr, if_neg (by omega), if_neg (by omega),
    Prog.runAll_readBE_frame hr, if_neg (by omega), if_neg (by omega), List.append_assoc, List.singleton_append]

/-! Each branch of `Classify` begins with the ranges it shares with others read, and ends with all its ranges read. -/

theorem Prog.runAll_classifyArp (h : classifyArpOf s.mem ip s.addr s.len = .ok info) (k : FrameInfo → Prog) :
    (Prog.classifyArp ip s.addr s.len k).runAll (s.sawFrame [(12, 2)]) = (k info).runAll (s.sawFrame info.ranges) := by
  unfold classifyArpOf at h
  unfold Prog.classifyArp
  split_ifs at h with h42 hreq <;> cases h <;>
    rw [if_neg h42, Prog.runAll_readBE_frame hr, Prog.runAll_memRead_frame hr]
  · rw [if_pos hreq]
    rfl
  · rw [if_neg hreq]
    rfl

theorem Prog.runAll_classifyIcmp {l4 : Nat} (h : classifyIcmpOf s.mem ip s.addr s.len l4 = .ok info)
    (k : FrameInfo → Prog) :
    (Prog.classifyIcmp ip s.addr s.len l4 k).runAll (s.sawFrame [(12, 2), (14, 1), (23, 1)]) =
      (k info).runAll (s.sawFrame info.ranges) := by
  unfold classifyIcmpOf at h
  unfold Prog.classifyIcmp
  split_ifs at h with h8 hreq <;>
    rw [if_neg h8, Prog.runAll_readBE_frame hr, Prog.runAll_memRead_frame hr]
  · cases hg : icmpLayoutOf s.mem s.addr s.len with
    | error e =>
      rw [hg] at h
      cases h
    | ok g =>
      rw [hg] at h
      cases h
      rw [if_pos hreq, Prog.runAll_icmpLayout hr hg]
      rfl
  · cases h
    rw [if_neg hreq]
    rfl

theorem Prog.runAll_classifyIpv4 (h : classifyIpv4Of s.mem ip s.addr s.len = .ok info) (k : FrameInfo → Prog) :
    (Prog.classifyIpv4 ip s.addr s.len k).runAll (s.sawFrame [(12, 2)]) =
      (k info).runAll (s.sawFrame info.ranges) := by
  unfold classifyIpv4Of ihlOf at h
  unfold Prog.classifyIpv4
  split_ifs at h with h34 hihl hl4
  rw [if_neg h34, Prog.runAll_readBE_frame hr, if_neg hihl, if_neg hl4, Prog.runAll_readBE_frame hr]
  unfold classifyProtocolOf at h
  split_ifs at h with hicmp htcp h20 hudp h8
  · rw [if_pos hicmp]
    exact Prog.runAll_classifyIcmp hr h k
  · cases h
    rw [if_neg hicmp, if_pos htcp, if_neg h20]
    rfl
  · cases h
    rw [if_neg hicmp, if_neg htcp, if_pos hudp, if_neg h8]
    rfl
  · cases h
    rw [if_neg hicmp, if_neg htcp, if_neg hudp]
    rfl

theorem Prog.runAll_classifyIpv6 (h : classifyIpv6Of s.mem s.addr s.len = .ok info) (k : FrameInfo → Prog) :
    (Prog.classifyIpv6 s.addr s.len k).runAll (s.sawFrame [(12, 2)]) =
      (k info).runAll (s.sawFrame info.ranges) := by
  unfold classifyIpv6Of at h
  unfold Prog.classifyIpv6
  split_ifs at h with h54 hudp h62 <;> cases h <;> rw [if_neg h54, Prog.runAll_readBE_frame hr]
  · rw [if_pos hudp, if_neg h62]
    rfl
  · rw [if_neg hudp]
    rfl

/-- `Classify` that answers `info` has read the ranges of `info`. -/
theorem Prog.runAll_classify (h : classifyOf s.mem ip s.addr s.len = .ok info) (k : FrameInfo → Prog) :
    (Prog.classify ip s.addr s.len k).runAll s = (k info).runAll (s.sawFrame info.ranges) := by
  unfold classifyOf at h
  unfold Prog.classify
  split_ifs at h with h14 harp hipv4 hipv6 <;> rw [if_neg h14, Prog.runAll_readBE _ _ _ hr]
  · rw [if_pos harp, ← Prog.runAll_classifyArp hr h]
    rfl
  · rw [if_neg harp, if_pos hipv4, ← Prog.runAll_classifyIpv4 hr h]
    rfl
  · rw [if_neg harp, if_neg hipv4, if_pos hipv6, ← Prog.runAll_classifyIpv6 hr h]
    rfl
  · cases h
    rw [if_neg harp, if_neg hipv4, if_neg hipv6]
    rfl

end

/-! CLASSIFY of a frame that has a class (spec/43_dispatch.md R169). -/

theorem State.FrameOK.frameCheck {s : State} {needIp needMac : Bool} (h : s.FrameOK)
    (hip : needIp = true → s.hostIpSet = true) (hmac : needMac = true → s.hostMacSet = true) :
    s.frameCheck needIp needMac = .ok () :=
  State.frameCheck_eq_ok.2 ⟨h.1, hip, hmac, h.2⟩

theorem exec_classify_of_ok {s : State} (hs : s.Fresh) (hok : s.FrameOK) (hip : s.hostIpSet = true) {info : FrameInfo}
    (hinfo : classifyOf s.mem s.hostIpBytes s.addr s.len = .ok info) {cls off : Word}
    (hcls : 16 * (actionCode info.reply).toNat + (classCode info.cls).toNat = cls.toNat)
    (hoff : 65536 * (info.l4 % 65536) + info.l3 % 65536 = off.toNat) :
    exec .classify s = .next { s.ended with
      classReg := cls, hdroff := off, trace := s.trace ++ s.frameReads info.ranges } := by
  rw [← classWord_toNat] at hcls
  rw [← hdroffWord_toNat] at hoff
  rw [← BitVec.eq_of_toNat_eq hcls, ← BitVec.eq_of_toNat_eq hoff]
  exact exec_of_check_ok (i := .classify) hs rfl (hok.frameCheck (fun _ => hip) nofun)
    (Prog.runAll_classify hs.2 hinfo _) hs.2

/-! What a frame is classified as, from what its headers say. -/

section
variable {s : State} {ihl : Nat} (ip : List Byte)

theorem State.Ethertype.classify_arp (h : s.Ethertype 0x0806) :
    classifyOf s.mem ip s.addr s.len = classifyArpOf s.mem ip s.addr s.len := by
  obtain ⟨h14, het⟩ := h
  unfold classifyOf
  rw [if_neg (by omega), if_pos het]

theorem State.Ethertype.classify_ipv4 (h : s.Ethertype 0x0800) :
    classifyOf s.mem ip s.addr s.len = classifyIpv4Of s.mem ip s.addr s.len := by
  obtain ⟨h14, het⟩ := h
  unfold classifyOf
  rw [if_neg (by omega), if_neg (by omega), if_pos het]

theorem State.Ethertype.classify_ipv6 (h : s.Ethertype 0x86DD) :
    classifyOf s.mem ip s.addr s.len = classifyIpv6Of s.mem s.addr s.len := by
  obtain ⟨h14, het⟩ := h
  unfold classifyOf
  rw [if_neg (by omega), if_neg (by omega), if_neg (by omega), if_pos het]

theorem State.Ethertype.classify_unknown {et : Nat} (h : s.Ethertype et) (hne : et ∉ [0x0806, 0x0800, 0x86DD]) :
    classifyOf s.mem ip s.addr s.len = .ok ⟨.unknown, .none, 0, 0⟩ := by
  obtain ⟨h14, rfl⟩ := h
  simp only [List.mem_cons, List.not_mem_nil, or_false, not_or] at hne
  obtain ⟨harp, hipv4, hipv6⟩ := hne
  unfold classifyOf
  rw [if_neg (by omega), if_neg harp, if_neg hipv4, if_neg hipv6]

theorem State.Ipv4Header.classify_eq (h : s.Ipv4Header ihl) :
    classifyOf s.mem ip s.addr s.len = classifyProtocolOf s.mem ip s.addr s.len (14 + 4 * ihl) := by
  obtain ⟨het, h34, rfl, h5, hl4⟩ := h
  rw [het.classify_ipv4]
  unfold classifyIpv4Of
  rw [ihlOf_eq, if_neg (by omega), if_neg (by omega), if_neg (by omega)]

theorem Memory.readBE_one_of_read {m : Memory} {a v : Nat} (h : m.read a = BitVec.ofNat 8 v)
    (hv : v < 256 := by decide) : m.readBE a 1 = v := by
  rw [Memory.readBE_one, h, BitVec.toNat_ofNat, Nat.mod_eq_of_lt hv]

theorem Memory.read_of_readBE_one {m : Memory} {a v : Nat} (h : m.readBE a 1 = v) : m.read a = BitVec.ofNat 8 v := by
  rw [← h, Memory.readBE_one, BitVec.ofNat_toNat, BitVec.setWidth_eq]

theorem State.Ipv4Header.classify_icmp (h : s.Ipv4Header ihl) (hproto : s.mem.read (s.addr + 23) = 0x01) :
    classifyOf s.mem ip s.addr s.len = classifyIcmpOf s.mem ip s.addr s.len (14 + 4 * ihl) :=
  (h.classify_eq ip).trans (if_pos (Memory.readBE_one_of_read hproto))

theorem State.EchoRequest.classify_eq (h : s.EchoRequest ihl) :
    classifyOf s.mem s.hostIpBytes s.addr s.len =
      (icmpLayoutOf s.mem s.addr s.len).map fun g => ⟨.ipv4Icmp, .icmpEcho g, 14, 14 + 4 * ihl⟩ := by
  obtain ⟨hhdr, hproto, h8, htype, hdst⟩ := h
  rw [Nat.add_assoc] at htype
  rw [hhdr.classify_icmp _ hproto]
  unfold classifyIcmpOf
  rw [if_neg (by omega), if_pos ⟨Memory.readBE_one_of_read htype, hdst⟩]
  cases icmpLayoutOf s.mem s.addr s.len <;> rfl

theorem State.EchoGeometry.layout_eq {len : Nat} (h : s.EchoGeometry ihl len) :
    icmpLayoutOf s.mem s.addr s.len = .ok ⟨ihl, 14 + 4 * ihl, len⟩ := by
  obtain ⟨h34, hihl, h5, h8, htl, hlen⟩ := h
  rw [← ihlOf_eq] at hihl
  subst hihl
  refine icmpLayoutOf_eq_ok.2 ⟨h34, h5, by omega, by omega, by omega, ?_⟩
  rw [htl, Nat.add_sub_cancel_left]

theorem classifyArpOf_of_le {m : Memory} {f n : Nat} (h : 42 ≤ n) :
    classifyArpOf m ip f n =
      .ok ⟨.arp, if m.readBE (f + 20) 2 = 1 ∧ m.bytes (f + 38) 4 = ip then .arp else .none, 14, 0⟩ := by
  unfold classifyArpOf
  rw [if_neg (by omega)]
  split_ifs <;> rfl

/-- HDROFF of an IPv4 frame holds its offsets whole. -/
theorem State.Ipv4Header.hdroff_eq (h : s.Ipv4Header ihl) :
    65536 * ((14 + 4 * ihl) % 65536) + 14 % 65536 = (BitVec.ofNat 32 (65536 * (14 + 4 * ihl) + 14)).toNat := by
  obtain ⟨-, -, rfl, -, -⟩ := h
  rw [BitVec.toNat_ofNat]
  omega

end

/-- Settles O43: the class and the ranges read are those of an ARP frame, the action is that of its two fields. -/
theorem classifyOfAnArpFrame : Obligations.ClassifyOfAnArpFrame := by
  intro s hs hok hip het h42
  refine exec_classify_of_ok hs hok hip ((het.classify_arp _).trans (classifyArpOf_of_le _ h42)) ?_ rfl
  split_ifs <;> rfl

/-- Settles O44: the protocol chooses the class, once the header is an IPv4 header. -/
theorem classifyOfAnIpv4Frame : Obligations.ClassifyOfAnIpv4Frame := by
  intro s ihl hs hok hip h
  have hclass {cls : FrameClass} (hcls : classifyProtocolOf s.mem s.hostIpBytes s.addr s.len (14 + 4 * ihl) =
      .ok ⟨cls, .none, 14, 14 + 4 * ihl⟩) := (h.classify_eq _).trans hcls
  unfold classifyProtocolOf at hclass
  refine ⟨fun hproto hlen => exec_classify_of_ok hs hok hip (hclass (cls := .ipv4Tcp) ?_) rfl h.hdroff_eq,
    fun hproto hlen => exec_classify_of_ok hs hok hip (hclass (cls := .ipv4Udp) ?_) rfl h.hdroff_eq,
    fun hproto => exec_classify_of_ok hs hok hip (hclass (cls := .ipv4Other) ?_) rfl h.hdroff_eq⟩
  · rw [Memory.readBE_one_of_read hproto, if_neg (by decide), if_pos rfl, if_neg (by omega)]
  · rw [Memory.readBE_one_of_read hproto, if_neg (by decide), if_neg (by decide), if_pos rfl, if_neg (by omega)]
  · simp only [List.mem_cons, List.not_mem_nil, or_false, not_or] at hproto
    obtain ⟨hicmp, htcp, hudp⟩ := hproto
    rw [if_neg (mt Memory.read_of_readBE_one hicmp), if_neg (mt Memory.read_of_readBE_one htcp),
      if_neg (mt Memory.read_of_readBE_one hudp)]

/-- Settles O45: an echo request asks for a reply with the geometry `IcmpLayout` answers. -/
theorem classifyOfAnIcmpFrame : Obligations.ClassifyOfAnIcmpFrame := by
  intro s ihl len hs hok hip h hproto h8
  refine ⟨fun hecho hgeo => ?_, fun hecho => ?_⟩
  · have hinfo := hecho.classify_eq
    rw [hgeo.layout_eq] at hinfo
    exact exec_classify_of_ok hs hok hip hinfo rfl h.hdroff_eq
  · have hinfo := h.classify_icmp s.hostIpBytes hproto
    unfold classifyIcmpOf at hinfo
    rw [if_neg (by omega), if_neg fun hreq => hecho ⟨h, hproto, h8, ?_, hreq.2⟩] at hinfo
    · exact exec_classify_of_ok hs hok hip hinfo rfl h.hdroff_eq
    · rw [Nat.add_assoc]
      exact Memory.read_of_readBE_one hreq.1

/-- Settles O46: neither an IPv6 frame nor one of unknown ethertype has an action. -/
theorem classifyOfOtherFrames : Obligations.ClassifyOfOtherFrames := by
  intro s hs hok hip
  refine ⟨fun het h62 hnh => ?_, fun het h54 hnh => ?_, fun et het hne =>
    exec_classify_of_ok hs hok hip (het.classify_unknown _ hne) rfl rfl⟩
  · have hinfo := het.classify_ipv6 s.hostIpBytes
    unfold classifyIpv6Of at hinfo
    rw [if_neg (by omega), if_pos (Memory.readBE_one_of_read hnh), if_neg (by omega)] at hinfo
    exact exec_classify_of_ok hs hok hip hinfo rfl rfl
  · have hinfo := het.classify_ipv6 s.hostIpBytes
    unfold classifyIpv6Of at hinfo
    rw [if_neg (by omega), if_neg (mt Memory.read_of_readBE_one hnh)] at hinfo
    exact exec_classify_of_ok hs hok hip hinfo rfl rfl

/-! Frames that are refused (spec/43_dispatch.md R162 to R167, R173). -/

/-- A command that reads its frame after its checks, and finds an error in its bytes. -/
theorem refused_of_reads {α : Type} {s : State} {i : Instr} {c : Except Err Unit} {p : (α → Prog) → Prog}
    {k : α → Prog} {value : Memory → Except Err α} {e : Err} (hs : s.Fresh)
    (hprogram : program i s = .check c fun _ => p k) (hc : c = .ok ())
    (hp : Prog.Reads s.addr s.len .raise value p) (he : value s.mem = .error e) : s.Refused i e := by
  obtain ⟨evs, hevs, hrun⟩ := hp.run s hs.2
  refine ⟨evs, hevs, ?_⟩
  rw [exec_eq, hprogram, State.execute_fresh hs, Prog.runAll_check, hc, hrun, he]
  exact congrArg Host.Outcome.next (State.conclude_error (s := s.saw evs) hs.2 e)

theorem refused_of_classifyOf {s : State} {i : Instr} {e : Err} (hs : s.Fresh) (hok : s.FrameOK)
    (hip : s.hostIpSet = true) (hi : i ∈ [Instr.classify, .dispatch]) (hmac : i = .dispatch → s.hostMacSet = true)
    (he : classifyOf s.mem s.hostIpBytes s.addr s.len = .error e) : s.Refused i e := by
  have hreads := Prog.classify_reads s.hostIpBytes s.addr s.len
  simp only [List.mem_cons, List.not_mem_nil, or_false] at hi
  rcases hi with rfl | rfl
  · exact refused_of_reads hs rfl (hok.frameCheck (fun _ => hip) nofun) hreads he
  · exact refused_of_reads hs rfl (hok.frameCheck (fun _ => hip) fun _ => hmac rfl) hreads he

/-- What `IcmpLayout` says of TOTAL_LEN once the headers lie in the frame. -/
theorem icmpLayoutOf_of_le {m : Memory} {f n : Nat} (h34 : 34 ≤ n) (h5 : 5 ≤ ihlOf m f)
    (h8 : 14 + 4 * ihlOf m f + 8 ≤ n) :
    (m.readBE (f + 16) 2 < 4 * ihlOf m f + 8 → icmpLayoutOf m f n = .error .malformed) ∧
    (4 * ihlOf m f + 8 ≤ m.readBE (f + 16) 2 → n < 14 + m.readBE (f + 16) 2 →
      icmpLayoutOf m f n = .error .frameShort) := by
  unfold icmpLayoutOf
  rw [if_neg (by omega), if_neg (by omega), if_neg (by omega)]
  exact ⟨fun htl => if_pos htl, fun htl hlen => (if_neg (by omega)).trans (if_pos hlen)⟩

theorem State.EchoRequest.classify_error {s : State} {ihl : Nat} {e : Err} (h : s.EchoRequest ihl)
    (he : icmpLayoutOf s.mem s.addr s.len = .error e) :
    classifyOf s.mem s.hostIpBytes s.addr s.len = .error e := by
  rw [h.classify_eq, he]
  rfl

/-- Settles O47: each failed check is the first `classifyOf` meets. -/
theorem shortAndMalformedFramesAreRefused : Obligations.ShortAndMalformedFramesAreRefused := by
  intro s hs hok hip i hi hmac
  have hrefused {e : Err} := refused_of_classifyOf (e := e) hs hok hip hi hmac
  have hlayout {ihl : Nat} (h : s.EchoRequest ihl) :
      ihlOf s.mem s.addr = ihl ∧ 34 ≤ s.len ∧ 5 ≤ ihl ∧ 14 + 4 * ihl + 8 ≤ s.len := by
    obtain ⟨⟨-, h34, hihl, h5, -⟩, -, h8, -⟩ := h
    exact ⟨(ihlOf_eq _ _).trans hihl, h34, h5, h8⟩
  refine ⟨fun h14 => hrefused (if_pos h14), fun het h42 => hrefused ?_, fun het hlen => hrefused ?_,
    fun het h34 => hrefused ?_, fun het h34 hihl => hrefused ?_, fun ihl het h34 hihl h5 hlen => hrefused ?_,
    fun ihl hecho htl => hrefused (hecho.classify_error ?_),
    fun ihl hecho htl hlen => hrefused (hecho.classify_error ?_)⟩
  · exact (het.classify_arp _).trans (if_pos h42)
  · rw [het.classify_ipv6]
    unfold classifyIpv6Of
    by_cases h54 : s.len < 54
    · rw [if_pos h54]
    · obtain ⟨h62, hnh⟩ := hlen.resolve_left h54
      rw [if_neg h54, if_pos (Memory.readBE_one_of_read hnh), if_pos h62]
  · exact (het.classify_ipv4 _).trans (if_pos h34)
  · rw [het.classify_ipv4]
    unfold classifyIpv4Of
    rw [ihlOf_eq, if_neg (by omega), if_pos hihl]
  · by_cases hl4 : s.len < 14 + 4 * ihl
    · rw [het.classify_ipv4]
      unfold classifyIpv4Of
      rw [ihlOf_eq, hihl, if_neg (by omega), if_neg (by omega), if_pos hl4]
    · rw [State.Ipv4Header.classify_eq (ihl := ihl) _ ⟨het, h34, hihl, h5, by omega⟩]
      unfold classifyProtocolOf
      rcases hlen.resolve_left hl4 with ⟨h8, hproto⟩ | ⟨h20, hproto⟩
      · simp only [List.mem_cons, List.not_mem_nil, or_false] at hproto
        rcases hproto with hproto | hproto
        · rw [Memory.readBE_one_of_read hproto, if_pos rfl]
          exact if_pos h8
        · rw [Memory.readBE_one_of_read hproto, if_neg (by decide), if_neg (by decide),
            if_pos rfl, if_pos h8]
      · rw [Memory.readBE_one_of_read hproto, if_neg (by decide), if_pos rfl, if_pos h20]
  · obtain ⟨rfl, h34, h5, h8⟩ := hlayout hecho
    exact (icmpLayoutOf_of_le h34 h5 h8).1 htl
  · obtain ⟨rfl, h34, h5, h8⟩ := hlayout hecho
    exact (icmpLayoutOf_of_le h34 h5 h8).2 htl hlen

/-- Settles O50: each failed check is the first `icmpLayoutOf` meets. -/
theorem icmpEchoReplyErrors : Obligations.IcmpEchoReplyErrors := by
  intro s hs hok
  have hrefused {e : Err} (he : icmpLayoutOf s.mem s.addr s.len = .error e) : s.Refused .icmpEchoReply e :=
    refused_of_reads hs rfl (hok.frameCheck nofun nofun) (Prog.icmpLayout_reads s.addr s.len .raise) he
  rw [← ihlOf_eq]
  refine ⟨fun h34 => hrefused (if_pos h34), fun h34 hihl => hrefused ?_, ?_⟩
  · exact (if_neg (by omega)).trans (if_pos hihl)
  · rintro ihl h34 rfl h5
    refine ⟨fun h8 => hrefused ?_, fun h8 htl => hrefused ((icmpLayoutOf_of_le h34 h5 h8).1 htl),
      fun h8 htl hlen => hrefused ((icmpLayoutOf_of_le h34 h5 h8).2 htl hlen)⟩
    unfold icmpLayoutOf
    rw [if_neg (by omega), if_neg (by omega), if_pos h8]

end Sys2Proof.Machine
end

section
/-! PROOFS, family 43_dispatch: the bytes of a reply, its events, and the two commands that only reply. -/

namespace Sys2Proof.Machine

/-! The bytes of a reply (spec/43_dispatch.md R171, R174). Each range is traced back through the updates that leave it
to the one that makes it. -/

theorem State.arpRewrite_replyBytes {s : State} (hm : s.mem.wf) (f : Nat) {mac ip : List Byte} (hmac : mac.length = 6)
    (hip : ip.length = 4) : ArpReplyBytes s.mem (s.arpRewrite f mac ip).mem f mac ip := by
  have hreply : (bytesBE 2 2).length = 2 := rfl
  have heth := State.swap_wf hm f (f + 6) 6
  have hoper := State.memWrite_wf heth (f + 20) (bytesBE 2 2)
  have hhw := State.swap_wf hoper (f + 22) (f + 32) 6
  have hproto := State.swap_wf hhw (f + 28) (f + 38) 4
  have hsha := State.memWrite_wf hproto (f + 22) mac
  obtain ⟨hdst, hsrc⟩ := State.swap_bytes hm (a := f) (b := f + 6) (w := 6) (by omega)
  have htha := (State.swap_bytes hoper (a := f + 22) (b := f + 32) (w := 6) (by omega)).2
  have htpa := (State.swap_bytes hhw (a := f + 28) (b := f + 38) (w := 4) (by omega)).2
  have hout := (s.arpRewrite_rewrites f hmac hip).outside
  unfold ArpReplyBytes State.arpRewrite
  simp (disch := omega) only [State.memWrite_bytes_disjoint, State.swap_bytes_disjoint] at htha htpa ⊢
  refine ⟨hdst, hsrc, trivial, State.memWrite_bytes heth _ rfl, State.memWrite_bytes hproto _ hmac,
    State.memWrite_bytes hsha _ hip, htha, htpa, hout⟩

/-- A range is valid once its checksum is recomputed over a field at an even offset in it. -/
theorem State.rechecksum_valid {s : State} (hm : s.mem.wf) {a n k : Nat} (hk : k % 2 = 0) (hkn : k + 2 ≤ n) :
    valid ((s.rechecksum (a + k) a n).mem.bytes a n) = true :=
  Memory.valid_bytes_of_embedded (State.memWrite_wf hm _ _) hk hkn (State.memWrite_bytes hm _ rfl)

theorem State.icmpRewrite_replyBytes {s : State} (hm : s.mem.wf) (f : Nat) {ihl len : Nat} (h5 : 5 ≤ ihl)
    (h8 : 8 ≤ len) :
    EchoReplyBytes s.mem (s.icmpRewrite f ⟨ihl, 14 + 4 * ihl, len⟩).mem f (4 * ihl) len := by
  have hzero : (bytesBE 1 0).length = 1 := rfl
  have heth := State.swap_wf hm f (f + 6) 6
  have hip := State.swap_wf heth (f + 26) (f + 30) 4
  have htype := State.memWrite_wf hip (f + (14 + 4 * ihl)) (bytesBE 1 0)
  have hicmp := State.rechecksum_wf htype (f + (14 + 4 * ihl) + 2) (f + (14 + 4 * ihl)) len
  obtain ⟨hdst, hsrc⟩ := State.swap_bytes hm (a := f) (b := f + 6) (w := 6) (by omega)
  obtain ⟨hipSrc, hipDst⟩ := State.swap_bytes heth (a := f + 26) (b := f + 30) (w := 4) (by omega)
  have hsegment := State.rechecksum_valid htype (a := f + (14 + 4 * ihl)) (n := len) (k := 2) rfl (by omega)
  have hheader := State.rechecksum_valid hicmp (a := f + 14) (n := 4 * ihl) (k := 10) rfl (by omega)
  unfold EchoReplyBytes State.icmpRewrite
  simp (disch := omega) only [State.memWrite_bytes_disjoint, State.swap_bytes_disjoint,
    State.rechecksum_bytes_disjoint, State.rechecksum_read_outside,
    Nat.add_assoc f 14] at hipSrc hipDst hsegment hheader ⊢
  refine ⟨hdst, hsrc, hipSrc, hipDst, ?_, hsegment, hheader, fun a ha => ?_⟩
  · have h := State.memWrite_bytes hip (f + (14 + 4 * ihl)) (bs := bytesBE 1 0) (n := 1) rfl
    exact (List.cons.inj h).1
  · rw [State.rechecksum_read_outside _ (by omega), State.rechecksum_read_outside _ (by omega),
      State.memWrite_read_outside _ (by omega), State.swap_read_outside _ (by omega) (by omega),
      State.swap_read_outside _ (by omega) (by omega)]

/-! A rewriting, then the transmit request (spec/43_dispatch.md R176). -/

theorem State.Rewrites.endedPosting {s t : State} {lo hi : Nat} (h : s.Rewrites t lo hi) (a : Word) (n : BitVec 16) :
    s.EndedPosting (t.posted a n).ended a n := by
  unfold State.EndedPosting
  conv_lhs => rw [h.rest]
  rfl

/-- The request is the last event, and all else that the world can tell are writes. -/
theorem State.Rewrites.posted_trace {s t : State} {lo hi : Nat} (h : s.Rewrites t lo hi) (a : Word) (n : BitVec 16) :
    ∃ evs, (t.posted a n).trace = s.trace ++ evs ++ [.postTx a n] ∧ ∀ e ∈ effects evs, e.isRamWrite = true := by
  obtain ⟨evs, ht, hevs⟩ := h.events
  refine ⟨evs, congrArg (· ++ [Event.postTx a n]) ht, fun e he => ?_⟩
  obtain ⟨hmem, hread⟩ := List.mem_filter.1 he
  obtain ⟨k, b, -, -, rfl | rfl⟩ := hevs e hmem
  · cases hread
  · rfl

/-- From `u` the program `p` reads RAM, rewrites it to what `P` says, posts the request `(a, n)` and ends with `r`. -/
def Prog.Replies (p : Prog) (u : State) (r : Result) (a : Word) (n : BitVec 16) (P : Memory → Prop) : Prop :=
  ∃ t lo hi, p.runAll u = (.ok r, t.posted a n) ∧ u.Rewrites t lo hi ∧ P t.mem

theorem State.arpReplyBody_replies (s : State) (r : Result) {u : State} (hr : u.raced = []) (hm : u.mem.wf) :
    (s.arpReplyBody r).Replies u r s.arg0 42 fun m => ArpReplyBytes u.mem m s.addr s.hostMacBytes s.hostIpBytes :=
  ⟨_, _, _, s.runAll_arpReplyBody r hr, u.arpRewrite_rewrites s.addr (length_bytesBE _ _) (length_bytesBE _ _),
    State.arpRewrite_replyBytes hm s.addr (length_bytesBE _ _) (length_bytesBE _ _)⟩

theorem State.EchoGeometry.icmpEchoBody_replies {s u : State} {ihl len : Nat} (h : s.EchoGeometry ihl len) (r : Result)
    (hr : u.raced = []) (hmem : u.mem = s.mem) (hm : s.mem.wf) (onErr : Err → Prog) :
    (Prog.icmpLayout s.addr s.len onErr fun g => s.icmpEchoBody r g).Replies u r s.arg0 (s.arg1.extractLsb' 0 16)
      fun m => EchoReplyBytes s.mem m s.addr (4 * ihl) len := by
  have hlayout := h.layout_eq
  obtain ⟨h34, -, h5, h8, -, hlen⟩ := h
  rw [← hmem] at hlayout hm ⊢
  obtain ⟨evs, hevs, hrun⟩ := (Prog.icmpLayout_reads s.addr s.len onErr).run u hr
  rw [← Nat.add_sub_cancel_left (n := s.addr) (m := s.len)] at hevs
  rw [hlayout] at hrun
  refine ⟨_, s.addr, s.addr + s.len, (hrun _).trans (s.runAll_icmpEchoBody r _ hr),
    (u.saw_rewrites hevs).trans (State.icmpRewrite_rewrites _ s.addr _ h34 ?_ ?_ ?_),
    State.icmpRewrite_replyBytes (s := u.saw evs) hm s.addr h5 h8⟩ <;> dsimp only <;> omega

/-- A command that after its checks only replies. -/
theorem exec_reply {i : Instr} {s : State} {c : Except Err Unit} {k : Unit → Prog} {a : Word} {n : BitVec 16}
    {P : Memory → Prop} (hs : s.Fresh) (hprogram : program i s = .check c k) (hc : c = .ok ())
    (h : (k ()).Replies s .reply a n P) :
    ∃ t evs, exec i s = .next t ∧ s.EndedPosting t a n ∧ P t.mem ∧ t.trace = s.trace ++ evs ++ [.postTx a n] ∧
      ∀ e ∈ effects evs, e.isRamWrite = true := by
  obtain ⟨u, lo, hi, hrun, hrewrites, hP⟩ := h
  have hraced : (u.posted a n).raced = [] := (congrArg State.raced hrewrites.rest).trans hs.2
  obtain ⟨evs, htrace, hevs⟩ := hrewrites.posted_trace a n
  exact ⟨_, evs, exec_of_check_ok hs hprogram hc hrun hraced, hrewrites.endedPosting a n, hP, htrace, hevs⟩

/-- Settles O48: the rewriting of an ARP reply, then the request. -/
theorem arpReplyRewritesTheFrame : Obligations.ArpReplyRewritesTheFrame := by
  intro s hs hm hok hip hmac
  have hcheck := hok.frameCheck (needIp := true) (needMac := true) (fun _ => hip) fun _ => hmac
  have hprogram : program .arpReply s = .check (s.frameCheck true true) fun _ =>
    if s.len < 42 then .raise .frameShort else s.arpReplyBody .reply := rfl
  refine ⟨fun h42 => ?_, fun h42 =>
    exec_reply (P := fun m => ArpReplyBytes s.mem m s.addr s.hostMacBytes s.hostIpBytes) hs hprogram hcheck ?_⟩
  · rw [exec_eq, hprogram, State.execute_fresh hs, Prog.runAll_check, hcheck, if_pos h42]
    exact congrArg Host.Outcome.next (State.conclude_error hs.2 _)
  · rw [if_neg (by omega)]
    exact s.arpReplyBody_replies .reply hs.2 hm

/-- Settles O49: the rewriting of an echo reply for the geometry that `IcmpLayout` answers, then the request. -/
theorem icmpEchoReplyRewritesTheFrame : Obligations.IcmpEchoReplyRewritesTheFrame := by
  intro s ihl len hs hm hok hgeo
  have hcheck := hok.frameCheck (needIp := false) (needMac := false) nofun nofun
  have hprogram : program .icmpEchoReply s = .check (s.frameCheck false false) fun _ =>
    .icmpLayout s.addr s.len .raise fun g => s.icmpEchoBody .reply g := rfl
  exact exec_reply hs hprogram hcheck (hgeo.icmpEchoBody_replies .reply hs.2 rfl hm .raise)

end Sys2Proof.Machine
end

section
/-! PROOFS, family 43_dispatch: the log events of DISPATCH, the frames it answers and those it drops. -/

namespace Sys2Proof.Machine

/-! The log events (spec/43_dispatch.md R177). -/

/-- The events of `Hdr(kind, f + off, w)`: the reads of its bytes, then the log event. -/
def State.hdrLog (s : State) (kind : HdrKind) (off w : Nat) : List Event :=
  ramReads s.mem (s.addr + off) w ++
    [.log (.hdr kind (s.arg0 + BitVec.ofNat 32 off) (s.mem.bytes (s.addr + off) w))]

/-- The events that DISPATCH logs of a frame of class `cls` with L4OFF `l4`. -/
def State.classLog (s : State) (cls : FrameClass) (l4 : Nat) : List Event :=
  match cls with
  | .unknown => ramReads s.mem s.addr s.len ++ [.log (.hexDump s.arg0 (s.mem.bytes s.addr s.len))]
  | .arp => s.hdrLog .eth 0 14 ++ s.hdrLog .arp 14 28
  | .ipv4Icmp => s.hdrLog .eth 0 14 ++ s.hdrLog .ipv4 14 (l4 - 14) ++ s.hdrLog .icmp l4 8
  | .ipv4Tcp => s.hdrLog .eth 0 14 ++ s.hdrLog .ipv4 14 (l4 - 14) ++ s.hdrLog .tcp l4 20
  | .ipv4Udp => s.hdrLog .eth 0 14 ++ s.hdrLog .ipv4 14 (l4 - 14) ++ s.hdrLog .udp l4 8
  | .ipv4Other => s.hdrLog .eth 0 14 ++ s.hdrLog .ipv4 14 (l4 - 14)
  | .ipv6Udp => s.hdrLog .eth 0 14 ++ s.hdrLog .ipv6 14 40 ++ s.hdrLog .udp 54 8
  | .ipv6Other => s.hdrLog .eth 0 14 ++ s.hdrLog .ipv6 14 40

theorem State.ofNat_addr (s : State) : BitVec.ofNat 32 s.addr = s.arg0 :=
  (BitVec.ofNat_toNat _ _).trans (BitVec.setWidth_eq _)

theorem Prog.runAll_hdr {s : State} (hr : s.raced = []) (evs : List Event) (kind : HdrKind) (off w : Nat) (p : Prog) :
    (Prog.hdr kind (s.addr + off) w p).runAll (s.saw evs) = p.runAll (s.saw (evs ++ s.hdrLog kind off w)) := by
  unfold Prog.hdr State.hdrLog
  rw [Prog.runAll_memRead _ _ _ (s := s.saw _) hr, Prog.runAll_log, State.saw_saw, State.saw_saw, BitVec.ofNat_add,
    State.ofNat_addr, State.saw_mem]

/-- The Ethernet header stands at the frame's first byte. -/
theorem Prog.runAll_hdr_eth {s : State} (hr : s.raced = []) (evs : List Event) (w : Nat) (p : Prog) :
    (Prog.hdr .eth s.addr w p).runAll (s.saw evs) = p.runAll (s.saw (evs ++ s.hdrLog .eth 0 w)) :=
  Prog.runAll_hdr hr evs .eth 0 w p

theorem Prog.runAll_emitLogs {s : State} (hr : s.raced = []) (evs : List Event) (info : FrameInfo) (p : Prog) :
    (Prog.emitLogs info s.addr s.len p).runAll (s.saw evs) = p.runAll (s.saw (evs ++ s.classLog info.cls info.l4)) := by
  unfold Prog.emitLogs State.classLog
  cases info.cls with
  | unknown =>
    dsimp only
    unfold Prog.hexDump
    rw [Prog.runAll_memRead _ _ _ (s := s.saw _) hr, Prog.runAll_log, State.saw_saw, State.saw_saw, State.ofNat_addr,
      State.saw_mem]
  | arp | ipv4Other | ipv6Other =>
    dsimp only
    rw [Prog.runAll_hdr_eth hr, Prog.runAll_hdr hr, List.append_assoc]
  | ipv4Icmp | ipv4Tcp | ipv4Udp | ipv6Udp =>
    dsimp only
    rw [Prog.runAll_hdr_eth hr, Prog.runAll_hdr hr, Prog.runAll_hdr hr, List.append_assoc, List.append_assoc,
      List.append_assoc]

@[simp] theorem effects_hdrLog (s : State) (kind : HdrKind) (off w : Nat) :
    effects (s.hdrLog kind off w) =
      [.log (.hdr kind (s.arg0 + BitVec.ofNat 32 off) (s.mem.bytes (s.addr + off) w))] := by
  rw [State.hdrLog, effects_append, effects_ramReads]
  rfl

@[simp] theorem effects_frameReads (s : State) (rs : List (Nat × Nat)) : effects (s.frameReads rs) = [] := by
  induction rs with
  | nil => rfl
  | cons r rs ih => rw [State.frameReads, List.flatMap_cons, effects_append, effects_ramReads]; exact ih

/-! DISPATCH of a frame that has a class (spec/43_dispatch.md R178, R179). -/

/-- What DISPATCH has seen of a frame classified as `info` before it replies. -/
def State.dispatched (s : State) (info : FrameInfo) : State :=
  s.saw (s.frameReads info.ranges ++ s.classLog info.cls info.l4)

section
variable {s : State} (hs : s.Fresh) (hcheck : s.frameCheck true true = .ok ()) {info : FrameInfo}
  (hinfo : classifyOf s.mem s.hostIpBytes s.addr s.len = .ok info)
include hs hcheck hinfo

theorem exec_dispatch_of_ok {r : Result} {t : State}
    (hrun : (s.dispatchReply info).runAll (s.dispatched info) = (.ok r, t)) (ht : t.raced = []) :
    exec .dispatch s = .next (t.deliver r).ended := by
  refine exec_of_check_ok (i := .dispatch) hs rfl hcheck ?_ ht
  rw [Prog.runAll_classify hs.2 hinfo]
  exact (Prog.runAll_emitLogs hs.2 _ info _).trans hrun

/-- A frame that asks for a reply: the class registers, the log events before any write, then the reply. -/
theorem exec_dispatch_reply {a : Word} {n : BitVec 16} {P : Memory → Prop} {logs : List Event}
    (hreply : (s.dispatchReply info).Replies (s.dispatched info) (.frame info true) a n P)
    (hlogs : effects (s.classLog info.cls info.l4) = logs) {cls off : Word}
    (hcls : 16 * (actionCode info.reply).toNat + (classCode info.cls).toNat = cls.toNat)
    (hoff : 65536 * (info.l4 % 65536) + info.l3 % 65536 = off.toNat) :
    ∃ t evs, exec .dispatch s = .next t ∧
      ({ s with classReg := cls, hdroff := off } : State).EndedPosting t a n ∧ P t.mem ∧
      t.trace = s.trace ++ evs ++ [.postTx a n] ∧
      ∃ writes, (∀ e ∈ writes, e.isRamWrite = true) ∧ effects evs = logs ++ writes := by
  rw [← classWord_toNat] at hcls
  rw [← hdroffWord_toNat] at hoff
  rw [← BitVec.eq_of_toNat_eq hcls, ← BitVec.eq_of_toNat_eq hoff]
  obtain ⟨u, lo, hi, hrun, hrewrites, hP⟩ := hreply
  have hraced : (u.posted a n).raced = [] := (congrArg State.raced hrewrites.rest).trans hs.2
  obtain ⟨evs, htrace, hevs⟩ := hrewrites.posted_trace a n
  refine ⟨_, s.frameReads info.ranges ++ s.classLog info.cls info.l4 ++ evs,
    exec_dispatch_of_ok hs hcheck hinfo hrun hraced, ?_, hP, ?_, effects evs, hevs, ?_⟩
  · unfold State.EndedPosting
    conv_lhs => rw [hrewrites.rest]
    rfl
  · refine htrace.trans ?_
    simp [State.dispatched]
  · rw [effects_append, effects_append, effects_frameReads, hlogs]
    rfl

end

theorem State.ArpRequest.classify_eq {s : State} (h : s.ArpRequest) :
    classifyOf s.mem s.hostIpBytes s.addr s.len = .ok ⟨.arp, .arp, 14, 0⟩ := by
  obtain ⟨het, h42, hoper, htpa⟩ := h
  rw [het.classify_arp, classifyArpOf_of_le _ h42, if_pos ⟨congrArg beNat hoper, htpa⟩]

/-- Settles O51: the logs of an ARP frame, then the ARP reply. -/
theorem dispatchAnswersAnArpRequest : Obligations.DispatchAnswersAnArpRequest := by
  intro s hs hm hok hip hmac hreq
  have hcheck := hok.frameCheck (needIp := true) (needMac := true) (fun _ => hip) fun _ => hmac
  have hreply (info : FrameInfo) := s.arpReplyBody_replies (.frame info true) (u := s.dispatched info) hs.2 hm
  refine exec_dispatch_reply hs hcheck hreq.classify_eq (hreply _) ?_ rfl rfl
  rw [State.classLog, effects_append, effects_hdrLog, effects_hdrLog, BitVec.add_zero]
  rfl

/-- Settles O52: the logs of an ICMP frame, then the echo reply. -/
theorem dispatchAnswersAnEchoRequest : Obligations.DispatchAnswersAnEchoRequest := by
  intro s ihl len hs hm hok hip hmac hecho hgeo
  have hcheck := hok.frameCheck (needIp := true) (needMac := true) (fun _ => hip) fun _ => hmac
  have hinfo := hecho.classify_eq
  rw [hgeo.layout_eq] at hinfo
  have hreply (info : FrameInfo) (g : IcmpGeometry) := hgeo.icmpEchoBody_replies (.frame info true)
    (u := s.dispatched info) hs.2 rfl hm fun _ => s.icmpEchoBody (.frame info true) g
  refine exec_dispatch_reply hs hcheck hinfo (hreply _ _) ?_ rfl hecho.1.hdroff_eq
  rw [State.classLog, effects_append, effects_append, effects_hdrLog, effects_hdrLog, effects_hdrLog, BitVec.add_zero,
    Nat.add_sub_cancel_left, ← Nat.add_assoc]
  rfl

/-! A frame that asks for no reply. -/

theorem classCode_injective : Function.Injective classCode := by
  intro a b
  cases a <;> cases b <;> simp [classCode]

/-- CLASS with no action tells the class of the frame. -/
theorem FrameInfo.of_classWord {info : FrameInfo} {w : Word} {cls : FrameClass} (h : classWord info = w)
    (hw : w.toNat = (classCode cls).toNat) : info.cls = cls := by
  have hsum := classWord_toNat info
  have hlt := (classCode cls).isLt
  have hlt' := (classCode info.cls).isLt
  rw [h, hw] at hsum
  exact classCode_injective (BitVec.eq_of_toNat_eq (by omega))

theorem eq_none_of_actionCode {r : Reply} (h : (actionCode r).toNat = 0) : r = .none := by
  cases r with
  | none => rfl
  | arp | icmpEcho g => cases h

theorem FrameInfo.reply_eq_none {info : FrameInfo} (h : (classWord info).toNat < 16) : info.reply = .none := by
  rw [classWord_toNat] at h
  exact eq_none_of_actionCode (by omega)

/-- L4OFF fits HDROFF, and for IPv6 it is the fixed offset of R167. -/
def FrameInfo.OffsetsFit (info : FrameInfo) : Prop := info.l4 < 65536 ∧ (info.cls = .ipv6Udp → info.l4 = 54)

theorem classifyArpOf_offsetsFit {m : Memory} {ip : List Byte} {f n : Nat} {info : FrameInfo}
    (h : classifyArpOf m ip f n = .ok info) : info.OffsetsFit := by
  unfold classifyArpOf at h
  split_ifs at h <;> cases h <;> exact ⟨by decide, nofun⟩

theorem classifyIcmpOf_offsetsFit {m : Memory} {ip : List Byte} {f n l4 : Nat} {info : FrameInfo}
    (h : classifyIcmpOf m ip f n l4 = .ok info) (hl4 : l4 < 65536) : info.OffsetsFit := by
  unfold classifyIcmpOf at h
  split_ifs at h
  · split at h <;> cases h
    exact ⟨hl4, nofun⟩
  · cases h
    exact ⟨hl4, nofun⟩

theorem classifyIpv4Of_offsetsFit {m : Memory} {ip : List Byte} {f n : Nat} {info : FrameInfo}
    (h : classifyIpv4Of m ip f n = .ok info) : info.OffsetsFit := by
  have hl4 : 14 + 4 * ihlOf m f < 65536 := by
    have := ihlOf_lt m f
    omega
  unfold classifyIpv4Of classifyProtocolOf at h
  split_ifs at h
  · exact classifyIcmpOf_offsetsFit h hl4
  all_goals
    cases h
    exact ⟨hl4, nofun⟩

theorem classifyIpv6Of_offsetsFit {m : Memory} {f n : Nat} {info : FrameInfo} (h : classifyIpv6Of m f n = .ok info) :
    info.OffsetsFit := by
  unfold classifyIpv6Of at h
  split_ifs at h <;> cases h
  · exact ⟨by decide, fun _ => rfl⟩
  · exact ⟨by decide, nofun⟩

theorem classifyOf_offsetsFit {m : Memory} {ip : List Byte} {f n : Nat} {info : FrameInfo}
    (h : classifyOf m ip f n = .ok info) : info.OffsetsFit := by
  unfold classifyOf at h
  split_ifs at h
  · exact classifyArpOf_offsetsFit h
  · exact classifyIpv4Of_offsetsFit h
  · exact classifyIpv6Of_offsetsFit h
  · cases h
    exact ⟨by decide, nofun⟩

/-- A CLASSIFY that ended without error has passed its checks. -/
theorem frameOK_of_classified {s t : State} (hs : s.Fresh) (h : exec .classify s = .next t) (hok : t.err = none) :
    s.FrameOK ∧ s.hostIpSet = true := by
  cases hc : s.frameCheck true false with
  | error e =>
    rw [exec_of_check_error (i := .classify) hs rfl hc] at h
    cases h
    cases hok
  | ok _ =>
    obtain ⟨hlen, hip, -, hin⟩ := State.frameCheck_eq_ok.1 hc
    exact ⟨⟨hlen, hin⟩, hip rfl⟩

/-- Settles O53: the class that CLASSIFY finds determines what DISPATCH logs; with no action nothing follows. -/
theorem dispatchLogsAndDropsOtherFrames : Obligations.DispatchLogsAndDropsOtherFrames := by
  intro s t hs hmac h hok hcls
  obtain ⟨hframe, hip⟩ := frameOK_of_classified hs h hok
  obtain ⟨-, info, -, hinfo, -⟩ := (exec_classify hs h).resolve_left (not_not_intro hok)
  rw [exec_classify_of_ok hs hframe hip hinfo (classWord_toNat _).symm (hdroffWord_toNat _).symm] at h
  cases h
  have hcheck := hframe.frameCheck (needIp := true) (needMac := true) (fun _ => hip) fun _ => hmac
  have hrun : (s.dispatchReply info).runAll (s.dispatched info) = (.ok (.frame info false), s.dispatched info) := by
    rw [State.dispatchReply, FrameInfo.reply_eq_none hcls]
    rfl
  obtain ⟨hlt, hudp⟩ := classifyOf_offsetsFit hinfo
  intro f l4 hdr
  have hl4 : info.l4 = l4 := by
    have := hdroffWord_toNat info
    show info.l4 = (hdroffWord info).toNat / 65536
    omega
  have hlog {cls : FrameClass} {w : Word} (hw : classWord info = w) (hcode : w.toNat = (classCode cls).toNat) :
      s.classLog info.cls info.l4 = s.classLog cls l4 := by
    rw [FrameInfo.of_classWord hw hcode, hl4]
  refine ⟨s.classLog info.cls info.l4, ?_, fun hw => hlog (cls := .unknown) hw rfl,
    fun hw => hlog (cls := .arp) hw rfl,
    fun hw => hlog (cls := .ipv4Icmp) hw rfl, fun hw => hlog (cls := .ipv4Tcp) hw rfl,
    fun hw => hlog (cls := .ipv4Udp) hw rfl, fun hw => hlog (cls := .ipv4Other) hw rfl, fun hw => ?_,
    fun hw => hlog (cls := .ipv6Other) hw rfl⟩
  · rw [exec_dispatch_of_ok hs hcheck hinfo hrun hs.2]
    simp [State.dispatched, State.saw, State.deliver, State.setClass, State.ended]
  · refine (hlog (cls := .ipv6Udp) hw rfl).trans ?_
    rw [← hl4, hudp (FrameInfo.of_classWord hw rfl)]
    rfl

end Sys2Proof.Machine
end

section
/-! PROOFS, family 60_exceptions: which errors a command can end with, and what it has done when it ends with one. -/

namespace Sys2Proof.Machine

/-- A command leaves an error in ERR only if its run has ended with that error (spec/60_exceptions.md R203, R204). -/
theorem State.conclude_err_eq_some {u : State} {r : Except Err Result} {e : Err} :
    (u.conclude r).err = some e ↔ r = .error e := by
  rw [(u.conclude_err r).1]
  cases r with
  | error e' => simp
  | ok r => simp

/-- Settles O23: the errors are those of `commandErrors`, the table by which `MayEnd` says how a command can end. -/
theorem eachCommandRaisesOnlyItsErrors : Obligations.EachCommandRaisesOnlyItsErrors := by
  intro i s t e hwf h he
  obtain ⟨u, r, -, hend, hexec⟩ := exec_cases i s
  rw [hexec] at h
  cases h
  obtain rfl := State.conclude_err_eq_some.1 he
  exact hend hwf

/-! Errors are precise (spec/60_exceptions.md R203). -/

/-- While the host keeps its duty, a run of the program that ends with an error has left nothing but reads of RAM. -/
def Prog.Precise (p : Prog) : Prop :=
  ∀ (s : State) (e : Err), s.raced = [] → (p.runAll s).1 = .error e →
    ∃ evs, (p.runAll s).2 = s.saw evs ∧ ∀ x ∈ evs, ∃ a, x = .ramRead a (s.mem.read a)

theorem Prog.Precise.raise (e : Err) : (Prog.raise e).Precise :=
  fun s _ _ _ => ⟨[], s.saw_nil.symm, fun _ hx => absurd hx List.not_mem_nil⟩

/-- A program that cannot end with an error may make any access. -/
theorem Prog.Precise.of_ends_ok {p : Prog} (h : p.Ends fun r => r.isOk = true) : p.Precise := by
  intro s e _ he
  have hok := Prog.runAll_ends s h
  rw [he] at hok
  cases hok

theorem Prog.Precise.check {α : Type} {c : Except Err α} {k : α → Prog} (hk : ∀ a, (k a).Precise) :
    (Prog.check c k).Precise := by
  cases c with
  | error e => exact .raise e
  | ok a => exact hk a

/-- Reads of the frame may come before. -/
theorem Prog.Precise.reads {α : Type} {f n : Nat} {onErr : Err → Prog} {c : Memory → Except Err α}
    {p : (α → Prog) → Prog} {k : α → Prog} (hp : Prog.Reads f n onErr c p) (he : ∀ e, (onErr e).Precise)
    (hk : ∀ a, (k a).Precise) : (p k).Precise := by
  intro s e hr herr
  obtain ⟨evs, hevs, hrun⟩ := hp.run s hr
  obtain ⟨q, hq, hpq⟩ : ∃ q : Prog, q.Precise ∧ (p k).runAll s = q.runAll (s.saw evs) := by
    rw [hrun]
    cases c s.mem with
    | error e => exact ⟨onErr e, he e, rfl⟩
    | ok a => exact ⟨k a, hk a, rfl⟩
  rw [hpq] at herr ⊢
  obtain ⟨evs', hu, hevs'⟩ := hq (s.saw evs) e hr herr
  refine ⟨evs ++ evs', by rw [hu, State.saw_saw], fun x hx => ?_⟩
  rcases List.mem_append.1 hx with hx | hx
  · obtain ⟨a, -, -, hxa⟩ := hevs x hx
    exact ⟨a, hxa⟩
  · exact hevs' x hx

/-- The reply of DISPATCH cannot end with an error (spec/43_dispatch.md R178). -/
theorem State.dispatchReply_ends_ok (s : State) (info : FrameInfo) :
    (s.dispatchReply info).Ends fun r => r.isOk = true := by
  unfold State.dispatchReply
  split
  · exact rfl
  · exact State.arpReplyBody_ends rfl
  · exact Prog.icmpLayout_ends (fun _ _ => State.icmpEchoBody_ends rfl) fun _ => State.icmpEchoBody_ends rfl

/-- Every command makes its checks, then the reads that further checks need, and only then what has an effect
(spec/60_exceptions.md R202, R203). -/
theorem program_precise (i : Instr) (s : State) : (program i s).Precise := by
  cases i with
  | csumCompute => exact .check fun _ => .of_ends_ok (.memRead fun _ => rfl)
  | csumVerify => exact .check fun _ => .of_ends_ok (.memRead fun _ => rfl)
  | regRead => exact .check fun _ => .of_ends_ok (State.regRead_ends fun _ => rfl)
  | regWrite => exact .check fun _ => .of_ends_ok (State.regWrite_ends rfl)
  | regFlag enable => exact .check fun _ => .of_ends_ok (State.regRead_ends fun _ => State.regWrite_ends rfl)
  | fieldGet hdr field chunk => exact .check fun _ => .of_ends_ok (.memRead fun _ => rfl)
  | fieldSet hdr field chunk =>
    refine .check fun l => .of_ends_ok ?_
    cases l.kind with
    | bytes => exact .writeBE rfl
    | highNibble => exact .readBE fun _ => .writeBE rfl
    | lowNibble => exact .readBE fun _ => .writeBE rfl
  | classify => exact .check fun _ => .reads (Prog.classify_reads _ _ _) .raise fun _ => .of_ends_ok rfl
  | arpReply =>
    refine .check fun _ => ?_
    split
    · exact .raise _
    · exact .of_ends_ok (State.arpReplyBody_ends rfl)
  | icmpEchoReply =>
    exact .check fun _ => .reads (Prog.icmpLayout_reads _ _ _) .raise fun _ =>
      .of_ends_ok (State.icmpEchoBody_ends rfl)
  | dispatch =>
    exact .check fun _ => .reads (Prog.classify_reads _ _ _) .raise fun info =>
      .of_ends_ok (Prog.emitLogs_ends (s.dispatchReply_ends_ok info))

/-- A command that ends with an error has read RAM, set ERR and STICKY_ERR, cleared BUSY, and done nothing else. -/
theorem exec_error {i : Instr} {s t : State} {e : Err} (hs : s.Fresh) (h : exec i s = .next t) (he : t.err = some e) :
    ∃ evs, t = (s.failed e).saw evs ∧ ∀ x ∈ evs, ∃ a, x = .ramRead a (s.mem.read a) := by
  rw [exec_eq, State.execute_fresh hs] at h
  cases h
  have hend := State.conclude_err_eq_some.1 he
  obtain ⟨evs, hu, hevs⟩ := program_precise i s s e hs.2 hend
  refine ⟨evs, ?_, hevs⟩
  rw [hend, hu]
  exact State.conclude_error (s := s.saw evs) hs.2 e

/-- Settles O22: the events are reads by `exec_error`, of admitted bytes of the command's range because every access
of a command to RAM is. -/
theorem errorsArePrecise : Obligations.ErrorsArePrecise := by
  intro i s t e hs h he
  obtain ⟨evs, ht, hreads⟩ := exec_error hs h he
  obtain ⟨-, -, evs', htrace, hrange⟩ := commandsWriteRamOnlyInTheirRange i s t hs h
  have hevs : evs' = evs := List.append_cancel_left (htrace.symm.trans (congrArg State.trace ht))
  refine ⟨evs, ht, fun x hx => ?_⟩
  obtain ⟨a, rfl⟩ := hreads x hx
  exact ⟨a, rfl, hrange a _ (.inr (hevs ▸ hx))⟩

end Sys2Proof.Machine
end

section
/-! PROOFS, family 70_reset_and_hazards: a reset while a command is in progress. -/

namespace Sys2Proof.Machine

/-- A stopped command has made the first of its pending events and no other. -/
theorem State.stopped_trace (s : State) :
    ∃ done later, s.pendingEvents = done ++ later ∧ s.stopped.trace = s.trace ++ done := by
  obtain ⟨evs, hall, hfor⟩ :=
    Prog.runFor_trace (Config.stopPoint s.draws % (s.pendingEvents.length + 1)) s.rest s
  have hpending : s.pendingEvents = evs := by rw [State.pendingEvents, hall, List.drop_left]
  exact ⟨_, _, hpending.trans (List.take_append_drop _ evs).symm, hfor⟩

/-- A byte that the command has not written and would not write keeps its value when the command is stopped. -/
theorem State.stopped_read {s : State} {a : Nat} (h : ∀ b, Event.ramWrite a b ∉ s.pendingEvents) :
    s.stopped.mem.read a = s.mem.read a := by
  obtain ⟨done, later, hpending, htrace⟩ := s.stopped_trace
  refine Prog.runFor_read a _ s.rest s done htrace fun b hb => h b ?_
  rw [hpending]
  exact List.mem_append_left later hb

/-- The unspecified bytes that an interrupted command leaves are those of its write ranges and the raced ones. -/
theorem State.interrupted_read {s : State} {a : Nat} (hraced : a ∉ s.raced)
    (hwrite : ∀ b, Event.ramWrite a b ∉ s.pastEvents ++ s.pendingEvents) :
    s.interrupted.mem.read a = s.mem.read a := by
  have hrange : a ∉ s.writeRange ++ s.raced := fun ha => by
    rcases List.mem_append.1 ha with ha | ha
    · obtain ⟨b, hb⟩ := mem_writtenBytes.1 ha
      exact hwrite b hb
    · exact hraced ha
  calc s.interrupted.mem.read a
      = s.stopped.mem.read a := freeBytes_read_ne _ hrange
    _ = s.mem.read a := State.stopped_read fun b hb => hwrite b (List.mem_append_right _ hb)

/-- What a reset leaves of an interrupted command: RAM, the device's answers still to come, the draws used up and,
among the earlier ones, the events made. -/
theorem State.interrupted_afterReset (s : State) :
    s.interrupted.afterReset = { State.reset with
      mem := s.interrupted.mem, earlier := s.earlier ++ s.stopped.trace, ram := s.ram, blkBase := s.blkBase
      inputs := s.inputs, hostReads := s.hostReads, mmioAnswers := s.stopped.mmioAnswers
      portAnswers := s.stopped.portAnswers, draws := s.stopped.draws + 1 } := by
  have hrest := (Prog.runFor_ran (Config.stopPoint s.draws % (s.pendingEvents.length + 1)) s s.rest.all_true).rest
  change s.stopped = _ at hrest
  unfold State.interrupted
  rw [hrest]
  rfl

/-- Settles O19: the reset interrupts the command after the first of its pending events (`State.stopped_trace`), and
the interrupted command leaves every byte outside its write ranges that is not raced (`State.interrupted_read`). -/
theorem resetDuringACommand : Obligations.ResetDuringACommand := by
  intro s rest hb hin
  obtain ⟨done, later, hpending, htrace⟩ := State.stopped_trace { s with inputs := rest }
  refine ⟨State.afterReset (State.interrupted { s with inputs := rest }), done, later, ?_, hpending, ?_, ?_,
    fun a hraced hwrite => ?_⟩
  · exact (step_of_cons hin).trans (congrArg Host.Outcome.next (if_pos hb))
  · rw [State.interrupted_afterReset, htrace]
    exact (List.append_assoc _ _ _).symm
  · rw [State.interrupted_afterReset]
  · rw [List.append_assoc, ← hpending] at hwrite
    exact State.interrupted_read hraced hwrite

end Sys2Proof.Machine
end
